-- ==== Sys2Proof/Syntax.lean ====
section
/-! DEFINITION. The commands of the frame engine: one constructor for each row of the opcode table
(30_encoding.md rule R113). No command has an operand field: every operand is implicit (R112). -/

namespace Sys2Proof

/-- The ten commands, in the order of their opcodes (R113). -/
inductive Instr where
  /-- ENCODE, OPC 0x1 (R132). -/
  | encode
  /-- DECODE, OPC 0x2 (R133). -/
  | decode
  /-- ENCRYPT, OPC 0x3 (R176). -/
  | encrypt
  /-- DECRYPT, OPC 0x4 (R177). -/
  | decrypt
  /-- TAG_GEN, OPC 0x5 (R195). -/
  | tagGen
  /-- TAG_VERIFY, OPC 0x6 (R196). -/
  | tagVerify
  /-- FRAME_BUILD, OPC 0x7 (R212). -/
  | frameBuild
  /-- FRAME_PARSE, OPC 0x8 (R213). -/
  | frameParse
  /-- SEND, OPC 0x9 (R221). -/
  | send
  /-- RECEIVE, OPC 0xA (R233). -/
  | receive
deriving DecidableEq, Repr

end Sys2Proof
end

