-- ==== Sys2Proof/Word.lean ====
section
/-! DEFINITION. The words and byte strings of the frame engine: bytes, 32-bit register words, byte
strings, and the three fixed-size groups the spec uses (a 4-byte column, a 16-byte block, a group of
four registers), with their bytewise XOR. Rules R9, R10 and R140. -/

namespace Sys2Proof

/-- A byte (R10). -/
abbrev Byte := BitVec 8

/-- A 32-bit register or command word (R9). -/
abbrev Word := BitVec 32

/-- A byte string, byte 0 first (R10). -/
abbrev Bytes := List Byte

/-- A byte offset in the 4096-byte register window (R80: 12-bit offsets). -/
abbrev Offset := BitVec 12

/-- Four bytes in string order: one column of the AES state, also one 4-byte word of a byte string (R140). -/
structure Col where
  b0 : Byte
  b1 : Byte
  b2 : Byte
  b3 : Byte
deriving DecidableEq, Repr

/-- A 16-byte string as four columns: bytes 0 to 3 are column 0, bytes 4 to 7 column 1, and so on (R140). -/
structure Block where
  c0 : Col
  c1 : Col
  c2 : Col
  c3 : Col
deriving DecidableEq, Repr

/-- Four consecutive 32-bit registers: KEY0..KEY3, IV0..IV3, RD0..RD3 or TAG0..TAG3 (R32). -/
structure Quad where
  w0 : Word
  w1 : Word
  w2 : Word
  w3 : Word
deriving DecidableEq, Repr

/-- The column of four zero bytes. -/
def Col.zero : Col := ⟨0, 0, 0, 0⟩

/-- The block of sixteen zero bytes, `0^16` (R10). -/
def Block.zero : Block := ⟨.zero, .zero, .zero, .zero⟩

/-- Four registers holding 0x00000000 each (R60). -/
def Quad.zero : Quad := ⟨0, 0, 0, 0⟩

/-- Bytewise XOR of two 4-byte strings (R10). -/
def Col.xor (x y : Col) : Col := ⟨x.b0 ^^^ y.b0, x.b1 ^^^ y.b1, x.b2 ^^^ y.b2, x.b3 ^^^ y.b3⟩

/-- Bytewise XOR of two 16-byte strings (R10). -/
def Block.xor (x y : Block) : Block := ⟨x.c0.xor y.c0, x.c1.xor y.c1, x.c2.xor y.c2, x.c3.xor y.c3⟩

end Sys2Proof
end

