-- ==== Sys2Proof/Config.lean ====
section
/-! DEFINITION. What an implementation fixes (the parameters of 00_scope.md rule R7) and the free
values (R14: "a model must admit every value of the stated width, as a free draw under no law"). The
free values are opaque: nothing in Lean can evaluate one or prove what it is. -/

namespace Sys2Proof

/-- READING_BYTE_ORDER (R7, R88). -/
inductive ByteOrder where
  | le
  | be
deriving DecidableEq, Repr

/-- The states of the Receiver (R42, R59). -/
inductive RxState where
  | awaitingFrame
  | verifying
  | decrypting
  | validating
  | delivered
  | rejected
deriving DecidableEq, Repr

/-- What the latency of a command may depend on (R292): its opcode, the length registers it reads,
and, for a RECEIVE that rejects its frame, the stage that rejects it. -/
structure LatKey where
  op : Instr
  lens : List Word
  stage : Option RxState
deriving DecidableEq, Repr

/-- The parameters of R7. `lat` lists, for each case of `LatKey`, how many clocks beyond the first its
completion takes; a case not listed takes one clock. DESIGN CHOICE (log 1, log 8): the parameters are
plain data that no step changes, so that a statement over all states covers every value of them. -/
structure Params where
  bufCap : Nat
  order : ByteOrder
  lat : List (LatKey × Nat)
deriving DecidableEq, Repr

/-- The defaults of R7: BUF_CAP 64 and little-endian. DESIGN CHOICE (log 1): one clock for each command. -/
def Params.default : Params := { bufCap := 64, order := .le, lat := [] }

/-- The byte that a buffer holds at window offset `a` after the reset number `epoch`, until it is
written: unspecified (R60, R281; U1). -/
opaque Config.resetByte (epoch a : Nat) : Byte

/-- The word that draw number `n` answers to a read of a register or buffer word the running command
writes: unspecified (R289; U3). -/
opaque Config.freeWord (n : Nat) : Word

/-- The bit that draw number `n` shows for VERIFY_OK or TX_VALID while it is unspecified (R289; U4, U5). -/
opaque Config.freeBit (n : Nat) : Bool

/-- How far draw number `n` moves along the path of the running RECEIVE (R241; U6). -/
opaque Config.freeAdvance (n : Nat) : Nat

/-- Which reject category draw number `n` shows while a RECEIVE runs (R289; log 7). -/
opaque Config.freeCategory (n : Nat) : Nat

end Sys2Proof
end

