-- ==== Sys2Proof/WellFormed.lean ====
section
/-! DEFINITION. The checks on terms: a command word (R111), a host access (R82, R83) and the
parameters (R7). Every command is well-formed, because no command has an operand to check (R112). -/

namespace Sys2Proof

/-- A command has no operand field, so every command is well-formed (R112). -/
def Instr.wellFormed : Instr → Bool
  | .encode | .decode | .encrypt | .decrypt | .tagGen => true
  | .tagVerify | .frameBuild | .frameParse | .send | .receive => true

/-- A word is legal when its bits 31..4 are zero and its bits 3..0 are an opcode of R113 (R111). -/
def commandWordWellFormed (w : Word) : Bool :=
  w.extractLsb' 4 28 == 0#28 && (1 ≤ (w.extractLsb' 0 4).toNat && (w.extractLsb' 0 4).toNat ≤ 10)

/-- The only defined access: four bytes wide at an offset that is a multiple of 4 (R82). `width` is in
bytes. -/
def accessWellFormed (width : Nat) (off : Offset) : Bool :=
  width == 4 && off.toNat % 4 == 0

/-- BUF_CAP is a multiple of 16 from 48 to 256 (R7). -/
def Params.wellFormed (p : Params) : Bool :=
  p.bufCap % 16 == 0 && (48 ≤ p.bufCap && p.bufCap ≤ 256)

end Sys2Proof
end

