-- ==== Sys2Proof/Decode.lean ====
section
/-! DEFINITION. Decoding and encoding of command words (30_encoding.md, rules R110 to R117). The
decoder is total: a word is one command of R113 or is illegal. Bits are numbered from 0 at the least
significant end (R9), as the opcode table numbers them. -/

namespace Sys2Proof

/-- Why a word is illegal (R114). -/
inductive DecodeError where
  /-- Bits 31..4 are not zero. -/
  | mustBeZero
  /-- Bits 31..4 are zero and OPC is 0x0 or 0xB to 0xF. -/
  | noSuchOpcode
deriving DecidableEq, Repr

/-- The field MBZ, bits 31..4 of a command word (R111). -/
def mbzField (w : Word) : BitVec 28 := w.extractLsb' 4 28

/-- The field OPC, bits 3..0 of a command word (R111). -/
def opcField (w : Word) : BitVec 4 := w.extractLsb' 0 4

/-- `decode_cmd`, the total decoder (R111, R113, R117). -/
def decode (w : Word) : Except DecodeError Instr :=
  if mbzField w ≠ 0#28 then .error .mustBeZero
  else match (opcField w).toNat with
    | 1 => .ok .encode
    | 2 => .ok .decode
    | 3 => .ok .encrypt
    | 4 => .ok .decrypt
    | 5 => .ok .tagGen
    | 6 => .ok .tagVerify
    | 7 => .ok .frameBuild
    | 8 => .ok .frameParse
    | 9 => .ok .send
    | 10 => .ok .receive
    | _ => .error .noSuchOpcode

/-- OPC of each command (R113). -/
def opcodeOf : Instr → BitVec 4
  | .encode => 0x1#4
  | .decode => 0x2#4
  | .encrypt => 0x3#4
  | .decrypt => 0x4#4
  | .tagGen => 0x5#4
  | .tagVerify => 0x6#4
  | .frameBuild => 0x7#4
  | .frameParse => 0x8#4
  | .send => 0x9#4
  | .receive => 0xA#4

/-- `encode_cmd(c)` is `zext_32(OPC(c))` (R117). -/
def encode (i : Instr) : Word := (opcodeOf i).setWidth 32

/-- The command word an instruction of `nbits` bits stands for: the bits above `nbits` are zero. A
command is exactly one 32-bit word (R110), so bits past 32 make no command word. -/
def tableWord (nbits w : Nat) : Option Word :=
  if nbits ≤ 32 ∧ w < 2 ^ nbits then some (BitVec.ofNat 32 w) else none

/-- The command the decoder reads from an instruction whose bits are `w`. -/
def decodeTableWord (nbits w : Nat) : Option Instr :=
  match tableWord nbits w with
  | none => none
  | some word =>
    match decode word with
    | .ok i => some i
    | .error _ => none

end Sys2Proof
end

