-- ==== Sys2Proof/Machine/Aes.lean ====
section
/-! DEFINITION. The AES-128 block cipher (42_aes128.md, rules R140 to R152): byte arithmetic in
GF(2^8), the S-box and its inverse, the four round transforms with their inverses, the key expansion,
AES_Enc and AES_Dec. Blocks are four columns (R140), so `B.c2.b1` is the state byte `s[1][2]`. -/

namespace Sys2Proof.Machine

/-- `xtime(a)`: multiplication by x modulo m(x) = 0x11B (R141). -/
def xtime (a : Byte) : Byte := (a <<< 1) ^^^ (if a.getLsbD 7 then 0x1B else 0)

/-- The XOR of `xtime^i(a)` over the bits i below `n` that are set in `b` (R141). -/
def gmulBits : Nat → Byte → Byte → Byte
  | 0, _, _ => 0
  | n + 1, a, b => (if b.getLsbD 0 then a else 0) ^^^ gmulBits n (xtime a) (b >>> 1)

/-- `gmul(a, b)`: the product in GF(2^8) modulo 0x11B (R141). -/
def gmul (a b : Byte) : Byte := gmulBits 8 a b

/-- The product of `a`, `a^2`, `a^4` and so on, `n` factors each the square of the one before. -/
def gsquares : Nat → Byte → Byte
  | 0, _ => 1
  | n + 1, a => gmul a (gsquares n (gmul a a))

/-- `inv(a)`: the multiplicative inverse with `inv(0) = 0` (R141), as the power 254 = 2 + 4 + .. + 128
(log 23). -/
def ginv (a : Byte) : Byte := gsquares 7 (gmul a a)

/-- The affine map A of the S-box (R142). -/
def affine (b : Byte) : Byte :=
  b ^^^ b.rotateLeft 1 ^^^ b.rotateLeft 2 ^^^ b.rotateLeft 3 ^^^ b.rotateLeft 4 ^^^ 0x63

/-- The S-box table of R142: the row is the high nibble, the column the low nibble. -/
def sboxTable : List (List Byte) :=
  [[0x63, 0x7c, 0x77, 0x7b, 0xf2, 0x6b, 0x6f, 0xc5, 0x30, 0x01, 0x67, 0x2b, 0xfe, 0xd7, 0xab, 0x76],
   [0xca, 0x82, 0xc9, 0x7d, 0xfa, 0x59, 0x47, 0xf0, 0xad, 0xd4, 0xa2, 0xaf, 0x9c, 0xa4, 0x72, 0xc0],
   [0xb7, 0xfd, 0x93, 0x26, 0x36, 0x3f, 0xf7, 0xcc, 0x34, 0xa5, 0xe5, 0xf1, 0x71, 0xd8, 0x31, 0x15],
   [0x04, 0xc7, 0x23, 0xc3, 0x18, 0x96, 0x05, 0x9a, 0x07, 0x12, 0x80, 0xe2, 0xeb, 0x27, 0xb2, 0x75],
   [0x09, 0x83, 0x2c, 0x1a, 0x1b, 0x6e, 0x5a, 0xa0, 0x52, 0x3b, 0xd6, 0xb3, 0x29, 0xe3, 0x2f, 0x84],
   [0x53, 0xd1, 0x00, 0xed, 0x20, 0xfc, 0xb1, 0x5b, 0x6a, 0xcb, 0xbe, 0x39, 0x4a, 0x4c, 0x58, 0xcf],
   [0xd0, 0xef, 0xaa, 0xfb, 0x43, 0x4d, 0x33, 0x85, 0x45, 0xf9, 0x02, 0x7f, 0x50, 0x3c, 0x9f, 0xa8],
   [0x51, 0xa3, 0x40, 0x8f, 0x92, 0x9d, 0x38, 0xf5, 0xbc, 0xb6, 0xda, 0x21, 0x10, 0xff, 0xf3, 0xd2],
   [0xcd, 0x0c, 0x13, 0xec, 0x5f, 0x97, 0x44, 0x17, 0xc4, 0xa7, 0x7e, 0x3d, 0x64, 0x5d, 0x19, 0x73],
   [0x60, 0x81, 0x4f, 0xdc, 0x22, 0x2a, 0x90, 0x88, 0x46, 0xee, 0xb8, 0x14, 0xde, 0x5e, 0x0b, 0xdb],
   [0xe0, 0x32, 0x3a, 0x0a, 0x49, 0x06, 0x24, 0x5c, 0xc2, 0xd3, 0xac, 0x62, 0x91, 0x95, 0xe4, 0x79],
   [0xe7, 0xc8, 0x37, 0x6d, 0x8d, 0xd5, 0x4e, 0xa9, 0x6c, 0x56, 0xf4, 0xea, 0x65, 0x7a, 0xae, 0x08],
   [0xba, 0x78, 0x25, 0x2e, 0x1c, 0xa6, 0xb4, 0xc6, 0xe8, 0xdd, 0x74, 0x1f, 0x4b, 0xbd, 0x8b, 0x8a],
   [0x70, 0x3e, 0xb5, 0x66, 0x48, 0x03, 0xf6, 0x0e, 0x61, 0x35, 0x57, 0xb9, 0x86, 0xc1, 0x1d, 0x9e],
   [0xe1, 0xf8, 0x98, 0x11, 0x69, 0xd9, 0x8e, 0x94, 0x9b, 0x1e, 0x87, 0xe9, 0xce, 0x55, 0x28, 0xdf],
   [0x8c, 0xa1, 0x89, 0x0d, 0xbf, 0xe6, 0x42, 0x68, 0x41, 0x99, 0x2d, 0x0f, 0xb0, 0x54, 0xbb, 0x16]]

/-- The inverse S-box table of R143, laid out as `sboxTable`. -/
def invSboxTable : List (List Byte) :=
  [[0x52, 0x09, 0x6a, 0xd5, 0x30, 0x36, 0xa5, 0x38, 0xbf, 0x40, 0xa3, 0x9e, 0x81, 0xf3, 0xd7, 0xfb],
   [0x7c, 0xe3, 0x39, 0x82, 0x9b, 0x2f, 0xff, 0x87, 0x34, 0x8e, 0x43, 0x44, 0xc4, 0xde, 0xe9, 0xcb],
   [0x54, 0x7b, 0x94, 0x32, 0xa6, 0xc2, 0x23, 0x3d, 0xee, 0x4c, 0x95, 0x0b, 0x42, 0xfa, 0xc3, 0x4e],
   [0x08, 0x2e, 0xa1, 0x66, 0x28, 0xd9, 0x24, 0xb2, 0x76, 0x5b, 0xa2, 0x49, 0x6d, 0x8b, 0xd1, 0x25],
   [0x72, 0xf8, 0xf6, 0x64, 0x86, 0x68, 0x98, 0x16, 0xd4, 0xa4, 0x5c, 0xcc, 0x5d, 0x65, 0xb6, 0x92],
   [0x6c, 0x70, 0x48, 0x50, 0xfd, 0xed, 0xb9, 0xda, 0x5e, 0x15, 0x46, 0x57, 0xa7, 0x8d, 0x9d, 0x84],
   [0x90, 0xd8, 0xab, 0x00, 0x8c, 0xbc, 0xd3, 0x0a, 0xf7, 0xe4, 0x58, 0x05, 0xb8, 0xb3, 0x45, 0x06],
   [0xd0, 0x2c, 0x1e, 0x8f, 0xca, 0x3f, 0x0f, 0x02, 0xc1, 0xaf, 0xbd, 0x03, 0x01, 0x13, 0x8a, 0x6b],
   [0x3a, 0x91, 0x11, 0x41, 0x4f, 0x67, 0xdc, 0xea, 0x97, 0xf2, 0xcf, 0xce, 0xf0, 0xb4, 0xe6, 0x73],
   [0x96, 0xac, 0x74, 0x22, 0xe7, 0xad, 0x35, 0x85, 0xe2, 0xf9, 0x37, 0xe8, 0x1c, 0x75, 0xdf, 0x6e],
   [0x47, 0xf1, 0x1a, 0x71, 0x1d, 0x29, 0xc5, 0x89, 0x6f, 0xb7, 0x62, 0x0e, 0xaa, 0x18, 0xbe, 0x1b],
   [0xfc, 0x56, 0x3e, 0x4b, 0xc6, 0xd2, 0x79, 0x20, 0x9a, 0xdb, 0xc0, 0xfe, 0x78, 0xcd, 0x5a, 0xf4],
   [0x1f, 0xdd, 0xa8, 0x33, 0x88, 0x07, 0xc7, 0x31, 0xb1, 0x12, 0x10, 0x59, 0x27, 0x80, 0xec, 0x5f],
   [0x60, 0x51, 0x7f, 0xa9, 0x19, 0xb5, 0x4a, 0x0d, 0x2d, 0xe5, 0x7a, 0x9f, 0x93, 0xc9, 0x9c, 0xef],
   [0xa0, 0xe0, 0x3b, 0x4d, 0xae, 0x2a, 0xf5, 0xb0, 0xc8, 0xeb, 0xbb, 0x3c, 0x83, 0x53, 0x99, 0x61],
   [0x17, 0x2b, 0x04, 0x7e, 0xba, 0x77, 0xd6, 0x26, 0xe1, 0x69, 0x14, 0x63, 0x55, 0x21, 0x0c, 0x7d]]

/-- The entry of a 16 by 16 table at row high nibble, column low nibble (R142). -/
def tableEntry (t : List (List Byte)) (a : Byte) : Byte :=
  (t.getD (a.toNat / 16) []).getD (a.toNat % 16) 0

/-- The S-box S (R142). -/
def sbox (a : Byte) : Byte := tableEntry sboxTable a

/-- The inverse S-box (R143). -/
def invSbox (a : Byte) : Byte := tableEntry invSboxTable a

/-- A byte map applied to each byte of a column. -/
def mapCol (f : Byte → Byte) (x : Col) : Col := ⟨f x.b0, f x.b1, f x.b2, f x.b3⟩

/-- A column map applied to each column of a block. -/
def mapBlock (f : Col → Col) (x : Block) : Block := ⟨f x.c0, f x.c1, f x.c2, f x.c3⟩

/-- SubBytes (R144). -/
def subBytes (s : Block) : Block := mapBlock (mapCol sbox) s

/-- InvSubBytes (R144). -/
def invSubBytes (s : Block) : Block := mapBlock (mapCol invSbox) s

/-- ShiftRows: `s'[r][c] = s[r][(c + r) mod 4]` (R145). -/
def shiftRows (s : Block) : Block :=
  ⟨⟨s.c0.b0, s.c1.b1, s.c2.b2, s.c3.b3⟩,
   ⟨s.c1.b0, s.c2.b1, s.c3.b2, s.c0.b3⟩,
   ⟨s.c2.b0, s.c3.b1, s.c0.b2, s.c1.b3⟩,
   ⟨s.c3.b0, s.c0.b1, s.c1.b2, s.c2.b3⟩⟩

/-- InvShiftRows: `s'[r][c] = s[r][(c - r) mod 4]` (R145). -/
def invShiftRows (s : Block) : Block :=
  ⟨⟨s.c0.b0, s.c3.b1, s.c2.b2, s.c1.b3⟩,
   ⟨s.c1.b0, s.c0.b1, s.c3.b2, s.c2.b3⟩,
   ⟨s.c2.b0, s.c1.b1, s.c0.b2, s.c3.b3⟩,
   ⟨s.c3.b0, s.c2.b1, s.c1.b2, s.c0.b3⟩⟩

/-- MixColumns on one column (R146). -/
def mixCol (a : Col) : Col :=
  ⟨gmul 2 a.b0 ^^^ gmul 3 a.b1 ^^^ a.b2 ^^^ a.b3,
   a.b0 ^^^ gmul 2 a.b1 ^^^ gmul 3 a.b2 ^^^ a.b3,
   a.b0 ^^^ a.b1 ^^^ gmul 2 a.b2 ^^^ gmul 3 a.b3,
   gmul 3 a.b0 ^^^ a.b1 ^^^ a.b2 ^^^ gmul 2 a.b3⟩

/-- InvMixColumns on one column: the matrix rows (0E 0B 0D 09) and their rotations (R146). -/
def invMixCol (a : Col) : Col :=
  ⟨gmul 0x0E a.b0 ^^^ gmul 0x0B a.b1 ^^^ gmul 0x0D a.b2 ^^^ gmul 0x09 a.b3,
   gmul 0x09 a.b0 ^^^ gmul 0x0E a.b1 ^^^ gmul 0x0B a.b2 ^^^ gmul 0x0D a.b3,
   gmul 0x0D a.b0 ^^^ gmul 0x09 a.b1 ^^^ gmul 0x0E a.b2 ^^^ gmul 0x0B a.b3,
   gmul 0x0B a.b0 ^^^ gmul 0x0D a.b1 ^^^ gmul 0x09 a.b2 ^^^ gmul 0x0E a.b3⟩

/-- MixColumns (R146). -/
def mixColumns (s : Block) : Block := mapBlock mixCol s

/-- InvMixColumns (R146). -/
def invMixColumns (s : Block) : Block := mapBlock invMixCol s

/-- AddRoundKey: XOR with the round key (R147). -/
def addRoundKey (k s : Block) : Block := s.xor k

/-- `RotWord(a0,a1,a2,a3) = (a1,a2,a3,a0)` (R148). -/
def rotWord (a : Col) : Col := ⟨a.b1, a.b2, a.b3, a.b0⟩

/-- SubWord: S on each byte (R148). -/
def subWord (a : Col) : Col := mapCol sbox a

/-- The words `w[4r+4..4r+8)` of the key expansion from `w[4r..4r+4)`, with `rc = Rcon[r+1]` (R148). -/
def nextRoundKey (rc : Byte) (k : Block) : Block :=
  let w4 := k.c0.xor ((subWord (rotWord k.c3)).xor ⟨rc, 0, 0, 0⟩)
  let w5 := k.c1.xor w4
  let w6 := k.c2.xor w5
  let w7 := k.c3.xor w6
  ⟨w4, w5, w6, w7⟩

/-- `Rcon[1..10]` (R148). -/
def rcons : List Byte := [0x01, 0x02, 0x04, 0x08, 0x10, 0x20, 0x40, 0x80, 0x1b, 0x36]

/-- The round keys that follow the round key `k`, one for each round constant. -/
def laterRoundKeys : List Byte → Block → List Block
  | [], _ => []
  | rc :: rcs, k => nextRoundKey rc k :: laterRoundKeys rcs (nextRoundKey rc k)

/-- `rk[1..10]` of the key `K`; `rk[0]` is `K` itself (R148). -/
def roundKeys (K : Block) : List Block := laterRoundKeys rcons K

/-- The rounds that use the round keys `rks` in order: a round without MixColumns for the last key, a
full round for each key before it (R149). -/
def encRounds : List Block → Block → Block
  | [], s => s
  | [k], s => addRoundKey k (shiftRows (subBytes s))
  | k :: ks, s => encRounds ks (addRoundKey k (mixColumns (shiftRows (subBytes s))))

/-- `AES_Enc(K, B)`, the FIPS-197 Cipher with 10 rounds (R149). -/
def aesEnc (K B : Block) : Block := encRounds (roundKeys K) (addRoundKey K B)

/-- The inverse rounds on the round keys `rks` in the order they are used, ending with `k0`: a full
inverse round for each of `rks`, then the last one, without InvMixColumns (R150). -/
def decRounds (k0 : Block) : List Block → Block → Block
  | [], s => addRoundKey k0 (invSubBytes (invShiftRows s))
  | k :: ks, s => decRounds k0 ks (invMixColumns (addRoundKey k (invSubBytes (invShiftRows s))))

/-- `AES_Dec(K, B)`, the FIPS-197 InvCipher: it starts with `rk[10]` and goes down to `rk[0] = K` (R150). -/
def aesDec (K B : Block) : Block :=
  match (roundKeys K).reverse with
  | [] => B
  | k10 :: ks => decRounds K ks (addRoundKey k10 B)

end Sys2Proof.Machine
end

