-- ==== Sys2Proof/Machine/State.lean ====
section
/-! DEFINITION. The state of the frame engine as plain data: every register, flag and buffer of
10_state.md, the pending command of R57, the parameters, and the model's own fields (the host's
accesses still to come, the last word read, the counters of the free draws). Reset is rule R60. -/

namespace Sys2Proof.Machine

/-- The values of STATUS.ERRCODE that are ever produced (R250). -/
inductive ErrCode where
  | none
  | sizeMismatch
  | paddingError
  | blockAlignmentError
  | tamperDetected
  | frameTooShort
  | illegalCommand
  | keyNotLocked
  | lengthError
deriving DecidableEq, Repr

/-- The values of STATUS.RX_REJECT that are ever produced (R43). -/
inductive RxReject where
  | none
  | frameTooShort
  | tamperDetected
  | decryptionFailed
  | sizeMismatch
deriving DecidableEq, Repr

/-- The three data buffers (R55). -/
inductive Buf where
  | pt
  | ct
  | fr
deriving DecidableEq, Repr

/-- What the host does on one clock. `width` is in bytes and `off` is an offset in the block's window
(R12, R80). `reset` is the reset input (R280). -/
inductive BusOp where
  /-- A clock on which the host makes no access. -/
  | idle
  /-- A clock on which the reset input is asserted. -/
  | reset
  /-- `MemRead(off, width)`. -/
  | read (width : Nat) (off : Offset)
  /-- `MemWrite(off, width, v)`. -/
  | write (width : Nat) (off : Offset) (v : Word)
deriving DecidableEq, Repr

/-- The bytes of the three buffers, keyed by their offset in the window (R86). `cells` lists the bytes
written since the last reset, addresses strictly rising; a byte not listed holds the free byte that
the reset number `epoch` drew for it (R60, R281; log 4, log 16). -/
structure Memory where
  epoch : Nat
  cells : List Host.Cell
deriving DecidableEq, Repr

/-- The inputs of a command: CTRL.LOCK and every register and buffer byte a command can read (R120). -/
structure Inputs where
  lock : Bool
  key : Quad
  iv : Quad
  rd : Quad
  tag : Quad
  ptLen : Word
  ctLen : Word
  frLen : Word
  mem : Memory
deriving DecidableEq, Repr

/-- The pending command (R57): the accepted command word and the snapshot taken at acceptance. `left`
counts the clocks still to pass before the clock of completion (R286), and `rxSeen` how far along its
path a running RECEIVE has been seen (R241). -/
structure Pending where
  word : Word
  snap : Inputs
  left : Nat
  rxSeen : Nat
deriving DecidableEq, Repr

/-- No step of the block faults: it has no trap mechanism, and every error is a record in STATUS
(R260). So there is no reason to fault, and this is the safe side: nothing can be claimed of a fault. -/
inductive Fault where
deriving DecidableEq, Repr

/-- Why the model gives a step no next state. -/
inductive Refusal where
  /-- Raised by `exec`'s arm of a command that has no meaning yet. No arm raises it: all ten commands
  have their meaning. Safe: nothing can be claimed past a refusal. -/
  | notModelled (mnemonic : String)
  /-- Raised by a host access that is not four bytes wide at an offset that is a multiple of 4 (R83).
  "A model refuses the access (it has no step)" (R85). Safe: nothing can be claimed past it (log 3). -/
  | busError
deriving DecidableEq, Repr

/-- The state. The fields from `cfg` on are, in order: the parameters (R7); CTRL (R33); STATUS (R38),
whose BUSY is `pending` being some command; EVENTS (R44); the data registers (R47 to R53); the
buffers (R55); the pending command (R57); and the model's own fields (log 2, log 5, log 17). -/
structure State where
  cfg : Params
  lock : Bool
  ie : Bool
  err : Bool
  verifyOk : Bool
  errCode : ErrCode
  rxState : RxState
  rxReject : RxReject
  done : Bool
  txValid : Bool
  overrun : Bool
  key : Quad
  iv : Quad
  rd : Quad
  ptLen : Word
  ctLen : Word
  frLen : Word
  tag : Quad
  mem : Memory
  pending : Option Pending
  bus : List BusOp
  readData : Option Word
  draws : Nat
deriving DecidableEq, Repr

/-- What a step answers. -/
abbrev Result := Host.Outcome State Fault Refusal

/-- The block right after its reset number `epoch`, built with the parameters `cfg` (R60). The host's
accesses to come and the draw counter belong to the model, and a reset does not touch them (log 20). -/
def State.afterReset (cfg : Params) (epoch : Nat) (bus : List BusOp) (draws : Nat) : State :=
  { cfg := cfg
    lock := false
    ie := false
    err := false
    verifyOk := false
    errCode := .none
    rxState := .awaitingFrame
    rxReject := .none
    done := false
    txValid := false
    overrun := false
    key := .zero
    iv := .zero
    rd := .zero
    ptLen := 0
    ctLen := 0
    frLen := 0
    tag := .zero
    mem := { epoch := epoch, cells := [] }
    pending := none
    bus := bus
    readData := none
    draws := draws }

/-- The machine after power-on reset (R60, R280), with the default parameters (R7; log 1) and no host
access to come (log 12). -/
def State.reset : State := .afterReset .default 0 [] 0

end Sys2Proof.Machine
end

