-- ==== Sys2Proof/Machine/Flags.lean ====
section
/-! DEFINITION. The flags and the control registers: the field codes of STATUS, the words CTRL, STATUS
and EVENTS read as (R33, R38, R44), what a host write of CTRL and EVENTS does, and the interrupt
output (R257). The block has no arithmetic condition codes (R62). -/

namespace Sys2Proof.Machine

/-- The encoding of STATUS.ERRCODE (R250). -/
def errCodeBits : ErrCode → BitVec 4
  | .none => 0
  | .sizeMismatch => 1
  | .paddingError => 2
  | .blockAlignmentError => 3
  | .tamperDetected => 4
  | .frameTooShort => 5
  | .illegalCommand => 6
  | .keyNotLocked => 7
  | .lengthError => 8

/-- The encoding of STATUS.RX_STATE (R42). -/
def rxStateBits : RxState → BitVec 3
  | .awaitingFrame => 0
  | .verifying => 1
  | .decrypting => 2
  | .validating => 3
  | .delivered => 4
  | .rejected => 5

/-- The encoding of STATUS.RX_REJECT (R43). -/
def rxRejectBits : RxReject → BitVec 3
  | .none => 0
  | .frameTooShort => 1
  | .tamperDetected => 2
  | .decryptionFailed => 3
  | .sizeMismatch => 4

/-- The reject category with code `n`, counted modulo the five that are ever produced (R43). -/
def rxRejectOf (n : Nat) : RxReject :=
  match n % 5 with
  | 0 => .none
  | 1 => .frameTooShort
  | 2 => .tamperDetected
  | 3 => .decryptionFailed
  | _ => .sizeMismatch

/-- STATUS.BUSY: a command is pending (R39, R57). -/
def State.busy (s : State) : Bool := s.pending.isSome

/-- The word STATUS with the given fields; bits 3, 11 and 31..15 are reserved and read 0 (R38). -/
def packStatus (busy err verifyOk : Bool) (code : ErrCode) (rx : RxState) (rej : RxReject) : Word :=
  0#17 ++ rxRejectBits rej ++ 0#1 ++ rxStateBits rx ++ errCodeBits code ++ 0#1
    ++ BitVec.ofBool verifyOk ++ BitVec.ofBool err ++ BitVec.ofBool busy

/-- The held value of STATUS (R38). -/
def State.statusWord (s : State) : Word :=
  packStatus s.busy s.err s.verifyOk s.errCode s.rxState s.rxReject

/-- The word EVENTS with the given fields; bits 31..3 are reserved and read 0 (R44). -/
def packEvents (done txValid overrun : Bool) : Word :=
  0#29 ++ BitVec.ofBool overrun ++ BitVec.ofBool txValid ++ BitVec.ofBool done

/-- The held value of EVENTS (R44). -/
def State.eventsWord (s : State) : Word := packEvents s.done s.txValid s.overrun

/-- The value of CTRL; bits 31..2 are reserved and read 0 (R33). -/
def State.ctrlWord (s : State) : Word := 0#30 ++ BitVec.ofBool s.ie ++ BitVec.ofBool s.lock

/-- The interrupt output, `irq = CTRL.IE ∧ EVENTS.DONE` (R257). -/
def State.irq (s : State) : Bool := s.ie && s.done

/-- A host write of CTRL: LOCK is write-1-to-set, IE takes bit 1 (R33, R34, R36). -/
def State.writeCtrl (v : Word) (s : State) : State :=
  { s with lock := s.lock || v.getLsbD 0, ie := v.getLsbD 1 }

/-- A host write of EVENTS clears each field whose bit is 1 (R44). -/
def State.ackEvents (v : Word) (s : State) : State :=
  { s with
    done := s.done && !v.getLsbD 0
    txValid := s.txValid && !v.getLsbD 1
    overrun := s.overrun && !v.getLsbD 2 }

/-- A host write dropped because BUSY = 1 sets EVENTS.OVERRUN (R56). -/
def State.dropWrite (s : State) : State := { s with overrun := true }

end Sys2Proof.Machine
end

