-- ==== Sys2Proof/Machine/Ops.lean ====
section
/-! DEFINITION. The named operations over memory and registers: byte reads and writes of the buffers
(R55, R86), the four registers of a group, how a command ends (`complete()` and `raise Fail(code)`,
R12, R255), the record an illegal word leaves (R252), and the reset input (R280). The block takes no
trap (R260): `raiseFail` is its one way of reporting an error, and nothing returns from it (R261). -/

namespace Sys2Proof.Machine

/-- The byte listed for address `a`, if there is one. -/
def lookupCell : List Host.Cell → Nat → Option Byte
  | [], _ => none
  | (b, v) :: rest, a => if a = b then some v else lookupCell rest a

/-- Lists the byte `v` for address `a`, in the place that keeps the addresses rising. -/
def insertCell (a : Nat) (v : Byte) : List Host.Cell → List Host.Cell
  | [] => [(a, v)]
  | (b, w) :: rest =>
    if a < b then (a, v) :: (b, w) :: rest
    else if a = b then (a, v) :: rest
    else (b, w) :: insertCell a v rest

/-- What an address reads as that no write has listed since reset number `epoch`: the byte that reset
drew (R281; log 4). -/
def unlistedByte (epoch a : Nat) : Byte := Config.resetByte epoch a

/-- The byte at address `a`. -/
def Memory.read (m : Memory) (a : Nat) : Byte :=
  match lookupCell m.cells a with
  | some v => v
  | none => unlistedByte m.epoch a

/-- Stores the byte `v` at address `a`. -/
def Memory.write (m : Memory) (a : Nat) (v : Byte) : Memory :=
  { m with cells := insertCell a v m.cells }

/-- The `n` bytes from address `a` on. -/
def Memory.readBytes (m : Memory) (a : Nat) : Nat → Bytes
  | 0 => []
  | n + 1 => m.read a :: m.readBytes (a + 1) n

/-- Stores the byte string `bs` from address `a` on. -/
def Memory.writeBytes (m : Memory) (a : Nat) : Bytes → Memory
  | [] => m
  | v :: vs => (m.write a v).writeBytes (a + 1) vs

/-- The addresses of the list rise strictly, each above `lo`. -/
def risingFrom (lo : Nat) : List Host.Cell → Bool
  | [] => true
  | (a, _) :: rest => lo ≤ a && risingFrom (a + 1) rest

/-- The canonical form of memory: strictly rising addresses, each in a buffer window (log 16). -/
def Memory.wf (m : Memory) : Bool := risingFrom 0x100 m.cells && m.cells.all (fun c => c.1 < 0x400)

/-- The window offset of byte 0 of a buffer (R86). -/
def bufBase : Buf → Nat
  | .pt => 0x100
  | .ct => 0x200
  | .fr => 0x300

/-- The bytes `B[0..n)` of a buffer (R10, R55). -/
def Memory.bufBytes (m : Memory) (b : Buf) (n : Nat) : Bytes := m.readBytes (bufBase b) n

/-- `B[0..len(bs)) <- bs`: the bytes past them are unchanged (R55). -/
def State.storeBuf (b : Buf) (bs : Bytes) (s : State) : State :=
  { s with mem := s.mem.writeBytes (bufBase b) bs }

/-- Register `n` of a group of four. -/
def quadGet (q : Quad) (n : Fin 4) : Word :=
  match n with
  | 0 => q.w0
  | 1 => q.w1
  | 2 => q.w2
  | 3 => q.w3

/-- A write of register `n` of a group of four. -/
def quadSet (q : Quad) (n : Fin 4) (v : Word) : Quad :=
  match n with
  | 0 => { q with w0 := v }
  | 1 => { q with w1 := v }
  | 2 => { q with w2 := v }
  | 3 => { q with w3 := v }

/-- `REG(PT_LEN) <- v` (R52). -/
def State.setPtLen (v : Word) (s : State) : State := { s with ptLen := v }

/-- `REG(CT_LEN) <- v` (R52). -/
def State.setCtLen (v : Word) (s : State) : State := { s with ctLen := v }

/-- `REG(FR_LEN) <- v`, as a command writes it (R52). -/
def State.setFrLen (v : Word) (s : State) : State := { s with frLen := v }

/-- `REG(EVENTS).TX_VALID <- b` (R46). -/
def State.setTxValid (b : Bool) (s : State) : State := { s with txValid := b }

/-- `REG(STATUS).VERIFY_OK <- b` (R41). -/
def State.setVerifyOk (b : Bool) (s : State) : State := { s with verifyOk := b }

/-- The Receiver's state and reject category (R42, R43). -/
def State.setReceiver (st : RxState) (cat : RxReject) (s : State) : State :=
  { s with rxState := st, rxReject := cat }

/-- `complete()`: the running command ends successfully (R12, R39, R40, R45). -/
def State.complete (s : State) : State :=
  { s with pending := none, err := false, errCode := .none, done := true }

/-- `raise Fail(code)`: the running command ends as failed (R12, R255). -/
def State.raiseFail (code : ErrCode) (s : State) : State :=
  { s with pending := none, err := true, errCode := code, done := true }

/-- What an illegal command word leaves (R252). -/
def State.recordIllegal (s : State) : State :=
  { s with err := true, errCode := .illegalCommand, done := true }

/-- `reject(cat, code)` of R233: the Receiver ends in Rejected and the command fails. -/
def State.rejectFrame (cat : RxReject) (code : ErrCode) (s : State) : State :=
  (s.setReceiver .rejected cat).raiseFail code

/-- The clears made at the acceptance of RECEIVE: RX_STATE to AwaitingFrame, RX_REJECT to None and
VERIFY_OK to 0 (R227, R286). -/
def State.clearReceiver (s : State) : State :=
  (s.setReceiver .awaitingFrame .none).setVerifyOk false

/-- The end of a command whose data is `r`: on a value its writes are applied and it completes, on an
error it fails with that code and writes nothing else (R13, R255). -/
def settle {α : Type} (r : Except ErrCode α) (commit : α → State → State) (s : State) : Result :=
  match r with
  | .ok a => .next (commit a s).complete
  | .error e => .next (s.raiseFail e)

/-- The reset input: every piece of state takes its reset value and a command in flight is abandoned
(R280, R282). The parameters are the block's own and stay; the next reset number draws new buffer
bytes (log 20). -/
def State.resetInput (rest : List BusOp) (s : State) : State :=
  .afterReset s.cfg (s.mem.epoch + 1) rest s.draws

end Sys2Proof.Machine
end

