-- ==== Sys2Proof/Machine/Operands.lean ====
section
/-! DEFINITION. The implicit operands of the commands (R112, R120) and the byte layouts they use:
le32 and be32 (R10), how four registers hold a 16-byte string (R84, R87), and the inputs a command
runs on, which are the snapshot taken at its acceptance (R286). -/

namespace Sys2Proof.Machine

/-- `le32(w)` (R10). -/
def le32 (w : Word) : Col :=
  ⟨w.extractLsb' 0 8, w.extractLsb' 8 8, w.extractLsb' 16 8, w.extractLsb' 24 8⟩

/-- `be32(w)` (R10). -/
def be32 (w : Word) : Col :=
  ⟨w.extractLsb' 24 8, w.extractLsb' 16 8, w.extractLsb' 8 8, w.extractLsb' 0 8⟩

/-- `from_le32(s)` (R10). -/
def fromLe32 (x : Col) : Word := x.b3 ++ x.b2 ++ x.b1 ++ x.b0

/-- `from_be32(s)` (R10). -/
def fromBe32 (x : Col) : Word := x.b0 ++ x.b1 ++ x.b2 ++ x.b3

/-- The four bytes of a column as a byte string. -/
def colBytes (x : Col) : Bytes := [x.b0, x.b1, x.b2, x.b3]

/-- The sixteen bytes of a block as a byte string (R140). -/
def blockBytes (x : Block) : Bytes := colBytes x.c0 ++ colBytes x.c1 ++ colBytes x.c2 ++ colBytes x.c3

/-- The first four bytes of a string, as a column. It is used on strings of at least four bytes only;
a missing byte counts as zero. -/
def colOf (s : Bytes) : Col := ⟨s.getD 0 0, s.getD 1 0, s.getD 2 0, s.getD 3 0⟩

/-- The first sixteen bytes of a string, as a block (R140). It is used on strings of at least sixteen
bytes only; a missing byte counts as zero (log 24). -/
def blockOf (s : Bytes) : Block :=
  ⟨colOf s, colOf (s.drop 4), colOf (s.drop 8), colOf (s.drop 12)⟩

/-- The 16-byte string four registers hold: `le32(w0) ‖ le32(w1) ‖ le32(w2) ‖ le32(w3)` (R87). -/
def quadBlock (q : Quad) : Block := ⟨le32 q.w0, le32 q.w1, le32 q.w2, le32 q.w3⟩

/-- The registers that hold a 16-byte string: `REG(j) <- from_le32(T[4j..4j+4))` (R87, R195). -/
def blockQuad (x : Block) : Quad := ⟨fromLe32 x.c0, fromLe32 x.c1, fromLe32 x.c2, fromLe32 x.c3⟩

/-- The inputs a command accepted now would be given: the live registers, buffers and LOCK (R286). -/
def State.liveInputs (s : State) : Inputs :=
  { lock := s.lock, key := s.key, iv := s.iv, rd := s.rd, tag := s.tag,
    ptLen := s.ptLen, ctLen := s.ctLen, frLen := s.frLen, mem := s.mem }

/-- The inputs the running command works on: the snapshot taken at its acceptance (R57, R286). With no
command pending they are the live ones, which is what a snapshot taken now would hold (log 11). -/
def State.inputs (s : State) : Inputs :=
  match s.pending with
  | some p => p.snap
  | none => s.liveInputs

/-- `KEY` (R11, R47). -/
def Inputs.keyBlock (x : Inputs) : Block := quadBlock x.key

/-- `IV` (R11, R49). -/
def Inputs.ivBlock (x : Inputs) : Block := quadBlock x.iv

/-- `TAGV` (R11, R53). -/
def Inputs.tagBlock (x : Inputs) : Block := quadBlock x.tag

/-- `PT[0..PT_LEN)`. -/
def Inputs.plaintext (x : Inputs) : Bytes := x.mem.bufBytes .pt x.ptLen.toNat

/-- `CT[0..CT_LEN)`. -/
def Inputs.ciphertext (x : Inputs) : Bytes := x.mem.bufBytes .ct x.ctLen.toNat

/-- `FR[0..FR_LEN)`. -/
def Inputs.frame (x : Inputs) : Bytes := x.mem.bufBytes .fr x.frLen.toNat

/-- A length as the 32-bit value of a length register (R52). -/
def lenWord (n : Nat) : Word := BitVec.ofNat 32 n

/-- `PT[0..len(d)) <- d; REG(PT_LEN) <- len(d)`. -/
def State.storePlain (d : Bytes) (s : State) : State :=
  (s.storeBuf .pt d).setPtLen (lenWord d.length)

/-- `CT[0..len(c)) <- c; REG(CT_LEN) <- len(c)`. -/
def State.storeCipher (c : Bytes) (s : State) : State :=
  (s.storeBuf .ct c).setCtLen (lenWord c.length)

/-- `FR[0..len(f)) <- f; REG(FR_LEN) <- len(f)`. -/
def State.storeFrame (f : Bytes) (s : State) : State :=
  (s.storeBuf .fr f).setFrLen (lenWord f.length)

/-- `TAGV <- T`. -/
def State.storeTag (t : Block) (s : State) : State := { s with tag := blockQuad t }

/-- `(RD0, RD1, RD2, RD3) <- rd`. -/
def State.storeReading (rd : Quad) (s : State) : State := { s with rd := rd }

end Sys2Proof.Machine
end

