-- ==== Sys2Proof/Machine/Cipher.lean ====
section
/-! DEFINITION. The CipherEngine (43_cbc_pkcs7.md): PKCS7 padding (R170, R171), the CBC mode (R172,
R173), `encrypt` and `decrypt` (R174, R175), and the meanings of ENCRYPT (R176) and DECRYPT (R177). -/

namespace Sys2Proof.Machine

/-- The first `n` 16-byte blocks of a string. -/
def takeBlocks : Nat → Bytes → List Block
  | 0, _ => []
  | n + 1, s => blockOf s :: takeBlocks n (s.drop 16)

/-- A string of `16n` bytes as its `n` blocks (R172). -/
def toBlocks (s : Bytes) : List Block := takeBlocks (s.length / 16) s

/-- The string of a list of blocks. -/
def ofBlocks : List Block → Bytes
  | [] => []
  | x :: xs => blockBytes x ++ ofBlocks xs

/-- The pad length `16 - (n mod 16)` of a string of `n` bytes, from 1 to 16 (R170). -/
def padLength (n : Nat) : Nat := 16 - n % 16

/-- The length of a padded string, `16 * (n div 16 + 1)` (R170). -/
def paddedLength (n : Nat) : Nat := 16 * (n / 16 + 1)

/-- `pkcs7_pad(P)` (R170). -/
def pkcs7Pad (p : Bytes) : Bytes :=
  p ++ List.replicate (padLength p.length) (BitVec.ofNat 8 (padLength p.length))

/-- `pkcs7_unpad(D)`, used on non-empty strings of whole blocks (R171). -/
def pkcs7Unpad (d : Bytes) : Except ErrCode Bytes :=
  let last := d.getLastD 0
  let p := last.toNat
  if 1 ≤ p ∧ p ≤ 16 ∧ d.drop (d.length - p) = List.replicate p last then
    .ok (d.take (d.length - p))
  else .error .paddingError

/-- CBC encryption of a list of blocks after the block `c` (R172). -/
def cbcEncryptBlocks (K c : Block) : List Block → List Block
  | [] => []
  | x :: xs => aesEnc K (x.xor c) :: cbcEncryptBlocks K (aesEnc K (x.xor c)) xs

/-- CBC decryption of a list of blocks after the block `c` (R173). -/
def cbcDecryptBlocks (K c : Block) : List Block → List Block
  | [] => []
  | y :: ys => (aesDec K y).xor c :: cbcDecryptBlocks K y ys

/-- `cbc_encrypt_raw(K, IV, X)` (R172). -/
def cbcEncryptRaw (K iv : Block) (x : Bytes) : Bytes := ofBlocks (cbcEncryptBlocks K iv (toBlocks x))

/-- `cbc_decrypt_raw(K, IV, C)` (R173). -/
def cbcDecryptRaw (K iv : Block) (c : Bytes) : Bytes := ofBlocks (cbcDecryptBlocks K iv (toBlocks c))

/-- `encrypt(P, K, IV)` (R174). -/
def encryptString (p : Bytes) (K iv : Block) : Bytes := cbcEncryptRaw K iv (pkcs7Pad p)

/-- `decrypt(C, K, IV)`: the alignment check comes first, and an empty ciphertext has no valid padding (R175). -/
def decryptString (c : Bytes) (K iv : Block) : Except ErrCode Bytes :=
  if c.length % 16 ≠ 0 then .error .blockAlignmentError
  else if c.length = 0 then .error .paddingError
  else pkcs7Unpad (cbcDecryptRaw K iv c)

/-- What ENCRYPT computes, with its checks in order (R176). -/
def encryptResult (cfg : Params) (x : Inputs) : Except ErrCode Bytes :=
  if x.lock = false then .error .keyNotLocked
  else if cfg.bufCap < x.ptLen.toNat then .error .lengthError
  else if cfg.bufCap < paddedLength x.ptLen.toNat then .error .lengthError
  else .ok (encryptString x.plaintext x.keyBlock x.ivBlock)

/-- What DECRYPT computes, with its checks in order (R177). -/
def decryptResult (cfg : Params) (x : Inputs) : Except ErrCode Bytes :=
  if x.lock = false then .error .keyNotLocked
  else if cfg.bufCap < x.ctLen.toNat then .error .lengthError
  else decryptString x.ciphertext x.keyBlock x.ivBlock

/-- ENCRYPT (R176). -/
def execEncrypt (s : State) : Result :=
  settle (encryptResult s.cfg s.inputs) State.storeCipher s

/-- DECRYPT (R177). -/
def execDecrypt (s : State) : Result :=
  settle (decryptResult s.cfg s.inputs) State.storePlain s

end Sys2Proof.Machine
end

