-- ==== Sys2Proof/Machine/Cmac.lean ====
section
/-! DEFINITION. The IntegrityTag (44_cmac.md): CMAC-AES128 (R190 to R194), and the meanings of TAG_GEN
(R195) and TAG_VERIFY (R196). -/

namespace Sys2Proof.Machine

/-- A 16-byte string read as a 128-bit big-endian integer: byte 0 is the most significant (R190). -/
def blockBig (x : Block) : BitVec 128 :=
  fromBe32 x.c0 ++ fromBe32 x.c1 ++ fromBe32 x.c2 ++ fromBe32 x.c3

/-- The 16-byte string of a 128-bit big-endian integer (R190). -/
def bigBlock (v : BitVec 128) : Block :=
  ⟨be32 (v.extractLsb' 96 32), be32 (v.extractLsb' 64 32), be32 (v.extractLsb' 32 32),
   be32 (v.extractLsb' 0 32)⟩

/-- `dbl(X)`: doubling in GF(2^128) (R190). -/
def dbl (x : Block) : Block :=
  bigBlock ((blockBig x <<< 1) ^^^ (if (blockBig x).getLsbD 127 then 0x87 else 0))

/-- The subkey K1 (R191). -/
def subkey1 (K : Block) : Block := dbl (aesEnc K .zero)

/-- The subkey K2 (R191). -/
def subkey2 (K : Block) : Block := dbl (subkey1 K)

/-- The CBC-MAC chain from the zero block over whole blocks: `X = AES_Enc(K, X ⊕ M_i)` (R192). -/
def macChain (K : Block) (ms : List Block) : Block :=
  ms.foldl (fun x m => aesEnc K (x.xor m)) .zero

/-- The number of bytes before the last block of a message of `n` bytes: `16 (ceil(n / 16) - 1)`, and 0
for the empty message (R192). -/
def beforeLast (n : Nat) : Nat := 16 * ((n + 15) / 16 - 1)

/-- `M_last` from the last block `m`, which has 1 to 16 bytes, or none when the message is empty:
complete under K1, padded with 0x80 and zeros under K2 (R192). -/
def lastBlock (K : Block) (m : Bytes) : Block :=
  if m.length = 16 then (blockOf m).xor (subkey1 K)
  else (blockOf (m ++ 0x80 :: List.replicate (15 - m.length) 0)).xor (subkey2 K)

/-- `cmac(K, M)` (R192). -/
def cmac (K : Block) (m : Bytes) : Block :=
  aesEnc K ((macChain K (toBlocks (m.take (beforeLast m.length)))).xor
    (lastBlock K (m.drop (beforeLast m.length))))

/-- The OR of the XORs of all byte pairs: every pair is always examined (R193). -/
def pairDifference (a b : Bytes) : Byte := (List.zipWith (· ^^^ ·) a b).foldl (· ||| ·) 0

/-- `ct_equal(a, b)` (R193). -/
def ctEqual (a b : Block) : Bool := pairDifference (blockBytes a) (blockBytes b) == 0

/-- `verify(K, M, T)` (R194). -/
def verifyTag (K : Block) (m : Bytes) (t : Block) : Bool := ctEqual (cmac K m) t

/-- What TAG_GEN computes, with its checks in order (R195). -/
def tagGenResult (cfg : Params) (x : Inputs) : Except ErrCode Block :=
  if x.lock = false then .error .keyNotLocked
  else if cfg.bufCap < x.ctLen.toNat then .error .lengthError
  else .ok (cmac x.keyBlock x.ciphertext)

/-- What TAG_VERIFY computes: an error before the comparison, or the comparison's result (R196). -/
def tagVerifyResult (cfg : Params) (x : Inputs) : Except ErrCode Bool :=
  if x.lock = false then .error .keyNotLocked
  else if cfg.bufCap < x.ctLen.toNat then .error .lengthError
  else .ok (verifyTag x.keyBlock x.ciphertext x.tagBlock)

/-- TAG_GEN (R195). -/
def execTagGen (s : State) : Result :=
  settle (tagGenResult s.cfg s.inputs) State.storeTag s

/-- TAG_VERIFY (R196): VERIFY_OK is 0 from acceptance on (R41), then the comparison's result, and a
difference fails with TamperDetected. -/
def execTagVerify (s : State) : Result :=
  match tagVerifyResult s.cfg s.inputs with
  | .ok true => .next (s.setVerifyOk true).complete
  | .ok false => .next ((s.setVerifyOk false).raiseFail .tamperDetected)
  | .error e => .next ((s.setVerifyOk false).raiseFail e)

end Sys2Proof.Machine
end

