-- ==== Sys2Proof/Machine/Codec.lean ====
section
/-! DEFINITION. The ReadingCodec (41_reading_codec.md): the pure functions `encode` and `decode` of
R130 and R131, and the meanings of ENCODE (R132) and DECODE (R133). -/

namespace Sys2Proof.Machine

/-- `ord32(w)`: a word in the byte order READING_BYTE_ORDER (R130). -/
def ord32 (o : ByteOrder) (w : Word) : Col :=
  match o with
  | .le => le32 w
  | .be => be32 w

/-- `from_ord32(s)` (R131). -/
def fromOrd32 (o : ByteOrder) (x : Col) : Word :=
  match o with
  | .le => fromLe32 x
  | .be => fromBe32 x

/-- `encode(RD)`, always sixteen bytes (R130). -/
def encodeReading (o : ByteOrder) (rd : Quad) : Block :=
  ⟨ord32 o rd.w0, ord32 o rd.w1, ord32 o rd.w2, ord32 o rd.w3⟩

/-- `decode(s)` of a sixteen-byte string (R131). -/
def decodeBlock (o : ByteOrder) (x : Block) : Quad :=
  ⟨fromOrd32 o x.c0, fromOrd32 o x.c1, fromOrd32 o x.c2, fromOrd32 o x.c3⟩

/-- `decode(s)`: it fails with SizeMismatch exactly when the length is not 16 (R131). -/
def decodeReading (o : ByteOrder) (s : Bytes) : Except ErrCode Quad :=
  if s.length ≠ 16 then .error .sizeMismatch else .ok (decodeBlock o (blockOf s))

/-- What DECODE computes: it checks PT_LEN, then decodes `PT[0..16)` (R133). -/
def decodeResult (cfg : Params) (x : Inputs) : Except ErrCode Quad :=
  if x.ptLen ≠ 16#32 then .error .sizeMismatch
  else decodeReading cfg.order (x.mem.bufBytes .pt 16)

/-- ENCODE (R132). -/
def execEncode (s : State) : Result :=
  .next (s.storePlain (blockBytes (encodeReading s.cfg.order s.inputs.rd))).complete

/-- DECODE (R133). -/
def execDecode (s : State) : Result :=
  settle (decodeResult s.cfg s.inputs) State.storeReading s

end Sys2Proof.Machine
end

