-- ==== Sys2Proof/Machine/Frame.lean ====
section
/-! DEFINITION. The FrameCodec (45_frame_codec.md): `build` and `parse` (R210, R211), and the meanings
of FRAME_BUILD (R212) and FRAME_PARSE (R213). -/

namespace Sys2Proof.Machine

/-- `build(C, T) = C ‖ T` (R210). -/
def buildFrame (c : Bytes) (t : Block) : Bytes := c ++ blockBytes t

/-- `parse(F)`: the last 16 bytes are the tag (R211). -/
def parseFrame (f : Bytes) : Except ErrCode (Bytes × Block) :=
  if f.length < 16 then .error .frameTooShort
  else .ok (f.take (f.length - 16), blockOf (f.drop (f.length - 16)))

/-- What FRAME_BUILD computes, with its checks in order (R212). -/
def frameBuildResult (cfg : Params) (x : Inputs) : Except ErrCode Bytes :=
  if cfg.bufCap < x.ctLen.toNat then .error .lengthError
  else if cfg.bufCap < x.ctLen.toNat + 16 then .error .lengthError
  else .ok (buildFrame x.ciphertext x.tagBlock)

/-- What FRAME_PARSE computes, with its checks in order (R213). -/
def frameParseResult (cfg : Params) (x : Inputs) : Except ErrCode (Bytes × Block) :=
  if cfg.bufCap < x.frLen.toNat then .error .lengthError
  else parseFrame x.frame

/-- The writes of a parsed frame: `CT <- C; CT_LEN <- len(C); TAGV <- T` (R213, R228). -/
def State.storeParsed (r : Bytes × Block) (s : State) : State := (s.storeCipher r.1).storeTag r.2

/-- The writes of a built frame: `FR <- F; FR_LEN <- len(F); TX_VALID <- 0` (R212, R46). -/
def State.storeBuilt (f : Bytes) (s : State) : State := (s.storeFrame f).setTxValid false

/-- FRAME_BUILD (R212): it also clears TX_VALID. -/
def execFrameBuild (s : State) : Result :=
  settle (frameBuildResult s.cfg s.inputs) State.storeBuilt s

/-- FRAME_PARSE (R213). -/
def execFrameParse (s : State) : Result :=
  settle (frameParseResult s.cfg s.inputs) State.storeParsed s

end Sys2Proof.Machine
end

