-- ==== Sys2Proof/Machine/Transport.lean ====
section
/-! DEFINITION. The Sender and the Receiver (46_sender_receiver.md): the meanings of SEND (R221) and
RECEIVE (R233), and the path of Receiver states a RECEIVE takes (R226, R241). -/

namespace Sys2Proof.Machine

/-- What the four stages of the Sender make (R220). -/
structure SenderRun where
  plain : Bytes
  cipher : Bytes
  tag : Block
  frame : Bytes
deriving DecidableEq, Repr

/-- The stages encode, encrypt, tag and build, in this order, on the Reading in RD (R220, R221). -/
def senderRun (cfg : Params) (x : Inputs) : SenderRun :=
  let plain := blockBytes (encodeReading cfg.order x.rd)
  let cipher := encryptString plain x.keyBlock x.ivBlock
  let tag := cmac x.keyBlock cipher
  { plain := plain, cipher := cipher, tag := tag, frame := buildFrame cipher tag }

/-- What SEND computes: its only failure is KeyNotLocked, before stage 1 (R221, R222). -/
def sendResult (cfg : Params) (x : Inputs) : Except ErrCode SenderRun :=
  if x.lock = false then .error .keyNotLocked else .ok (senderRun cfg x)

/-- The writes of a successful SEND; stage 5 offers the frame to the transport (R221, R223). -/
def State.storeSent (r : SenderRun) (s : State) : State :=
  ((((s.storePlain r.plain).storeCipher r.cipher).storeTag r.tag).storeFrame r.frame).setTxValid true

/-- SEND (R221). -/
def execSend (s : State) : Result :=
  settle (sendResult s.cfg s.inputs) State.storeSent s

/-- How a RECEIVE ends, with what its stages made (R226, R233). -/
inductive RxOutcome where
  /-- KeyNotLocked or LengthError: the state machine stays in AwaitingFrame. -/
  | commandError (e : ErrCode)
  /-- Rejected(FrameTooShort), from AwaitingFrame (R228). -/
  | tooShort
  /-- Rejected(TamperDetected), from Verifying (R229). -/
  | tampered (c : Bytes) (t : Block)
  /-- Rejected(DecryptionFailed), from Decrypting, with the CipherEngine's own error (R230). -/
  | undecryptable (c : Bytes) (t : Block) (e : ErrCode)
  /-- Rejected(SizeMismatch), from Validating (R231). -/
  | badSize (c : Bytes) (t : Block) (d : Bytes)
  /-- Delivered (R231). -/
  | delivered (c : Bytes) (t : Block) (d : Bytes) (rd : Quad)
deriving DecidableEq, Repr

/-- The Validating stage on the decrypted bytes (R231). -/
def rxValidate (cfg : Params) (c : Bytes) (t : Block) (d : Bytes) : RxOutcome :=
  match decodeReading cfg.order d with
  | .error _ => .badSize c t d
  | .ok rd => .delivered c t d rd

/-- The Decrypting stage (R230). -/
def rxDecrypt (cfg : Params) (x : Inputs) (c : Bytes) (t : Block) : RxOutcome :=
  match decryptString c x.keyBlock x.ivBlock with
  | .error e => .undecryptable c t e
  | .ok d => rxValidate cfg c t d

/-- The Verifying stage (R229). -/
def rxVerify (cfg : Params) (x : Inputs) (c : Bytes) (t : Block) : RxOutcome :=
  if verifyTag x.keyBlock c t then rxDecrypt cfg x c t else .tampered c t

/-- The outcome of a RECEIVE on its inputs, stage after stage (R233). -/
def rxOutcome (cfg : Params) (x : Inputs) : RxOutcome :=
  if x.lock = false then .commandError .keyNotLocked
  else if cfg.bufCap < x.frLen.toNat then .commandError .lengthError
  else match parseFrame x.frame with
    | .error _ => .tooShort
    | .ok (c, t) => rxVerify cfg x c t

/-- The writes of a RECEIVE after its acceptance clears: those of the stages that completed, and the
end of the command (R233, R235, R255). -/
def State.applyRx (o : RxOutcome) (s : State) : State :=
  match o with
  | .commandError e => s.raiseFail e
  | .tooShort => s.rejectFrame .frameTooShort .frameTooShort
  | .tampered c t => (s.storeParsed (c, t)).rejectFrame .tamperDetected .tamperDetected
  | .undecryptable c t e =>
    ((s.storeParsed (c, t)).setVerifyOk true).rejectFrame .decryptionFailed e
  | .badSize c t d =>
    (((s.storeParsed (c, t)).setVerifyOk true).storePlain d).rejectFrame .sizeMismatch .sizeMismatch
  | .delivered c t d rd =>
    (((((s.storeParsed (c, t)).setVerifyOk true).storePlain d).storeReading rd).setReceiver
      .delivered .none).complete

/-- RECEIVE (R233): the clears of its acceptance (R227), then the outcome's writes. -/
def execReceive (s : State) : Result :=
  .next (s.clearReceiver.applyRx (rxOutcome s.cfg s.inputs))

/-- The Receiver states a RECEIVE passes through, its terminal state last (R226, R241). -/
def rxPath : RxOutcome → List RxState
  | .commandError _ => [.awaitingFrame]
  | .tooShort => [.awaitingFrame, .rejected]
  | .tampered _ _ => [.awaitingFrame, .verifying, .rejected]
  | .undecryptable _ _ _ => [.awaitingFrame, .verifying, .decrypting, .rejected]
  | .badSize _ _ _ => [.awaitingFrame, .verifying, .decrypting, .validating, .rejected]
  | .delivered _ _ _ _ => [.awaitingFrame, .verifying, .decrypting, .validating, .delivered]

/-- The stage that rejects the frame, if one does (R226, R292). -/
def rejectingStage : RxOutcome → Option RxState
  | .commandError _ => none
  | .tooShort => some .awaitingFrame
  | .tampered _ _ => some .verifying
  | .undecryptable _ _ _ => some .decrypting
  | .badSize _ _ _ => some .validating
  | .delivered _ _ _ _ => none

end Sys2Proof.Machine
end

