-- ==== Sys2Proof/Machine/Bus.lean ====
section
/-! DEFINITION. The host's side of the block: the address map of the window (R32), the acceptance of a
command (R286), host writes with BUSY = 0 and with BUSY = 1 (R288), host reads with BUSY = 0 and with
BUSY = 1 (R289), and one clock of the host (R92). -/

namespace Sys2Proof.Machine

/-- The offset in the window of the system address `addr`, for a platform that puts the window at
`base` (WINDOW_BASE, R80); no offset outside the window (log 19). -/
def windowOffset (base addr : Nat) : Option Offset :=
  if base ≤ addr ∧ addr < base + 4096 then some (BitVec.ofNat 12 (addr - base)) else none

/-- What stands at a word of the window (R32). -/
inductive Reg where
  | ctrl
  | cmd
  | status
  | events
  | key (n : Fin 4)
  | iv (n : Fin 4)
  | rd (n : Fin 4)
  | ptLen
  | ctLen
  | frLen
  | cap
  | tag (n : Fin 4)
  /-- Offsets 0x060 to 0x0FF. -/
  | reservedLow
  /-- The word of a buffer's window that holds its bytes `4k..4k+3` (R86). -/
  | window (b : Buf) (k : Fin 64)
  /-- Offsets 0x400 to 0xFFF. -/
  | reservedHigh
deriving DecidableEq, Repr

/-- The address map of R32, for an offset that is a multiple of 4. -/
def regOf (off : Offset) : Reg :=
  let o := off.toNat
  let n : Fin 4 := Fin.ofNat 4 (o / 4)
  let k : Fin 64 := Fin.ofNat 64 (o / 4)
  if o < 0x004 then .ctrl
  else if o < 0x008 then .cmd
  else if o < 0x00C then .status
  else if o < 0x010 then .events
  else if o < 0x020 then .key n
  else if o < 0x030 then .iv n
  else if o < 0x040 then .rd n
  else if o < 0x044 then .ptLen
  else if o < 0x048 then .ctLen
  else if o < 0x04C then .frLen
  else if o < 0x050 then .cap
  else if o < 0x060 then .tag n
  else if o < 0x100 then .reservedLow
  else if o < 0x200 then .window .pt k
  else if o < 0x300 then .window .ct k
  else if o < 0x400 then .window .fr k
  else .reservedHigh

/-- The word of a buffer's window that holds bytes `4k..4k+3`: little-endian, and zero at or past
BUF_CAP (R86). -/
def State.windowWord (s : State) (b : Buf) (k : Fin 64) : Word :=
  if s.cfg.bufCap ≤ 4 * k.val then 0#32
  else fromLe32 (colOf (s.mem.readBytes (bufBase b + 4 * k.val) 4))

/-- A write of that word: `B[4k..4k+4) <- le32(v)`, ignored at or past BUF_CAP (R86). A write that
reaches FR clears TX_VALID (R46; log 14). -/
def State.writeWindow (b : Buf) (k : Fin 64) (v : Word) (s : State) : State :=
  if s.cfg.bufCap ≤ 4 * k.val then s
  else
    { s with
      mem := s.mem.writeBytes (bufBase b + 4 * k.val) (colBytes (le32 v))
      txValid := s.txValid && b != .fr }

/-- The value held at a word of the window, as a read gives it with BUSY = 0 (R32). CMD, the key and
reserved words read zero (R37, R47, R61); CAP reads BUF_CAP (R54). -/
def State.heldWord (s : State) (r : Reg) : Word :=
  match r with
  | .ctrl => s.ctrlWord
  | .cmd => 0#32
  | .status => s.statusWord
  | .events => s.eventsWord
  | .key _ => 0#32
  | .iv n => quadGet s.iv n
  | .rd n => quadGet s.rd n
  | .ptLen => s.ptLen
  | .ctLen => s.ctLen
  | .frLen => s.frLen
  | .cap => lenWord s.cfg.bufCap
  | .tag n => quadGet s.tag n
  | .reservedLow => 0#32
  | .window b k => s.windowWord b k
  | .reservedHigh => 0#32

/-- The length registers a command reads (R120). -/
def lensRead (i : Instr) (x : Inputs) : List Word :=
  match i with
  | .encode => []
  | .decode => [x.ptLen]
  | .encrypt => [x.ptLen]
  | .decrypt => [x.ctLen]
  | .tagGen => [x.ctLen]
  | .tagVerify => [x.ctLen]
  | .frameBuild => [x.ctLen]
  | .frameParse => [x.frLen]
  | .send => []
  | .receive => [x.frLen]

/-- What the latency of a command depends on: its opcode, the lengths it reads, and for RECEIVE the
stage that rejects the frame (R292; log 8). -/
def latKeyOf (i : Instr) (cfg : Params) (x : Inputs) : LatKey :=
  { op := i
    lens := lensRead i x
    stage := if i = .receive then rejectingStage (rxOutcome cfg x) else none }

/-- The clocks beyond the first that a command takes to complete, so that LAT is this number plus one
(R286: LAT(op) ≥ 1). -/
def extraClocks (i : Instr) (cfg : Params) (x : Inputs) : Nat :=
  match cfg.lat.lookup (latKeyOf i cfg x) with
  | some n => n
  | none => 0

/-- The clears a command's own rule makes at acceptance: VERIFY_OK for TAG_VERIFY and RECEIVE, RX_STATE
and RX_REJECT for RECEIVE (R286). -/
def State.acceptClears (i : Instr) (s : State) : State :=
  match i with
  | .encode => s
  | .decode => s
  | .encrypt => s
  | .decrypt => s
  | .tagGen => s
  | .tagVerify => s.setVerifyOk false
  | .frameBuild => s
  | .frameParse => s
  | .send => s
  | .receive => s.clearReceiver

/-- The pending command that the acceptance of word `w`, command `i`, makes: the word and the snapshot
of its inputs (R286). -/
def State.pendingOf (w : Word) (i : Instr) (s : State) : Pending :=
  { word := w, snap := s.liveInputs, left := extraClocks i s.cfg s.liveInputs, rxSeen := 0 }

/-- What the acceptance of every legal word writes: BUSY, ERR, ERRCODE and DONE, with the pending
command (R286). -/
def State.startRunning (p : Pending) (s : State) : State :=
  { s with pending := some p, err := false, errCode := .none, done := false }

/-- Acceptance of a legal word (R286). -/
def State.accept (w : Word) (i : Instr) (s : State) : State :=
  (s.acceptClears i).startRunning (s.pendingOf w i)

/-- A host write of CMD with BUSY = 0: a legal word is accepted, an illegal one recorded (R37, R111, R114). -/
def State.issue (w : Word) (s : State) : State :=
  match decode w with
  | .ok i => s.accept w i
  | .error _ => s.recordIllegal

/-- A host write with BUSY = 0 (R32). Writes of STATUS, CAP and reserved words are ignored (R38, R54,
R61); a locked key or IV is left as it is (R34, R48); a write of FR_LEN clears TX_VALID (R46). -/
def State.writeIdle (r : Reg) (v : Word) (s : State) : State :=
  match r with
  | .ctrl => s.writeCtrl v
  | .cmd => s.issue v
  | .status => s
  | .events => s.ackEvents v
  | .key n => if s.lock then s else { s with key := quadSet s.key n v }
  | .iv n => if s.lock then s else { s with iv := quadSet s.iv n v }
  | .rd n => { s with rd := quadSet s.rd n v }
  | .ptLen => { s with ptLen := v }
  | .ctLen => { s with ctLen := v }
  | .frLen => { s with frLen := v, txValid := false }
  | .cap => s
  | .tag n => { s with tag := quadSet s.tag n v }
  | .reservedLow => s
  | .window b k => s.writeWindow b k v
  | .reservedHigh => s

/-- A host write with BUSY = 1, by offset (R288). -/
def State.writeBusy (r : Reg) (v : Word) (s : State) : State :=
  match r with
  | .ctrl => s.writeCtrl v
  | .cmd => s.dropWrite
  | .status => s
  | .events => s.ackEvents v
  | .key _ => s.dropWrite
  | .iv _ => s.dropWrite
  | .rd _ => s.dropWrite
  | .ptLen => s.dropWrite
  | .ctLen => s.dropWrite
  | .frLen => s.dropWrite
  | .cap => s.dropWrite
  | .tag _ => s.dropWrite
  | .reservedLow => s.dropWrite
  | .window _ _ => s.dropWrite
  | .reservedHigh => s

/-- A host write of `v` to a word of the window. -/
def State.hostWrite (r : Reg) (v : Word) (s : State) : State :=
  if s.busy then s.writeBusy r v else s.writeIdle r v

/-- How many bytes of the buffer PT a DECRYPT writes, as far as R120 says: the plaintext's length, or,
when it fails, no more than the ciphertext it read (log 15). -/
def decryptSpan (cfg : Params) (x : Inputs) : Nat :=
  match decryptResult cfg x with
  | .ok d => d.length
  | .error _ => x.ctLen.toNat

/-- The same for the buffer PT of a RECEIVE (R120; log 15). -/
def receiveSpan (o : RxOutcome) (x : Inputs) : Nat :=
  match o with
  | .commandError _ => x.frLen.toNat - 16
  | .tooShort => x.frLen.toNat - 16
  | .tampered _ _ => x.frLen.toNat - 16
  | .undecryptable _ _ _ => x.frLen.toNat - 16
  | .badSize _ _ d => d.length
  | .delivered _ _ d _ => d.length

/-- How many bytes from the start of a buffer the command writes, by its "writes" list (R120). -/
def writtenSpan (i : Instr) (cfg : Params) (x : Inputs) (b : Buf) : Nat :=
  match i, b with
  | .encode, .pt => 16
  | .encrypt, .ct => paddedLength x.ptLen.toNat
  | .decrypt, .pt => decryptSpan cfg x
  | .frameBuild, .fr => x.ctLen.toNat + 16
  | .frameParse, .ct => x.frLen.toNat - 16
  | .send, .pt => 16
  | .send, .ct => 32
  | .send, .fr => 48
  | .receive, .ct => x.frLen.toNat - 16
  | .receive, .pt => receiveSpan (rxOutcome cfg x) x
  | _, _ => 0

/-- Whether a word of the window, STATUS and EVENTS apart, is on the "writes" list of the command
(R120, R289). Words at or past BUF_CAP are never written (R86). -/
def commandWrites (i : Instr) (cfg : Params) (x : Inputs) (r : Reg) : Bool :=
  match r with
  | .rd _ => i = .decode ∨ i = .receive
  | .ptLen => i = .encode ∨ i = .decrypt ∨ i = .send ∨ i = .receive
  | .ctLen => i = .encrypt ∨ i = .frameParse ∨ i = .send ∨ i = .receive
  | .frLen => i = .frameBuild ∨ i = .send
  | .tag _ => i = .tagGen ∨ i = .frameParse ∨ i = .send ∨ i = .receive
  | .window b k => 4 * k.val < cfg.bufCap ∧ 4 * k.val < writtenSpan i cfg x b
  | .ctrl => false
  | .cmd => false
  | .status => false
  | .events => false
  | .key _ => false
  | .iv _ => false
  | .cap => false
  | .reservedLow => false
  | .reservedHigh => false

/-- The next place on a path of `n` places, from place `seen` on, for a free advance `a` (R241). -/
def pathPlace (n seen a : Nat) : Nat := seen + a % (n - seen)

/-- STATUS as a read gives it while command `i` runs (R289). ERR, ERRCODE and the Receiver fields are
the held ones, but for VERIFY_OK during a TAG_VERIFY or RECEIVE, and RX_STATE and RX_REJECT during a
RECEIVE, whose shown place on the path is `place` (R241; log 6, log 7). -/
def State.busyStatus (s : State) (i : Instr) (p : Pending) (place : Nat) : Word :=
  packStatus true s.err
    (if i = .tagVerify ∨ i = .receive then Config.freeBit s.draws else s.verifyOk)
    s.errCode
    (if i = .receive then (rxPath (rxOutcome s.cfg p.snap)).getD place .awaitingFrame else s.rxState)
    (if i = .receive then rxRejectOf (Config.freeCategory s.draws) else s.rxReject)

/-- EVENTS as a read gives it while command `i` runs: TX_VALID is unspecified during a SEND or
FRAME_BUILD (R289). -/
def State.busyEvents (s : State) (i : Instr) : Word :=
  packEvents s.done
    (if i = .send ∨ i = .frameBuild then Config.freeBit s.draws else s.txValid) s.overrun

/-- A word of the window as a read gives it while command `i` runs (R289). -/
def State.busyWord (s : State) (i : Instr) (p : Pending) (place : Nat) (r : Reg) : Word :=
  if r = .status then s.busyStatus i p place
  else if r = .events then s.busyEvents i
  else if commandWrites i s.cfg p.snap r then Config.freeWord s.draws
  else s.heldWord r

/-- The place on its path at which this read shows a running RECEIVE; a read of another word, or while
another command runs, leaves it (R241). -/
def State.shownPlace (s : State) (i : Instr) (p : Pending) (r : Reg) : Nat :=
  if r = .status ∧ i = .receive then
    pathPlace (rxPath (rxOutcome s.cfg p.snap)).length p.rxSeen (Config.freeAdvance s.draws)
  else p.rxSeen

/-- A host read of a word of the window. It changes no state of the block (R90): `readData` is the
answer on the bus, and `draws` and `rxSeen` are the model's account of its free draws. -/
def State.hostRead (r : Reg) (s : State) : State :=
  match s.pending with
  | none => { s with readData := some (s.heldWord r) }
  | some p =>
    match decode p.word with
    | .error _ => { s with readData := some (s.heldWord r) }
    | .ok i =>
      { s with
        readData := some (s.busyWord i p (s.shownPlace i p r) r)
        draws := s.draws + 1
        pending := some { p with rxSeen := s.shownPlace i p r } }

/-- The host's entry for this clock is taken; `rest` are those for the clocks to come. -/
def State.popBus (rest : List BusOp) (s : State) : State := { s with bus := rest }

/-- What the host does on one clock (R92). With no access to come, the clock passes without one. An
access that is a bus error is refused (R85). -/
def State.hostClock (s : State) : Result :=
  match s.bus with
  | [] => .next s
  | .idle :: rest => .next (s.popBus rest)
  | .reset :: rest => .next (s.resetInput rest)
  | .read width off :: rest =>
    if accessWellFormed width off then .next ((s.popBus rest).hostRead (regOf off))
    else .refused .busError
  | .write width off v :: rest =>
    if accessWellFormed width off then .next ((s.popBus rest).hostWrite (regOf off) v)
    else .refused .busError

end Sys2Proof.Machine
end

