-- ==== Sys2Proof/Machine/Dispatch.lean ====
section
/-! DEFINITION. One arm for each command: the command's meaning, called directly. `exec i s` is what
command `i` does at its completion, on the inputs of `State.inputs`, with the clears its rule makes at
acceptance (R286; log 11). -/

namespace Sys2Proof.Machine

def exec (i : Instr) (s : State) : Host.Outcome State Fault Refusal :=
  match i with
  | .encode => Sys2Proof.Machine.execEncode s
  | .decode => Sys2Proof.Machine.execDecode s
  | .encrypt => Sys2Proof.Machine.execEncrypt s
  | .decrypt => Sys2Proof.Machine.execDecrypt s
  | .tagGen => Sys2Proof.Machine.execTagGen s
  | .tagVerify => Sys2Proof.Machine.execTagVerify s
  | .frameBuild => Sys2Proof.Machine.execFrameBuild s
  | .frameParse => Sys2Proof.Machine.execFrameParse s
  | .send => Sys2Proof.Machine.execSend s
  | .receive => Sys2Proof.Machine.execReceive s

end Sys2Proof.Machine
end

