-- ==== Sys2Proof/Machine/Engine.lean ====
section
/-! DEFINITION. The engine's side of a clock: a running command counts its latency down and, on the
clock of its completion, the held command word is decoded and its meaning applied in one step (R286). -/

namespace Sys2Proof.Machine

/-- The engine's pending command is replaced. -/
def State.setPending (p : Option Pending) (s : State) : State := { s with pending := p }

/-- The completion of the held command word. Acceptance holds legal words only (R286), so the last line
is for states no run reaches: there the word leaves what an illegal word leaves (R252; log 13). -/
def State.finishHeld (w : Word) (s : State) : Result :=
  match decode w with
  | .ok i => exec i s
  | .error _ => .next (s.recordIllegal.setPending none)

/-- One clock of the engine: nothing with no command pending, else one clock less to wait, or the
completion. -/
def State.engineClock (s : State) : Result :=
  match s.pending with
  | none => .next s
  | some p =>
    match p.left with
    | n + 1 => .next (s.setPending (some { p with left := n }))
    | 0 => s.finishHeld p.word

/-- One clock of the block: the host's access first, then the engine, if a command was running when the
clock began. So the write of CMD that starts a command is at least one clock before its completion
(R286), and a completion's set of DONE wins over a host clear on the same clock (R44; log 9). -/
def State.clock (s : State) : Result :=
  match s.hostClock with
  | .next t => if s.busy then t.engineClock else .next t
  | .fault f => .fault f
  | .refused r => .refused r

/-- The state that holds the command word `w` for completion on the next clock, with the snapshot of
its inputs, as after its acceptance, and with no host access to come (log 12). -/
def State.holdWord (w : Word) (s : State) : State :=
  { s with bus := [], pending := some { word := w, snap := s.liveInputs, left := 0, rxSeen := 0 } }

end Sys2Proof.Machine
end

