-- ==== Sys2Proof/Machine/Step.lean ====
section
/-! DEFINITION. One step of the machine: one clock of the block. -/

namespace Sys2Proof.Machine

/-- One step: one clock of the block, with the host's access of that clock and the engine's move (R16,
R92, R286). -/
def step : State → Host.Outcome State Fault Refusal := fun s => s.clock

/-- The state in which the next step runs the instruction of `nbits` bits `w`: the block fetches
nothing (R31, R96), so the word is put where a command word accepted from CMD is held (R57), with the
snapshot and with its latency passed. Bits above `nbits` are zero (log 12). -/
def State.withFetchWord (s : State) (nbits w : Nat) : State :=
  s.holdWord (BitVec.ofNat 32 (w % 2 ^ nbits))

end Sys2Proof.Machine
end

