-- ==== Sys2Proof/Safety.lean ====
section
/-! DEFINITION. The terms the claims are stated in: the pieces of state outside the buffers and what it
means to keep them, what it means to keep buffer bytes, how a command ends, and the invariant of the
block's states. -/

namespace Sys2Proof.Machine

/-- The pieces of state outside the buffers' bytes. `errRecord` is ERR with ERRCODE, `receiver` is
RX_STATE with RX_REJECT, `running` the pending command; `hostStream`, `readData`, `draws` and
`resetCount` are the model's own. -/
inductive Item where
  | parameters
  | lock
  | ie
  | errRecord
  | verifyOk
  | receiver
  | done
  | txValid
  | overrun
  | key
  | iv
  | rd
  | ptLen
  | ctLen
  | frLen
  | tag
  | running
  | hostStream
  | readData
  | draws
  | resetCount
deriving DecidableEq, Repr

/-- The two states agree on a piece of state. -/
def sameItem (i : Item) (s t : State) : Prop :=
  match i with
  | .parameters => t.cfg = s.cfg
  | .lock => t.lock = s.lock
  | .ie => t.ie = s.ie
  | .errRecord => t.err = s.err ∧ t.errCode = s.errCode
  | .verifyOk => t.verifyOk = s.verifyOk
  | .receiver => t.rxState = s.rxState ∧ t.rxReject = s.rxReject
  | .done => t.done = s.done
  | .txValid => t.txValid = s.txValid
  | .overrun => t.overrun = s.overrun
  | .key => t.key = s.key
  | .iv => t.iv = s.iv
  | .rd => t.rd = s.rd
  | .ptLen => t.ptLen = s.ptLen
  | .ctLen => t.ctLen = s.ctLen
  | .frLen => t.frLen = s.frLen
  | .tag => t.tag = s.tag
  | .running => t.pending = s.pending
  | .hostStream => t.bus = s.bus
  | .readData => t.readData = s.readData
  | .draws => t.draws = s.draws
  | .resetCount => t.mem.epoch = s.mem.epoch

/-- From `s` to `t`, nothing outside the buffers changed but the pieces listed. -/
def KeepsAllBut (changed : List Item) (s t : State) : Prop :=
  ∀ i : Item, i ∉ changed → sameItem i s t

/-- What the end of every command writes (R39, R40, R45). -/
def ending : List Item := [.errRecord, .done, .running]

/-- The address is one of the first `n` bytes of a listed buffer. -/
def inSpans (spans : List (Buf × Nat)) (a : Nat) : Prop :=
  ∃ p ∈ spans, bufBase p.1 ≤ a ∧ a < bufBase p.1 + p.2

/-- Every byte outside the listed stretches, each the first bytes of a buffer, reads as before. -/
def KeepsBytesBut (spans : List (Buf × Nat)) (s t : State) : Prop :=
  ∀ a : Nat, ¬ inSpans spans a → t.mem.read a = s.mem.read a

/-- The command ended by `complete()` (R40, R45). -/
def EndedWell (t : State) : Prop :=
  t.busy = false ∧ t.err = false ∧ t.errCode = .none ∧ t.done = true

/-- The command ended by `raise Fail(code)` (R255). -/
def EndedWith (code : ErrCode) (t : State) : Prop :=
  t.busy = false ∧ t.err = true ∧ t.errCode = code ∧ t.done = true

/-- The command failed with `code` and wrote nothing else (R255). -/
def FailsCleanly (code : ErrCode) (s t : State) : Prop :=
  EndedWith code t ∧ KeepsAllBut ending s t ∧ KeepsBytesBut [] s t

/-- The host's entry for the next clock is not the reset input. -/
def NoReset (s : State) : Prop := s.bus.head? ≠ some .reset

/-- The entry is not the reset input and is no bus error. -/
def BusOp.harmless : BusOp → Bool
  | .idle => true
  | .reset => false
  | .read width off => accessWellFormed width off
  | .write width off _ => accessWellFormed width off

/-- A key-using command (R253). -/
def usesKey : Instr → Bool
  | .encode => false
  | .decode => false
  | .encrypt => true
  | .decrypt => true
  | .tagGen => true
  | .tagVerify => true
  | .frameBuild => false
  | .frameParse => false
  | .send => true
  | .receive => true

/-- The error codes a command can end with, None for `complete()` among them (R120, R250). -/
def possibleCodes : Instr → List ErrCode
  | .encode => [.none]
  | .decode => [.none, .sizeMismatch]
  | .encrypt => [.none, .keyNotLocked, .lengthError]
  | .decrypt => [.none, .keyNotLocked, .lengthError, .blockAlignmentError, .paddingError]
  | .tagGen => [.none, .keyNotLocked, .lengthError]
  | .tagVerify => [.none, .keyNotLocked, .lengthError, .tamperDetected]
  | .frameBuild => [.none, .lengthError]
  | .frameParse => [.none, .lengthError, .frameTooShort]
  | .send => [.none, .keyNotLocked]
  | .receive =>
    [.none, .keyNotLocked, .lengthError, .frameTooShort, .tamperDetected, .paddingError,
     .blockAlignmentError, .sizeMismatch]

/-- The registers and flags on a command's "writes" list, besides the end of every command (R120). -/
def writesItems : Instr → List Item
  | .encode => [.ptLen]
  | .decode => [.rd]
  | .encrypt => [.ctLen]
  | .decrypt => [.ptLen]
  | .tagGen => [.tag]
  | .tagVerify => [.verifyOk]
  | .frameBuild => [.frLen, .txValid]
  | .frameParse => [.ctLen, .tag]
  | .send => [.ptLen, .ctLen, .tag, .frLen, .txValid]
  | .receive => [.receiver, .verifyOk, .ctLen, .tag, .ptLen, .rd]

/-- The buffers on a command's "writes" list (R120). -/
def writesBufs : Instr → List Buf
  | .encode => [.pt]
  | .decode => []
  | .encrypt => [.ct]
  | .decrypt => [.pt]
  | .tagGen => []
  | .tagVerify => []
  | .frameBuild => [.fr]
  | .frameParse => [.ct]
  | .send => [.pt, .ct, .fr]
  | .receive => [.ct, .pt]

/-- The registers on a command's "writes" list, by their offsets (R32, R120). -/
def listedRegs : Instr → List Nat
  | .encode => [0x040]
  | .decode => [0x030, 0x034, 0x038, 0x03C]
  | .encrypt => [0x044]
  | .decrypt => [0x040]
  | .tagGen => [0x050, 0x054, 0x058, 0x05C]
  | .tagVerify => []
  | .frameBuild => [0x048]
  | .frameParse => [0x044, 0x050, 0x054, 0x058, 0x05C]
  | .send => [0x040, 0x044, 0x048, 0x050, 0x054, 0x058, 0x05C]
  | .receive => [0x030, 0x034, 0x038, 0x03C, 0x040, 0x044, 0x050, 0x054, 0x058, 0x05C]

/-- The length of the plaintext a DECRYPT makes, or where it makes none, of the ciphertext it reads (log 15). -/
def decryptedLength (cfg : Params) (x : Inputs) : Nat :=
  match decryptResult cfg x with
  | .ok d => d.length
  | .error _ => x.ctLen.toNat

/-- The length of the plaintext a RECEIVE makes, or where it makes none, of the frame's ciphertext (log 15). -/
def receivedLength (cfg : Params) (x : Inputs) : Nat :=
  match rxOutcome cfg x with
  | .commandError _ | .tooShort | .tampered _ _ | .undecryptable _ _ _ => x.frLen.toNat - 16
  | .badSize _ _ d | .delivered _ _ d _ => d.length

/-- The buffer bytes on a command's "writes" list: how many from the start of which buffer (R120). -/
def listedBytes (i : Instr) (cfg : Params) (x : Inputs) : List (Buf × Nat) :=
  match i with
  | .encode => [(.pt, 16)]
  | .decode => []
  | .encrypt => [(.ct, 16 * (x.ptLen.toNat / 16 + 1))]
  | .decrypt => [(.pt, decryptedLength cfg x)]
  | .tagGen => []
  | .tagVerify => []
  | .frameBuild => [(.fr, x.ctLen.toNat + 16)]
  | .frameParse => [(.ct, x.frLen.toNat - 16)]
  | .send => [(.pt, 16), (.ct, 32), (.fr, 48)]
  | .receive => [(.ct, x.frLen.toNat - 16), (.pt, receivedLength cfg x)]

/-- The word at offset `o` is on the command's "writes" list, for a word other than STATUS and EVENTS: a
register of it, or a buffer word below BUF_CAP with a byte of it (R86, R120). -/
def OnWritesList (i : Instr) (cfg : Params) (x : Inputs) (o : Nat) : Prop :=
  o ∈ listedRegs i ∨
  ∃ p ∈ listedBytes i cfg x,
    bufBase p.1 ≤ o ∧ o < bufBase p.1 + p.2 ∧ o < bufBase p.1 + cfg.bufCap

/-- STATUS shows these codes in its fields ERRCODE, RX_STATE and RX_REJECT (R38). -/
def StatusShows (t : State) (code : BitVec 4) (rx rej : BitVec 3) : Prop :=
  t.statusWord.extractLsb' 4 4 = code ∧ t.statusWord.extractLsb' 8 3 = rx ∧
  t.statusWord.extractLsb' 12 3 = rej

/-- The codes RX_STATE may show while a RECEIVE runs, in order, the terminal one last (R42, R226, R241). -/
def rxPathCodes : RxOutcome → List (BitVec 3)
  | .commandError _ => [0]
  | .tooShort => [0, 5]
  | .tampered _ _ => [0, 1, 5]
  | .undecryptable _ _ _ => [0, 1, 2, 5]
  | .badSize _ _ _ => [0, 1, 2, 3, 5]
  | .delivered _ _ _ _ => [0, 1, 2, 3, 4]

/-- The two 48-byte strings differ only within one of their three 16-byte blocks, and do differ (R199). -/
def DifferInOneBlock (f g : Bytes) : Prop :=
  f.length = 48 ∧ g.length = 48 ∧ f ≠ g ∧
  ((f.drop 16 = g.drop 16) ∨
   (f.take 16 = g.take 16 ∧ f.drop 32 = g.drop 32) ∨
   (f.take 32 = g.take 32))

/-- A byte of one of the three buffers: below BUF_CAP (R55). -/
def bufferAddress (cap a : Nat) : Prop := ∃ b : Buf, bufBase b ≤ a ∧ a < bufBase b + cap

/-- The snapshot holds what the registers and buffers hold; LOCK may only have been set since (R57, R288). -/
def SnapshotIsLive (x : Inputs) (s : State) : Prop :=
  x = { s.liveInputs with lock := x.lock } ∧ (x.lock = true → s.lock = true)

/-- The states the block can be in: BUF_CAP is a legal one (R7); memory is canonical and holds bytes of
the buffers only (R55); ERR is 1 exactly when ERRCODE is not 0 (R40); RX_REJECT is non-zero exactly in
Rejected (R43); RX_STATE holds AwaitingFrame, Delivered or Rejected (R42); and while a command runs, its
word is legal, ERR, ERRCODE and DONE are 0 (R289), its acceptance clears stand (R286), its snapshot
is live, and a running RECEIVE has been seen on its path only (R241). -/
structure Inv (s : State) : Prop where
  params : s.cfg.wellFormed = true
  memForm : s.mem.wf = true
  memPlace : ∀ c ∈ s.mem.cells, bufferAddress s.cfg.bufCap c.1
  errIff : s.err = true ↔ s.errCode ≠ .none
  rejectIff : s.rxReject ≠ .none ↔ s.rxState = .rejected
  atRest : s.rxState = .awaitingFrame ∨ s.rxState = .delivered ∨ s.rxState = .rejected
  heldLegal : ∀ p, s.pending = some p → ∃ i, decode p.word = .ok i
  busyClear : s.busy = true → s.err = false ∧ s.errCode = .none ∧ s.done = false
  heldClears : ∀ p, s.pending = some p →
    (decode p.word = .ok .tagVerify → s.verifyOk = false) ∧
    (decode p.word = .ok .receive →
      s.verifyOk = false ∧ s.rxState = .awaitingFrame ∧ s.rxReject = .none)
  heldLive : ∀ p, s.pending = some p → SnapshotIsLive p.snap s
  heldPlace : ∀ p, s.pending = some p → decode p.word = .ok .receive →
    p.rxSeen < (rxPath (rxOutcome s.cfg p.snap)).length

end Sys2Proof.Machine
end

