-- ==== Sys2Proof/Certificates/Slice0/Obligations.lean ====
section
/-! DEFINITION. The statements about the frame engine, for the provers. A statement about a command says
what `exec` of that command answers from every state, running or idle: its inputs are
`State.inputs`, the snapshot of a running command (R286). -/

open Sys2Proof Sys2Proof.Machine

/-! ## Command words -/

/-- R113: each of the ten words is its command, under the mask 0xFFFFFFFF, and every other word is illegal. -/
def Obligations.OpcodeMapIsExact : Prop :=
  ∀ w : Word,
    (decode w = .ok .encode ↔ w = 0x00000001#32) ∧
    (decode w = .ok .decode ↔ w = 0x00000002#32) ∧
    (decode w = .ok .encrypt ↔ w = 0x00000003#32) ∧
    (decode w = .ok .decrypt ↔ w = 0x00000004#32) ∧
    (decode w = .ok .tagGen ↔ w = 0x00000005#32) ∧
    (decode w = .ok .tagVerify ↔ w = 0x00000006#32) ∧
    (decode w = .ok .frameBuild ↔ w = 0x00000007#32) ∧
    (decode w = .ok .frameParse ↔ w = 0x00000008#32) ∧
    (decode w = .ok .send ↔ w = 0x00000009#32) ∧
    (decode w = .ok .receive ↔ w = 0x0000000A#32) ∧
    ((∃ e, decode w = .error e) ↔ w = 0#32 ∨ 0x0000000A#32 < w)

/-- R117: decoding inverts encoding, encoding is zext_32(OPC), and only the encoded words decode. -/
def Obligations.DecodeAndEncodeAgree : Prop :=
  (∀ i : Instr, encode i = (opcodeOf i).setWidth 32 ∧ decode (encode i) = .ok i) ∧
  (∀ (w : Word) (i : Instr), decode w = .ok i → w = encode i) ∧
  (∀ (w v : Word) (i : Instr), decode w = .ok i → decode v = .ok i → w = v)

/-- A few words of R113 decode to their commands, and a few illegal ones of R114 do not (a sanity check). -/
def Obligations.SampleWordsDecode : Prop :=
  decode 0x00000001#32 = .ok .encode ∧ decode 0x00000004#32 = .ok .decrypt ∧
  decode 0x00000006#32 = .ok .tagVerify ∧ decode 0x00000008#32 = .ok .frameParse ∧
  decode 0x0000000A#32 = .ok .receive ∧ decode 0x00000000#32 = .error .noSuchOpcode ∧
  decode 0x0000000B#32 = .error .noSuchOpcode ∧ decode 0x00000019#32 = .error .mustBeZero

/-! ## The life of a command -/

/-- A step runs the command whose word is held, when its latency has passed: what the host's access of
that clock leaves is what the command's meaning is applied to (with no access, the state itself). So
it does for a word placed with `withFetchWord`. The order within a clock and the placing are the model's
choices (log 9, log 11, log 12). -/
def Obligations.StepRunsHeldCommand : Prop :=
  (∀ (s t : State) (p : Pending) (i : Instr),
    s.pending = some p → p.left = 0 → decode p.word = .ok i → NoReset s → s.hostClock = .next t →
      step s = exec i t) ∧
  (∀ (s : State) (p : Pending) (i : Instr),
    s.pending = some p → p.left = 0 → decode p.word = .ok i → s.bus = [] → step s = exec i s) ∧
  (∀ (s : State) (nbits w : Nat) (i : Instr), decodeTableWord nbits w = some i →
      step (s.withFetchWord nbits w) = exec i (s.withFetchWord nbits w))

/-- R286, acceptance: a legal word written to CMD with BUSY = 0 starts the command in that step, with the
latency of its case still to pass. That LAT is a table under a key, and where the path shown starts, are the
model's choices (log 6, log 8). -/
def Obligations.LegalWordIsAccepted : Prop :=
  ∀ (s : State) (w : Word) (i : Instr) (rest : List BusOp),
    s.pending = none → s.bus = .write 4 0x004#12 w :: rest → decode w = .ok i →
    ∃ t p, step s = .next t ∧
      t.busy = true ∧ t.err = false ∧ t.errCode = .none ∧ t.done = false ∧ t.irq = false ∧
      t.pending = some p ∧ p.word = w ∧ p.snap = s.liveInputs ∧
      p.left = extraClocks i s.cfg s.liveInputs ∧ p.rxSeen = 0 ∧
      t.verifyOk = (if i = .tagVerify ∨ i = .receive then false else s.verifyOk) ∧
      t.rxState = (if i = .receive then .awaitingFrame else s.rxState) ∧
      t.rxReject = (if i = .receive then .none else s.rxReject) ∧
      t.bus = rest ∧
      KeepsAllBut [.errRecord, .done, .running, .verifyOk, .receiver, .hostStream] s t ∧
      KeepsBytesBut [] s t

/-- R252: an illegal word written to CMD with BUSY = 0 records IllegalCommand in one step, starts no
command, and leaves everything else; the interrupt is asserted exactly if IE = 1. -/
def Obligations.IllegalWordIsRecorded : Prop :=
  ∀ (s : State) (w : Word) (e : DecodeError) (rest : List BusOp),
    s.pending = none → s.bus = .write 4 0x004#12 w :: rest → decode w = .error e →
    ∃ t, step s = .next t ∧ t.err = true ∧ t.statusWord.extractLsb' 4 4 = 6#4 ∧ t.done = true ∧
      t.busy = false ∧ t.irq = s.ie ∧ t.bus = rest ∧
      KeepsAllBut [.errRecord, .done, .hostStream] s t ∧ KeepsBytesBut [] s t

/-- R287: a write of CMD with BUSY = 1, legal word or not, only sets OVERRUN; the running command and
STATUS are as without it. The clock's engine move follows: that the host's access comes first on a clock
is the model's choice (log 9). -/
def Obligations.BusyCommandWriteIsDropped : Prop :=
  ∀ (s : State) (p : Pending) (w : Word) (rest : List BusOp),
    s.pending = some p → s.bus = .write 4 0x004#12 w :: rest →
    s.hostClock = .next { s with bus := rest, overrun := true } ∧
    step s = ({ s with bus := rest, overrun := true } : State).engineClock

/-- R288: each host write with BUSY = 1, by offset, and a bus error with BUSY = 1. That a write on the clock
of completion still finds BUSY = 1, that a write of KEY or IV with LOCK = 1 sets OVERRUN too, and that a bus
error is a refusal, are the model's choices and readings (log 9, log 21, log 3). -/
def Obligations.BusyWritesByOffset : Prop :=
  (∀ (s : State) (p : Pending) (off : Offset) (v : Word) (rest : List BusOp),
    s.pending = some p → off.toNat % 4 = 0 → s.bus = .write 4 off v :: rest →
    s.hostClock = .next
      (if off.toNat = 0x000 then
        { s with bus := rest, lock := s.lock || v.getLsbD 0, ie := v.getLsbD 1 }
      else if off.toNat = 0x008 then { s with bus := rest }
      else if off.toNat = 0x00C then
        { s with bus := rest, done := s.done && !v.getLsbD 0, txValid := s.txValid && !v.getLsbD 1,
                 overrun := s.overrun && !v.getLsbD 2 }
      else if off.toNat < 0x400 then { s with bus := rest, overrun := true }
      else { s with bus := rest })) ∧
  (∀ (s : State) (p : Pending) (width : Nat) (off : Offset) (v : Word) (rest : List BusOp),
    s.pending = some p → width ≠ 4 ∨ off.toNat % 4 ≠ 0 →
    (s.bus = .read width off :: rest ∨ s.bus = .write width off v :: rest) →
    step s = .refused .busError)

/-- R83: an access that is not four bytes wide, or whose offset is not a multiple of 4, is a bus error,
which gives the machine no step (R85); and nothing else stops the machine. That the answer is the
refusal `busError` is the model's choice (log 3). -/
def Obligations.OnlyBusErrorsStopTheBlock : Prop :=
  ∀ s : State,
    (∀ (width : Nat) (off : Offset) (v : Word) (rest : List BusOp),
      (width ≠ 4 ∨ off.toNat % 4 ≠ 0) →
      (s.bus = .read width off :: rest ∨ s.bus = .write width off v :: rest) →
      step s = .refused .busError) ∧
    ((∀ op rest, s.bus = op :: rest → op = .reset ∨ op.harmless = true) → ∃ t, step s = .next t)

/-- R93, R286, R294: an accepted command with `p.left` clocks still to pass runs that many clocks and
completes on the next, whatever harmless accesses the host makes meanwhile. Until then each step without
reset only counts a clock down beside the host's access: the word and the snapshot stay, and none of the
command's writes is applied. With no command running an idle clock changes nothing. The count of clocks is
the model's LAT (log 8), and that an access on the clock of completion comes before it, so that a write of
CMD there is dropped and not accepted, is the model's choice (log 9). -/
def Obligations.AcceptedCommandCompletes : Prop :=
  (∀ (s : State) (p : Pending) (i : Instr),
    s.pending = some p → decode p.word = .ok i →
    (∀ op ∈ s.bus.take (p.left + 1), op.harmless = true) →
    (∀ k, k ≤ p.left → ∃ t : State, Host.Core.run Sys2Proof.core k s = .next t ∧ t.busy = true) ∧
    ∃ t : State, Host.Core.run Sys2Proof.core (p.left + 1) s = .next t ∧ t.busy = false ∧ t.done = true) ∧
  (∀ (s u : State) (p : Pending) (n : Nat),
    s.pending = some p → p.left = n + 1 → NoReset s → s.hostClock = .next u →
    ∃ q, u.pending = some q ∧ q.word = p.word ∧ q.snap = p.snap ∧ q.left = n + 1 ∧
      step s = .next { u with pending := some { q with left := n } }) ∧
  (∀ (s : State) (p : Pending) (n : Nat), s.pending = some p → p.left = n + 1 →
    (s.bus = [] → step s = .next { s with pending := some { p with left := n } }) ∧
    (∀ rest, s.bus = .idle :: rest →
      step s = .next { s with bus := rest, pending := some { p with left := n } })) ∧
  (∀ s : State, s.pending = none →
    (s.bus = [] → step s = .next s) ∧
    (∀ rest, s.bus = .idle :: rest → step s = .next { s with bus := rest }))

/-- R197, R292 as the model's latency: it depends on the opcode and on the length registers the command
reads; for a RECEIVE also on the stage that rejects the frame, if one does. So two TAG_VERIFYs with one
CT_LEN take the same time, and so do two RECEIVEs of one FR_LEN that find the tags different, wherever they
differ. `LegalWordIsAccepted` says that this is the latency a command is started with.
That the latency is a table under this key is the model's choice (log 8, log 22). -/
def Obligations.LatencyHidesContents : Prop :=
  (∀ (i : Instr) (cfg : Params) (x y : Inputs), i ≠ .receive → lensRead i x = lensRead i y →
    extraClocks i cfg x = extraClocks i cfg y) ∧
  (∀ (cfg : Params) (x y : Inputs), x.ctLen = y.ctLen →
    extraClocks .tagVerify cfg x = extraClocks .tagVerify cfg y) ∧
  (∀ (cfg : Params) (x y : Inputs), x.frLen = y.frLen →
    rejectingStage (rxOutcome cfg x) = rejectingStage (rxOutcome cfg y) →
    extraClocks .receive cfg x = extraClocks .receive cfg y) ∧
  (∀ (cfg : Params) (x y : Inputs) (c d : Bytes) (t u : Block), x.frLen = y.frLen →
    rxOutcome cfg x = .tampered c t → rxOutcome cfg y = .tampered d u →
    extraClocks .receive cfg x = extraClocks .receive cfg y)

/-- R44: on the clock of a completion, the set of DONE wins over a host write that clears it. -/
def Obligations.DoneSetWinsOverClear : Prop :=
  ∀ (s : State) (p : Pending) (i : Instr) (v : Word) (rest : List BusOp),
    s.pending = some p → p.left = 0 → decode p.word = .ok i → s.bus = .write 4 0x00C#12 v :: rest →
    ∃ t, step s = .next t ∧ t.done = true ∧ t.busy = false ∧
      t.overrun = (s.overrun && !v.getLsbD 2)

/-- How every command ends: BUSY is 0, DONE is 1, the interrupt follows IE, ERR is 1 exactly when
ERRCODE is not 0, and ERRCODE is one the command can fail with (R39, R40, R45, R120, R250). -/
def Obligations.EveryCommandEndsRecorded : Prop :=
  ∀ (i : Instr) (s : State), ∃ t, exec i s = .next t ∧
    t.busy = false ∧ t.done = true ∧ t.irq = s.ie ∧
    (t.err = true ↔ errCodeBits t.errCode ≠ 0#4) ∧ t.errCode ∈ possibleCodes i

/-- R120: a command writes its own list of registers, flags and buffers, besides the end of every
command, and nothing else: neither KEY, IV, LOCK, IE and OVERRUN, nor the Receiver's state but for
RECEIVE (R232), nor a byte at or past BUF_CAP. And R255: a failing command leaves its data outputs, but
for the stages a RECEIVE completed (R235), which never write RD. -/
def Obligations.CommandsWriteOnlyTheirList : Prop :=
  ∀ (i : Instr) (s t : State), s.cfg.wellFormed = true → exec i s = .next t →
    KeepsAllBut (ending ++ writesItems i) s t ∧
    KeepsBytesBut ((writesBufs i).map fun b => (b, s.cfg.bufCap)) s t ∧
    (t.err = true → i ≠ .receive →
      KeepsAllBut (ending ++ (if i = .tagVerify then [.verifyOk] else [])) s t ∧
      KeepsBytesBut [] s t) ∧
    (t.err = true → t.rd = s.rd)

/-- R253: a key-using command accepted with LOCK = 0 fails with KeyNotLocked, whatever the data, and
writes only the end of the command and its acceptance clears. -/
def Obligations.KeyUseNeedsLock : Prop :=
  ∀ (i : Instr) (s : State), usesKey i = true → s.inputs.lock = false →
    ∃ t, exec i s = .next t ∧ EndedWith .keyNotLocked t ∧ t.statusWord.extractLsb' 4 4 = 7#4 ∧
      KeepsAllBut (ending ++ (if i = .tagVerify then [.verifyOk]
        else if i = .receive then [.verifyOk, .receiver] else [])) s t ∧
      KeepsBytesBut [] s t ∧
      (i = .tagVerify ∨ i = .receive → t.verifyOk = false) ∧
      (i = .receive → t.rxState = .awaitingFrame ∧ t.rxReject = .none ∧ StatusShows t 7 0 0)

/-- R254: the commands that fail with LengthError, and when: an input length above BUF_CAP, or an output
that would not fit. -/
def Obligations.LengthErrors : Prop :=
  ∀ s : State,
    (s.inputs.lock = true →
      s.cfg.bufCap < s.inputs.ptLen.toNat ∨ s.cfg.bufCap < 16 * (s.inputs.ptLen.toNat / 16 + 1) →
      ∃ t, exec .encrypt s = .next t ∧ FailsCleanly .lengthError s t ∧
        t.statusWord.extractLsb' 4 4 = 8#4) ∧
    (s.inputs.lock = true → s.cfg.bufCap < s.inputs.ctLen.toNat →
      (∃ t, exec .decrypt s = .next t ∧ FailsCleanly .lengthError s t ∧
        t.statusWord.extractLsb' 4 4 = 8#4) ∧
      (∃ t, exec .tagGen s = .next t ∧ FailsCleanly .lengthError s t ∧
        t.statusWord.extractLsb' 4 4 = 8#4) ∧
      (∃ t, exec .tagVerify s = .next t ∧ EndedWith .lengthError t ∧
        t.statusWord.extractLsb' 4 4 = 8#4 ∧ t.verifyOk = false ∧
        KeepsAllBut (ending ++ [.verifyOk]) s t ∧ KeepsBytesBut [] s t)) ∧
    (s.cfg.bufCap < s.inputs.ctLen.toNat ∨ s.cfg.bufCap < s.inputs.ctLen.toNat + 16 →
      ∃ t, exec .frameBuild s = .next t ∧ FailsCleanly .lengthError s t ∧
        t.statusWord.extractLsb' 4 4 = 8#4) ∧
    (s.cfg.bufCap < s.inputs.frLen.toNat →
      ∃ t, exec .frameParse s = .next t ∧ FailsCleanly .lengthError s t ∧
        t.statusWord.extractLsb' 4 4 = 8#4) ∧
    (s.inputs.lock = true → s.cfg.bufCap < s.inputs.frLen.toNat →
      ∃ t, exec .receive s = .next t ∧ EndedWith .lengthError t ∧ StatusShows t 8 0 0 ∧
        t.verifyOk = false ∧ t.rxState = .awaitingFrame ∧ t.rxReject = .none ∧
        KeepsAllBut (ending ++ [.verifyOk, .receiver]) s t ∧ KeepsBytesBut [] s t)

/-! ## Reset -/

/-- R60: the values after reset. A buffer byte reads as a free byte, which is any value (log 4). -/
def Obligations.ResetValues : Prop :=
  State.reset.lock = false ∧ State.reset.ie = false ∧ State.reset.statusWord = 0x00000000#32 ∧
  State.reset.eventsWord = 0x00000000#32 ∧
  State.reset.rxState = .awaitingFrame ∧ State.reset.rxReject = .none ∧ State.reset.errCode = .none ∧
  State.reset.key = ⟨0, 0, 0, 0⟩ ∧ State.reset.iv = ⟨0, 0, 0, 0⟩ ∧ State.reset.rd = ⟨0, 0, 0, 0⟩ ∧
  State.reset.ptLen = 0x00000000#32 ∧ State.reset.ctLen = 0x00000000#32 ∧
  State.reset.frLen = 0x00000000#32 ∧ State.reset.tag = ⟨0, 0, 0, 0⟩ ∧
  State.reset.heldWord .cap = BitVec.ofNat 32 State.reset.cfg.bufCap ∧
  State.reset.pending = none ∧ State.reset.irq = false ∧
  (∀ a : Nat, State.reset.mem.read a = Config.resetByte 0 a)

/-- R280, R282: the reset input, with BUSY = 0 or 1, gives every register and flag its reset value, LOCK
among them. A command that runs is abandoned: none of its effects is applied, DONE is not set and the
interrupt does not fire. The parameters and the host's coming accesses stay, and the buffers draw new free
bytes: the model's choices (log 4, log 20). -/
def Obligations.ResetAbandonsTheCommand : Prop :=
  ∀ (s : State) (rest : List BusOp),
    s.bus = .reset :: rest →
    ∃ t, step s = .next t ∧ t.pending = none ∧ t.busy = false ∧ t.lock = false ∧ t.ie = false ∧
      t.statusWord = 0#32 ∧ t.rxState = .awaitingFrame ∧ t.eventsWord = 0#32 ∧ t.done = false ∧
      t.irq = false ∧
      t.key = ⟨0, 0, 0, 0⟩ ∧ t.iv = ⟨0, 0, 0, 0⟩ ∧ t.rd = ⟨0, 0, 0, 0⟩ ∧ t.tag = ⟨0, 0, 0, 0⟩ ∧
      t.ptLen = 0 ∧ t.ctLen = 0 ∧ t.frLen = 0 ∧ t.cfg = s.cfg ∧ t.bus = rest ∧
      (∀ a : Nat, t.mem.read a = Config.resetByte (s.mem.epoch + 1) a)

/-! ## Registers and buffers -/

/-- What a host read answers with BUSY = 0, register by register (R32, R33, R37, R38, R44, R47 to R54,
R61), the codes of RX_STATE, RX_REJECT and ERRCODE among it (R42, R43, R250), and that it changes nothing
(R90). -/
def Obligations.IdleReads : Prop :=
  ∀ (s : State) (off : Offset) (rest : List BusOp),
    s.pending = none → off.toNat % 4 = 0 → s.bus = .read 4 off :: rest →
    ∃ w, step s = .next { s with bus := rest, readData := some w } ∧
      (off = 0x000#12 → w = (if s.ie then 2#32 else 0#32) ||| (if s.lock then 1#32 else 0#32)) ∧
      (off = 0x004#12 → w = 0#32) ∧
      (off = 0x008#12 → w.getLsbD 0 = false ∧ w.getLsbD 1 = s.err ∧ w.getLsbD 2 = s.verifyOk ∧
        w.getLsbD 3 = false ∧ w.getLsbD 11 = false ∧ w.extractLsb' 15 17 = 0#17 ∧
        w.extractLsb' 4 4 = (match s.errCode with
          | .none => 0 | .sizeMismatch => 1 | .paddingError => 2 | .blockAlignmentError => 3
          | .tamperDetected => 4 | .frameTooShort => 5 | .illegalCommand => 6 | .keyNotLocked => 7
          | .lengthError => 8) ∧
        w.extractLsb' 8 3 = (match s.rxState with
          | .awaitingFrame => 0 | .verifying => 1 | .decrypting => 2 | .validating => 3
          | .delivered => 4 | .rejected => 5) ∧
        w.extractLsb' 12 3 = (match s.rxReject with
          | .none => 0 | .frameTooShort => 1 | .tamperDetected => 2 | .decryptionFailed => 3
          | .sizeMismatch => 4)) ∧
      (off = 0x00C#12 → w.getLsbD 0 = s.done ∧ w.getLsbD 1 = s.txValid ∧ w.getLsbD 2 = s.overrun ∧
        w.extractLsb' 3 29 = 0#29) ∧
      (0x010 ≤ off.toNat ∧ off.toNat < 0x020 → w = 0#32) ∧
      (off = 0x020#12 → w = s.iv.w0) ∧ (off = 0x024#12 → w = s.iv.w1) ∧
      (off = 0x028#12 → w = s.iv.w2) ∧ (off = 0x02C#12 → w = s.iv.w3) ∧
      (off = 0x030#12 → w = s.rd.w0) ∧ (off = 0x034#12 → w = s.rd.w1) ∧
      (off = 0x038#12 → w = s.rd.w2) ∧ (off = 0x03C#12 → w = s.rd.w3) ∧
      (off = 0x040#12 → w = s.ptLen) ∧ (off = 0x044#12 → w = s.ctLen) ∧
      (off = 0x048#12 → w = s.frLen) ∧ (off = 0x04C#12 → w = BitVec.ofNat 32 s.cfg.bufCap) ∧
      (off = 0x050#12 → w = s.tag.w0) ∧ (off = 0x054#12 → w = s.tag.w1) ∧
      (off = 0x058#12 → w = s.tag.w2) ∧ (off = 0x05C#12 → w = s.tag.w3) ∧
      (0x060 ≤ off.toNat ∧ off.toNat < 0x100 → w = 0#32) ∧
      (0x400 ≤ off.toNat → w = 0#32)

/-- What a host write does with BUSY = 0, register by register (R32, R33, R38, R44, R46, R48 to R54,
R61); CMD and the buffer windows have statements of their own. -/
def Obligations.IdleWrites : Prop :=
  ∀ (s : State) (off : Offset) (v : Word) (rest : List BusOp),
    s.pending = none → off.toNat % 4 = 0 → s.bus = .write 4 off v :: rest →
    (off = 0x000#12 → step s = .next { s with
      bus := rest, lock := s.lock || v.getLsbD 0, ie := v.getLsbD 1 }) ∧
    (off = 0x008#12 → step s = .next { s with bus := rest }) ∧
    (off = 0x00C#12 → step s = .next { s with
      bus := rest, done := s.done && !v.getLsbD 0, txValid := s.txValid && !v.getLsbD 1,
      overrun := s.overrun && !v.getLsbD 2 }) ∧
    (0x010 ≤ off.toNat ∧ off.toNat < 0x030 → s.lock = true → step s = .next { s with bus := rest }) ∧
    (s.lock = false →
      (off = 0x010#12 → step s = .next { s with bus := rest, key := { s.key with w0 := v } }) ∧
      (off = 0x014#12 → step s = .next { s with bus := rest, key := { s.key with w1 := v } }) ∧
      (off = 0x018#12 → step s = .next { s with bus := rest, key := { s.key with w2 := v } }) ∧
      (off = 0x01C#12 → step s = .next { s with bus := rest, key := { s.key with w3 := v } }) ∧
      (off = 0x020#12 → step s = .next { s with bus := rest, iv := { s.iv with w0 := v } }) ∧
      (off = 0x024#12 → step s = .next { s with bus := rest, iv := { s.iv with w1 := v } }) ∧
      (off = 0x028#12 → step s = .next { s with bus := rest, iv := { s.iv with w2 := v } }) ∧
      (off = 0x02C#12 → step s = .next { s with bus := rest, iv := { s.iv with w3 := v } })) ∧
    (off = 0x030#12 → step s = .next { s with bus := rest, rd := { s.rd with w0 := v } }) ∧
    (off = 0x034#12 → step s = .next { s with bus := rest, rd := { s.rd with w1 := v } }) ∧
    (off = 0x038#12 → step s = .next { s with bus := rest, rd := { s.rd with w2 := v } }) ∧
    (off = 0x03C#12 → step s = .next { s with bus := rest, rd := { s.rd with w3 := v } }) ∧
    (off = 0x040#12 → step s = .next { s with bus := rest, ptLen := v }) ∧
    (off = 0x044#12 → step s = .next { s with bus := rest, ctLen := v }) ∧
    (off = 0x048#12 → step s = .next { s with bus := rest, frLen := v, txValid := false }) ∧
    (off = 0x04C#12 → step s = .next { s with bus := rest }) ∧
    (off = 0x050#12 → step s = .next { s with bus := rest, tag := { s.tag with w0 := v } }) ∧
    (off = 0x054#12 → step s = .next { s with bus := rest, tag := { s.tag with w1 := v } }) ∧
    (off = 0x058#12 → step s = .next { s with bus := rest, tag := { s.tag with w2 := v } }) ∧
    (off = 0x05C#12 → step s = .next { s with bus := rest, tag := { s.tag with w3 := v } }) ∧
    (0x060 ≤ off.toNat ∧ off.toNat < 0x100 → step s = .next { s with bus := rest }) ∧
    (0x400 ≤ off.toNat → step s = .next { s with bus := rest })

/-- R86: the buffer windows. The word at `base + 4k` reads as the little-endian word of bytes `4k..4k+3`
and a write stores them; at or past BUF_CAP it reads zero and ignores writes; a window write changes no
length register. A write that reaches FR clears TX_VALID (R46); that one at or past BUF_CAP in its window
leaves TX_VALID is the model's reading (log 14). -/
def Obligations.BufferWindows : Prop :=
  ∀ (s : State) (b : Buf) (k : Fin 64) (off : Offset) (v : Word) (rest : List BusOp),
    s.pending = none → off = BitVec.ofNat 12 (bufBase b + 4 * k.val) →
    (s.bus = .read 4 off :: rest →
      ∃ w, step s = .next { s with bus := rest, readData := some w } ∧
        (s.cfg.bufCap ≤ 4 * k.val → w = 0#32) ∧
        (4 * k.val < s.cfg.bufCap → ∀ j < 4,
          w.extractLsb' (8 * j) 8 = s.mem.read (bufBase b + 4 * k.val + j))) ∧
    (s.bus = .write 4 off v :: rest →
      ∃ t, step s = .next t ∧ t.bus = rest ∧
        (s.cfg.bufCap ≤ 4 * k.val → t = { s with bus := rest }) ∧
        (4 * k.val < s.cfg.bufCap →
          (∀ j < 4, t.mem.read (bufBase b + 4 * k.val + j) = v.extractLsb' (8 * j) 8) ∧
          (∀ a, a < bufBase b + 4 * k.val ∨ bufBase b + 4 * k.val + 4 ≤ a →
            t.mem.read a = s.mem.read a) ∧
          KeepsAllBut [.hostStream, .txValid] s t ∧
          t.txValid = (if b = .fr then false else s.txValid)))

/-- R34, R285: with LOCK = 1, LOCK, KEY and IV stay as they are in every step but a reset. -/
def Obligations.LockedKeyMaterialIsConstant : Prop :=
  ∀ s t : State, s.lock = true → NoReset s → step s = .next t →
    t.lock = true ∧ t.key = s.key ∧ t.iv = s.iv

/-- R47: the key cannot be read back: what any read with BUSY = 0 answers does not depend on KEY. -/
def Obligations.KeyCannotBeReadBack : Prop :=
  ∀ (s : State) (key' : Quad) (off : Offset) (rest : List BusOp),
    s.pending = none → off.toNat % 4 = 0 → s.bus = .read 4 off :: rest →
    ∃ t t', step s = .next t ∧ step { s with key := key' } = .next t' ∧ t.readData = t'.readData

/-- R289: what a host read answers while a command runs, in the states the block can be in: a free word
for a word on the command's "writes" list, and for every other the held value, which is what it would
read as with no command running; BUSY 1, ERR, ERRCODE and DONE 0; STATUS as held but for VERIFY_OK during a
TAG_VERIFY or RECEIVE and the Receiver's fields during a RECEIVE, and EVENTS but for TX_VALID during a SEND
or FRAME_BUILD; and the read changes no state of the block. How a free value is drawn, which words count as
written, and that a read on the clock of completion still shows the running command, are the model's
choices (log 5, log 6, log 7, log 9, log 15). -/
def Obligations.BusyReads : Prop :=
  ∀ (s : State) (p : Pending) (i : Instr) (off : Offset) (rest : List BusOp),
    Inv s → s.pending = some p → decode p.word = .ok i → off.toNat % 4 = 0 →
    s.bus = .read 4 off :: rest →
    ∃ t w, s.hostClock = .next t ∧ t.readData = some w ∧
      (off = 0x008#12 → w.getLsbD 0 = true ∧ w.getLsbD 1 = false ∧ w.extractLsb' 4 4 = 0#4 ∧
        (i ≠ .tagVerify → i ≠ .receive → w = s.statusWord) ∧
        ∀ k, w.getLsbD k = s.statusWord.getLsbD k ∨ (k = 2 ∧ (i = .tagVerify ∨ i = .receive)) ∨
          (i = .receive ∧ (8 ≤ k ∧ k < 11 ∨ 12 ≤ k ∧ k < 15))) ∧
      (off = 0x00C#12 → w.getLsbD 0 = false ∧ w.getLsbD 2 = s.overrun ∧
        (i ≠ .send → i ≠ .frameBuild → w = s.eventsWord) ∧
        ∀ k, w.getLsbD k = s.eventsWord.getLsbD k ∨ (k = 1 ∧ (i = .send ∨ i = .frameBuild))) ∧
      (off ≠ 0x008#12 → off ≠ 0x00C#12 →
        (OnWritesList i s.cfg p.snap off.toNat → w = Config.freeWord s.draws) ∧
        (¬ OnWritesList i s.cfg p.snap off.toNat → w = s.heldWord (regOf off) ∧
          ∃ u, step { s with pending := none } = .next u ∧ u.readData = some w)) ∧
      KeepsAllBut [.hostStream, .readData, .draws, .running] s t ∧ t.mem = s.mem ∧
      ∃ q, t.pending = some q ∧ q.word = p.word ∧ q.snap = p.snap ∧ q.left = p.left

/-! ## ReadingCodec -/

/-- R132: ENCODE. -/
def Obligations.EncodeSerialisesReading : Prop :=
  ∀ s : State, ∃ t, exec .encode s = .next t ∧ EndedWell t ∧
    t.mem.bufBytes .pt 16 =
      (match s.cfg.order with
       | .le => colBytes (le32 s.inputs.rd.w0) ++ colBytes (le32 s.inputs.rd.w1) ++
                colBytes (le32 s.inputs.rd.w2) ++ colBytes (le32 s.inputs.rd.w3)
       | .be => colBytes (be32 s.inputs.rd.w0) ++ colBytes (be32 s.inputs.rd.w1) ++
                colBytes (be32 s.inputs.rd.w2) ++ colBytes (be32 s.inputs.rd.w3)) ∧
    t.ptLen = 16#32 ∧
    KeepsAllBut (ending ++ [.ptLen]) s t ∧ KeepsBytesBut [(.pt, 16)] s t

/-- R133: DECODE with PT_LEN = 16 delivers the Reading of PT[0..16); with any other PT_LEN it fails with
SizeMismatch and RD is unchanged. -/
def Obligations.DecodeDeserialisesReading : Prop :=
  ∀ s : State,
    (s.inputs.ptLen = 16#32 → ∃ t, exec .decode s = .next t ∧ EndedWell t ∧
      (∀ o, s.cfg.order = o →
        colBytes (ord32 o t.rd.w0) ++ colBytes (ord32 o t.rd.w1) ++ colBytes (ord32 o t.rd.w2) ++
          colBytes (ord32 o t.rd.w3) = s.inputs.mem.bufBytes .pt 16) ∧
      KeepsAllBut (ending ++ [.rd]) s t ∧ KeepsBytesBut [] s t) ∧
    (s.inputs.ptLen ≠ 16#32 → ∃ t, exec .decode s = .next t ∧ FailsCleanly .sizeMismatch s t)

/-- R134: decode inverts encode bit for bit, both ways, in both byte orders. -/
def Obligations.ReadingCodecIsBijective : Prop :=
  ∀ o : ByteOrder,
    (∀ rd : Quad, decodeReading o (blockBytes (encodeReading o rd)) = .ok rd) ∧
    (∀ s : Bytes, s.length = 16 →
      ∃ rd, decodeReading o s = .ok rd ∧ blockBytes (encodeReading o rd) = s)

/-! ## AES-128 -/

/-- R141 to R143: the S-box table is the affine map of the field inverse, the other table is its
inverse permutation, and `ginv` is the inverse of `gmul`. -/
def Obligations.SboxIsAffineOfInverse : Prop :=
  (∀ a : Byte, sbox a = affine (ginv a) ∧ invSbox (sbox a) = a ∧ sbox (invSbox a) = a) ∧
  ginv 0 = 0 ∧ (∀ a : Byte, a ≠ 0 → gmul a (ginv a) = 1)

/-- R151: AES_Dec and AES_Enc invert each other under every key, so AES_Enc is injective. -/
def Obligations.AesDecInvertsEnc : Prop :=
  (∀ K B : Block, aesDec K (aesEnc K B) = B ∧ aesEnc K (aesDec K B) = B) ∧
  (∀ K B B' : Block, aesEnc K B = aesEnc K B' → B = B')

/-! ## CipherEngine -/

/-- R170: the padding's length and its bytes. -/
def Obligations.PaddingShape : Prop :=
  ∀ P : Bytes, ∃ p : Nat, 1 ≤ p ∧ p ≤ 16 ∧ p = 16 - P.length % 16 ∧
    pkcs7Pad P = P ++ List.replicate p (BitVec.ofNat 8 p) ∧
    (pkcs7Pad P).length = 16 * (P.length / 16 + 1)

/-- R171: on a non-empty string of whole blocks, unpadding succeeds exactly on padded strings and gives
back what was padded; on every other it is PaddingError. -/
def Obligations.UnpadAcceptsExactlyPadded : Prop :=
  ∀ D : Bytes, D ≠ [] → D.length % 16 = 0 →
    (∀ P : Bytes, pkcs7Unpad D = .ok P ↔ D = pkcs7Pad P) ∧
    ((∀ P : Bytes, D ≠ pkcs7Pad P) → pkcs7Unpad D = .error .paddingError)

/-- R173: CBC decryption inverts CBC encryption on strings of whole blocks. -/
def Obligations.CbcDecryptInvertsEncrypt : Prop :=
  ∀ (K IV : Block) (X : Bytes), X.length % 16 = 0 → X ≠ [] →
    cbcDecryptRaw K IV (cbcEncryptRaw K IV X) = X

/-- R178: the ciphertext of a 16-byte plaintext is exactly these two blocks, 32 bytes. -/
def Obligations.SixteenBytesEncryptToTwoBlocks : Prop :=
  ∀ (K IV P : Block), ∃ C1 C2 : Block,
    C1 = aesEnc K (P.xor IV) ∧
    C2 = aesEnc K ((⟨⟨16, 16, 16, 16⟩, ⟨16, 16, 16, 16⟩, ⟨16, 16, 16, 16⟩, ⟨16, 16, 16, 16⟩⟩ : Block).xor C1) ∧
    encryptString (blockBytes P) K IV = blockBytes C1 ++ blockBytes C2 ∧
    (encryptString (blockBytes P) K IV).length = 32

/-- R180: decrypt inverts encrypt on every byte string, and DECRYPT gives back what ENCRYPT took, for
every PT_LEN up to BUF_CAP - 1. -/
def Obligations.DecryptInvertsEncrypt : Prop :=
  (∀ (P : Bytes) (K IV : Block), decryptString (encryptString P K IV) K IV = .ok P) ∧
  (∀ s : State, s.pending = none → s.lock = true → s.cfg.wellFormed = true →
    s.ptLen.toNat ≤ s.cfg.bufCap - 1 →
    ∃ t u, exec .encrypt s = .next t ∧ EndedWell t ∧ exec .decrypt t = .next u ∧ EndedWell u ∧
      u.ptLen = s.ptLen ∧ u.mem.bufBytes .pt s.ptLen.toNat = s.mem.bufBytes .pt s.ptLen.toNat)

/-- R176: ENCRYPT on a length that fits. -/
def Obligations.EncryptWritesCiphertext : Prop :=
  ∀ (s : State) (L n : Nat), s.inputs.lock = true → L = s.inputs.ptLen.toNat → L ≤ s.cfg.bufCap →
    n = 16 * (L / 16 + 1) → n ≤ s.cfg.bufCap → s.cfg.wellFormed = true →
    ∃ t, exec .encrypt s = .next t ∧ EndedWell t ∧
      t.mem.bufBytes .ct n =
        encryptString (s.inputs.mem.bufBytes .pt L) (quadBlock s.inputs.key) (quadBlock s.inputs.iv) ∧
      t.ctLen = BitVec.ofNat 32 n ∧
      KeepsAllBut (ending ++ [.ctLen]) s t ∧ KeepsBytesBut [(.ct, n)] s t

/-- R177: DECRYPT of a ciphertext whose padding is valid. -/
def Obligations.DecryptWritesPlaintext : Prop :=
  ∀ (s : State) (L : Nat) (P : Bytes), s.inputs.lock = true → L = s.inputs.ctLen.toNat →
    L ≤ s.cfg.bufCap → L % 16 = 0 → L ≠ 0 →
    cbcDecryptRaw (quadBlock s.inputs.key) (quadBlock s.inputs.iv) (s.inputs.mem.bufBytes .ct L) =
      pkcs7Pad P →
    ∃ t, exec .decrypt s = .next t ∧ EndedWell t ∧
      t.mem.bufBytes .pt P.length = P ∧ t.ptLen = BitVec.ofNat 32 P.length ∧
      KeepsAllBut (ending ++ [.ptLen]) s t ∧ KeepsBytesBut [(.pt, P.length)] s t

/-- R177, R256: DECRYPT's data errors in their order: a length that is no multiple of 16, an empty
ciphertext, an invalid padding. PT and PT_LEN are unchanged. -/
def Obligations.DecryptDataErrors : Prop :=
  ∀ (s : State) (L : Nat), s.inputs.lock = true → L = s.inputs.ctLen.toNat → L ≤ s.cfg.bufCap →
    (L % 16 ≠ 0 → ∃ t, exec .decrypt s = .next t ∧ FailsCleanly .blockAlignmentError s t) ∧
    (L = 0 → ∃ t, exec .decrypt s = .next t ∧ FailsCleanly .paddingError s t) ∧
    (L % 16 = 0 → L ≠ 0 →
      (∀ P : Bytes, cbcDecryptRaw (quadBlock s.inputs.key) (quadBlock s.inputs.iv)
        (s.inputs.mem.bufBytes .ct L) ≠ pkcs7Pad P) →
      ∃ t, exec .decrypt s = .next t ∧ FailsCleanly .paddingError s t)

/-! ## IntegrityTag -/

/-- R193: the comparison that examines every byte pair is equality. -/
def Obligations.CtEqualIsEquality : Prop :=
  (∀ a b : Block, ctEqual a b = true ↔ a = b) ∧
  (∀ (K : Block) (M : Bytes) (T : Block), verifyTag K M T = true ↔ cmac K M = T)

/-- R192: the tag of whole blocks `Ms` followed by a last block of 1 to 16 bytes, and of the empty
message, written out: the chain from the zero block, then the last block under K1 if it is complete, and
padded under K2 if not. -/
def Obligations.CmacIsChainUnderSubkeys : Prop :=
  ∀ (K : Block) (Ms : List Block) (last : Bytes), last.length ≤ 16 → (last = [] → Ms = []) →
    cmac K (ofBlocks Ms ++ last) =
      aesEnc K ((Ms.foldl (fun X M => aesEnc K (X.xor M)) Block.zero).xor
        (if last.length = 16 then (blockOf last).xor (dbl (aesEnc K Block.zero))
         else (blockOf (last ++ [0x80#8] ++ List.replicate (15 - last.length) 0#8)).xor
          (dbl (dbl (aesEnc K Block.zero)))))

/-- R195: TAG_GEN on a length that fits. -/
def Obligations.TagGenWritesTag : Prop :=
  ∀ (s : State) (L : Nat), s.inputs.lock = true → L = s.inputs.ctLen.toNat → L ≤ s.cfg.bufCap →
    ∃ t, exec .tagGen s = .next t ∧ EndedWell t ∧
      quadBlock t.tag = cmac (quadBlock s.inputs.key) (s.inputs.mem.bufBytes .ct L) ∧
      KeepsAllBut (ending ++ [.tag]) s t ∧ KeepsBytesBut [] s t

/-- R196: TAG_VERIFY on a length that fits: VERIFY_OK is 1 exactly if the tags are equal, and a
difference fails with TamperDetected. -/
def Obligations.TagVerifyComparesTags : Prop :=
  ∀ (s : State) (L : Nat), s.inputs.lock = true → L = s.inputs.ctLen.toNat → L ≤ s.cfg.bufCap →
    ∃ t, exec .tagVerify s = .next t ∧
      (if cmac (quadBlock s.inputs.key) (s.inputs.mem.bufBytes .ct L) = quadBlock s.inputs.tag then
        EndedWell t ∧ t.verifyOk = true
      else EndedWith .tamperDetected t ∧ t.verifyOk = false) ∧
      KeepsAllBut (ending ++ [.verifyOk]) s t ∧ KeepsBytesBut [] s t

/-- R199: a change confined to one block of a 32-byte ciphertext changes its tag, and every 48-byte
string that differs from a valid frame only within one of its three blocks fails the comparison. -/
def Obligations.TamperSensitivity : Prop :=
  (∀ (K : Block) (C C' : Bytes), C.length = 32 → C'.length = 32 → C ≠ C' →
    C.take 16 = C'.take 16 ∨ C.drop 16 = C'.drop 16 → cmac K C' ≠ cmac K C) ∧
  (∀ (K : Block) (C F' : Bytes), C.length = 32 →
    DifferInOneBlock (C ++ blockBytes (cmac K C)) F' →
    verifyTag K (F'.take 32) (blockOf (F'.drop 32)) = false)

/-! ## FrameCodec -/

/-- R211: parse splits off the last 16 bytes and fails exactly on less than 16; it inverts build. -/
def Obligations.ParseInvertsBuild : Prop :=
  (∀ F : Bytes, F.length < 16 → parseFrame F = .error .frameTooShort) ∧
  (∀ F : Bytes, 16 ≤ F.length → ∃ T, blockBytes T = F.drop (F.length - 16) ∧
    parseFrame F = .ok (F.take (F.length - 16), T)) ∧
  (∀ (C : Bytes) (T : Block), parseFrame (buildFrame C T) = .ok (C, T) ∧
    buildFrame C T = C ++ blockBytes T ∧ (buildFrame C T).length = C.length + 16)

/-- R212: FRAME_BUILD on a length that fits. -/
def Obligations.FrameBuildConcatenates : Prop :=
  ∀ (s : State) (L : Nat), L = s.inputs.ctLen.toNat → L + 16 ≤ s.cfg.bufCap →
    s.cfg.wellFormed = true →
    ∃ t, exec .frameBuild s = .next t ∧ EndedWell t ∧
      t.mem.bufBytes .fr (L + 16) =
        s.inputs.mem.bufBytes .ct L ++ blockBytes (quadBlock s.inputs.tag) ∧
      t.frLen = BitVec.ofNat 32 (L + 16) ∧ t.txValid = false ∧
      KeepsAllBut (ending ++ [.frLen, .txValid]) s t ∧ KeepsBytesBut [(.fr, L + 16)] s t

/-- R213: FRAME_PARSE of a frame of at least 16 bytes, and its FrameTooShort. -/
def Obligations.FrameParseSplits : Prop :=
  ∀ (s : State) (L : Nat), L = s.inputs.frLen.toNat → L ≤ s.cfg.bufCap →
    (16 ≤ L → ∃ t, exec .frameParse s = .next t ∧ EndedWell t ∧
      t.mem.bufBytes .ct (L - 16) ++ blockBytes (quadBlock t.tag) = s.inputs.mem.bufBytes .fr L ∧
      t.ctLen = BitVec.ofNat 32 (L - 16) ∧
      KeepsAllBut (ending ++ [.ctLen, .tag]) s t ∧ KeepsBytesBut [(.ct, L - 16)] s t) ∧
    (L < 16 → ∃ t, exec .frameParse s = .next t ∧ FailsCleanly .frameTooShort s t)

/-! ## Sender -/

/-- R221, R222: with LOCK = 1 no stage of SEND can fail, and its writes are those of the four stages; with
LOCK = 0 it fails with ERRCODE 7 and writes nothing, TX_VALID included. -/
def Obligations.SendBuildsFrame : Prop :=
  ∀ (s : State) (P C : Bytes) (T : Block), s.cfg.wellFormed = true →
    P = blockBytes (encodeReading s.cfg.order s.inputs.rd) →
    C = encryptString P (quadBlock s.inputs.key) (quadBlock s.inputs.iv) →
    T = cmac (quadBlock s.inputs.key) C →
    (s.inputs.lock = true → ∃ t, exec .send s = .next t ∧ EndedWell t ∧
      t.mem.bufBytes .pt 16 = P ∧ t.ptLen = 16#32 ∧
      t.mem.bufBytes .ct 32 = C ∧ t.ctLen = 32#32 ∧
      quadBlock t.tag = T ∧
      t.mem.bufBytes .fr 48 = C ++ blockBytes T ∧ t.frLen = 48#32 ∧ t.txValid = true ∧
      KeepsAllBut (ending ++ [.ptLen, .ctLen, .tag, .frLen, .txValid]) s t ∧
      KeepsBytesBut [(.pt, 16), (.ct, 32), (.fr, 48)] s t) ∧
    (s.inputs.lock = false → ∃ t, exec .send s = .next t ∧ FailsCleanly .keyNotLocked s t ∧
      t.statusWord.extractLsb' 4 4 = 7#4)

/-- R221, corner cases: SEND's result is that of ENCODE, ENCRYPT, TAG_GEN and FRAME_BUILD issued in that
order, followed by setting TX_VALID. -/
def Obligations.SendIsThePipeline : Prop :=
  ∀ s : State, s.pending = none → s.lock = true → s.cfg.wellFormed = true →
    ∃ a b c d t, exec .encode s = .next a ∧ exec .encrypt a = .next b ∧ exec .tagGen b = .next c ∧
      exec .frameBuild c = .next d ∧ exec .send s = .next t ∧ t = { d with txValid := true }

/-! ## Receiver -/

/-- R239, with the effects R228 gives it: FR_LEN 0 to 15 gives Rejected(FrameTooShort) whatever FR holds,
and CT, TAG, PT and RD are unchanged. -/
def Obligations.ShortFrameIsRejected : Prop :=
  ∀ s : State, s.inputs.lock = true → s.inputs.frLen.toNat < 16 → s.cfg.wellFormed = true →
    ∃ t, exec .receive s = .next t ∧ EndedWith .frameTooShort t ∧ StatusShows t 5 5 1 ∧
      t.rxState = .rejected ∧ t.rxReject = .frameTooShort ∧ t.verifyOk = false ∧
      KeepsAllBut (ending ++ [.receiver, .verifyOk]) s t ∧ KeepsBytesBut [] s t

/-- R229, R235: a frame whose tag differs ends in Rejected(TamperDetected); CT, CT_LEN and TAGV hold the
parsed frame, and nothing is decrypted or delivered. -/
def Obligations.TamperedFrameIsRejected : Prop :=
  ∀ (s : State) (C : Bytes) (T : Block), s.inputs.lock = true →
    s.inputs.frLen.toNat ≤ s.cfg.bufCap →
    s.inputs.mem.bufBytes .fr s.inputs.frLen.toNat = C ++ blockBytes T →
    cmac (quadBlock s.inputs.key) C ≠ T →
    ∃ t, exec .receive s = .next t ∧ EndedWith .tamperDetected t ∧ StatusShows t 4 5 2 ∧
      t.rxState = .rejected ∧ t.rxReject = .tamperDetected ∧ t.verifyOk = false ∧
      t.mem.bufBytes .ct C.length = C ∧ t.ctLen = BitVec.ofNat 32 C.length ∧ quadBlock t.tag = T ∧
      KeepsAllBut (ending ++ [.receiver, .verifyOk, .ctLen, .tag]) s t ∧
      KeepsBytesBut [(.ct, C.length)] s t

/-- R230, R240: a frame with a valid tag that does not decrypt ends in Rejected(DecryptionFailed) with
the CipherEngine's own error, which is not TamperDetected; PT is unchanged. -/
def Obligations.UndecryptableFrameIsRejected : Prop :=
  ∀ (s : State) (C : Bytes) (T : Block) (e : ErrCode), s.inputs.lock = true →
    s.inputs.frLen.toNat ≤ s.cfg.bufCap →
    s.inputs.mem.bufBytes .fr s.inputs.frLen.toNat = C ++ blockBytes T →
    cmac (quadBlock s.inputs.key) C = T →
    decryptString C (quadBlock s.inputs.key) (quadBlock s.inputs.iv) = .error e →
    ∃ t, exec .receive s = .next t ∧ EndedWith e t ∧ t.errCode ≠ .tamperDetected ∧
      (C.length % 16 ≠ 0 → StatusShows t 3 5 3) ∧
      (C.length % 16 = 0 → StatusShows t 2 5 3) ∧
      t.rxState = .rejected ∧ t.rxReject = .decryptionFailed ∧ t.verifyOk = true ∧
      t.mem.bufBytes .ct C.length = C ∧ t.ctLen = BitVec.ofNat 32 C.length ∧ quadBlock t.tag = T ∧
      KeepsAllBut (ending ++ [.receiver, .verifyOk, .ctLen, .tag]) s t ∧
      KeepsBytesBut [(.ct, C.length)] s t

/-- R231, R235: a frame that decrypts to another length than 16 ends in Rejected(SizeMismatch); PT and
PT_LEN hold the decrypted bytes and RD is unchanged. -/
def Obligations.WrongSizeFrameIsRejected : Prop :=
  ∀ (s : State) (C D : Bytes) (T : Block), s.inputs.lock = true →
    s.inputs.frLen.toNat ≤ s.cfg.bufCap → s.cfg.wellFormed = true →
    s.inputs.mem.bufBytes .fr s.inputs.frLen.toNat = C ++ blockBytes T →
    cmac (quadBlock s.inputs.key) C = T →
    decryptString C (quadBlock s.inputs.key) (quadBlock s.inputs.iv) = .ok D → D.length ≠ 16 →
    ∃ t, exec .receive s = .next t ∧ EndedWith .sizeMismatch t ∧ StatusShows t 1 5 4 ∧
      t.rxState = .rejected ∧ t.rxReject = .sizeMismatch ∧ t.verifyOk = true ∧
      t.mem.bufBytes .ct C.length = C ∧ t.ctLen = BitVec.ofNat 32 C.length ∧ quadBlock t.tag = T ∧
      t.mem.bufBytes .pt D.length = D ∧ t.ptLen = BitVec.ofNat 32 D.length ∧
      KeepsAllBut (ending ++ [.receiver, .verifyOk, .ctLen, .tag, .ptLen]) s t ∧
      KeepsBytesBut [(.ct, C.length), (.pt, D.length)] s t

/-- R231: a frame with a valid tag that decrypts to 16 bytes is Delivered: RD holds their Reading. -/
def Obligations.GoodFrameIsDelivered : Prop :=
  ∀ (s : State) (C D : Bytes) (T : Block), s.inputs.lock = true →
    s.inputs.frLen.toNat ≤ s.cfg.bufCap → s.cfg.wellFormed = true →
    s.inputs.mem.bufBytes .fr s.inputs.frLen.toNat = C ++ blockBytes T →
    cmac (quadBlock s.inputs.key) C = T →
    decryptString C (quadBlock s.inputs.key) (quadBlock s.inputs.iv) = .ok D → D.length = 16 →
    ∃ t, exec .receive s = .next t ∧ EndedWell t ∧ StatusShows t 0 4 0 ∧
      t.rxState = .delivered ∧ t.rxReject = .none ∧ t.verifyOk = true ∧
      blockBytes (encodeReading s.cfg.order t.rd) = D ∧
      t.mem.bufBytes .ct C.length = C ∧ t.ctLen = BitVec.ofNat 32 C.length ∧ quadBlock t.tag = T ∧
      t.mem.bufBytes .pt 16 = D ∧ t.ptLen = 16#32 ∧
      KeepsAllBut (ending ++ [.receiver, .verifyOk, .ctLen, .tag, .ptLen, .rd]) s t ∧
      KeepsBytesBut [(.ct, C.length), (.pt, 16)] s t

/-- R237: the Receiver does not check for 48 bytes, any FR_LEN of at least 16 proceeds to Verifying, and
only 48 can be Delivered. -/
def Obligations.OnlyFortyEightBytesAreDelivered : Prop :=
  (∀ s : State, s.inputs.lock = true → 16 ≤ s.inputs.frLen.toNat →
    s.inputs.frLen.toNat ≤ s.cfg.bufCap → .verifying ∈ rxPath (rxOutcome s.cfg s.inputs)) ∧
  (∀ s t : State, exec .receive s = .next t → t.rxState = .delivered → s.inputs.frLen = 48#32)

/-- R238: the round trip, across two blocks with one KEY, IV and READING_BYTE_ORDER, and in one block
that receives its own frame: the Reading is delivered bit for bit. -/
def Obligations.RoundTripDeliversTheReading : Prop :=
  ∀ s t r : State, s.inputs.lock = true → s.cfg.wellFormed = true → exec .send s = .next t →
    (r.inputs.lock = true → r.cfg.wellFormed = true → r.cfg.order = s.cfg.order →
      r.inputs.key = s.inputs.key → r.inputs.iv = s.inputs.iv → r.inputs.frLen = 48#32 →
      r.inputs.mem.bufBytes .fr 48 = t.mem.bufBytes .fr 48 →
      ∃ u, exec .receive r = .next u ∧ EndedWell u ∧ u.rxState = .delivered ∧ u.rd = s.inputs.rd) ∧
    (s.pending = none →
      ∃ u, exec .receive t = .next u ∧ EndedWell u ∧ u.rxState = .delivered ∧ u.rd = s.rd)

/-- R225: a valid Sender frame changed within one of its three 16-byte blocks, so in particular by any
single-bit flip, ends in Rejected(TamperDetected), and no Reading is delivered. -/
def Obligations.ChangedFrameIsDetected : Prop :=
  ∀ s t r : State, s.inputs.lock = true → s.cfg.wellFormed = true → exec .send s = .next t →
    r.inputs.lock = true → r.cfg.wellFormed = true → r.inputs.key = s.inputs.key →
    r.inputs.frLen = 48#32 →
    DifferInOneBlock (t.mem.bufBytes .fr 48) (r.inputs.mem.bufBytes .fr 48) →
    ∃ u, exec .receive r = .next u ∧ EndedWith .tamperDetected u ∧ u.rxState = .rejected ∧
      u.rxReject = .tamperDetected ∧ u.rd = r.rd

/-- R58: nothing carries over from one message to the next. The outcome of a RECEIVE is a function of
FR[0..FR_LEN), FR_LEN, KEY, IV and LOCK, and that of a SEND of RD, KEY, IV and LOCK, in blocks built
alike. -/
def Obligations.NothingCarriesOver : Prop :=
  (∀ s r t u : State, r.cfg = s.cfg → r.inputs.lock = s.inputs.lock → r.inputs.key = s.inputs.key →
    r.inputs.iv = s.inputs.iv → r.inputs.frLen = s.inputs.frLen →
    r.inputs.mem.bufBytes .fr r.inputs.frLen.toNat = s.inputs.mem.bufBytes .fr s.inputs.frLen.toNat →
    exec .receive s = .next t → exec .receive r = .next u →
    u.rxState = t.rxState ∧ u.rxReject = t.rxReject ∧ u.errCode = t.errCode ∧
      (t.rxState = .delivered → u.rd = t.rd)) ∧
  (∀ s r t u : State, s.cfg.wellFormed = true → r.cfg = s.cfg → r.inputs.lock = s.inputs.lock →
    r.inputs.key = s.inputs.key → r.inputs.iv = s.inputs.iv → r.inputs.rd = s.inputs.rd →
    exec .send s = .next t → exec .send r = .next u →
    u.errCode = t.errCode ∧ (s.inputs.lock = true →
      u.mem.bufBytes .fr 48 = t.mem.bufBytes .fr 48 ∧ u.frLen = t.frLen ∧ u.tag = t.tag))

/-- R270: the pair of RX_REJECT and ERRCODE a RECEIVE that ends in Rejected ends with, by name and by
number; and R233: every other one is Delivered, or stays in AwaitingFrame on KeyNotLocked and LengthError. -/
def Obligations.RejectCategoriesMapToCodes : Prop :=
  ∀ s t : State, exec .receive s = .next t →
    (t.rxState = .rejected ∧
      ((t.rxReject = .frameTooShort ∧ t.errCode = .frameTooShort ∧ StatusShows t 5 5 1) ∨
       (t.rxReject = .tamperDetected ∧ t.errCode = .tamperDetected ∧ StatusShows t 4 5 2) ∨
       (t.rxReject = .decryptionFailed ∧
         ((t.errCode = .paddingError ∧ StatusShows t 2 5 3) ∨
          (t.errCode = .blockAlignmentError ∧ StatusShows t 3 5 3))) ∨
       (t.rxReject = .sizeMismatch ∧ t.errCode = .sizeMismatch ∧ StatusShows t 1 5 4))) ∨
    (t.rxState = .delivered ∧ t.rxReject = .none ∧ t.errCode = .none ∧ StatusShows t 0 4 0) ∨
    (t.rxState = .awaitingFrame ∧ t.rxReject = .none ∧
      ((t.errCode = .keyNotLocked ∧ StatusShows t 7 0 0) ∨ (t.errCode = .lengthError ∧ StatusShows t 8 0 0)))

/-- R241: while a RECEIVE runs, a read of STATUS shows a state on its path, at the place `rxSeen`, never one
before a state already shown, and on the clock of completion too; every step without reset that leaves it
running keeps its outcome and never moves that place back; and at completion RX_STATE is the path's last
state. How a read moves along the path, and that a read on the clock of completion still shows the running
command, are the model's choices (log 6, log 9). -/
def Obligations.ReceiverStateReadsFollowThePath : Prop :=
  (∀ (s : State) (p : Pending) (rest : List BusOp), Inv s → s.pending = some p →
    decode p.word = .ok .receive → s.bus = .read 4 0x008#12 :: rest →
    ∃ u q w t, s.hostClock = .next u ∧ u.pending = some q ∧ q.snap = p.snap ∧ q.left = p.left ∧
      p.rxSeen ≤ q.rxSeen ∧ u.readData = some w ∧
      (rxPathCodes (rxOutcome s.cfg p.snap))[q.rxSeen]? = some (w.extractLsb' 8 3) ∧
      step s = .next t ∧ t.readData = some w ∧
      (∀ n, p.left = n + 1 → t.pending = some { q with left := n }) ∧
      (p.left = 0 → t.pending = none ∧ exec .receive u = .next t)) ∧
  (∀ (s t : State) (p q : Pending), s.pending = some p → NoReset s → step s = .next t →
    t.pending = some q →
    q.word = p.word ∧ q.snap = p.snap ∧ t.cfg = s.cfg ∧ p.rxSeen ≤ q.rxSeen) ∧
  (∀ s t : State, exec .receive s = .next t →
    (rxPath (rxOutcome s.cfg s.inputs)).getLast? = some t.rxState ∧
    (rxPathCodes (rxOutcome s.cfg s.inputs)).getLast? = some (t.statusWord.extractLsb' 8 3))

/-! ## The block's invariant -/

/-- The invariant holds after reset. -/
def Obligations.InvariantHoldsAtReset : Prop := Inv State.reset

/-- Every step keeps the invariant: memory stays canonical and inside the buffers, ERR and ERRCODE and
RX_STATE and RX_REJECT agree (R40, R42, R43), and a running command keeps a legal word, its cleared
record and a live snapshot (R57, R286, R288). The canonical form is the model's (log 16). -/
def Obligations.StepKeepsInvariant : Prop :=
  ∀ s t : State, Inv s → step s = .next t → Inv t
end

