-- ==== Sys2Proof/Laws/AddressMap.lean ====
section
/-! SUPPORT. The laws of the address map (R32): what stands at an offset, one lemma for each range, and
the case split over the ranges. -/

namespace Sys2Proof.Machine

theorem regOf_ctrl (off : Offset) (h' : off.toNat < 0x004) :
    regOf off = .ctrl := by
  simp (disch := omega) only [regOf, if_pos]

theorem regOf_cmd (off : Offset) (h : 0x004 ≤ off.toNat) (h' : off.toNat < 0x008) :
    regOf off = .cmd := by
  simp (disch := omega) only [regOf, if_pos, if_neg]

theorem regOf_status (off : Offset) (h : 0x008 ≤ off.toNat) (h' : off.toNat < 0x00C) :
    regOf off = .status := by
  simp (disch := omega) only [regOf, if_pos, if_neg]

theorem regOf_events (off : Offset) (h : 0x00C ≤ off.toNat) (h' : off.toNat < 0x010) :
    regOf off = .events := by
  simp (disch := omega) only [regOf, if_pos, if_neg]

theorem regOf_key (off : Offset) (h : 0x010 ≤ off.toNat) (h' : off.toNat < 0x020) :
    regOf off = .key (Fin.ofNat 4 (off.toNat / 4)) := by
  simp (disch := omega) only [regOf, if_pos, if_neg]

theorem regOf_iv (off : Offset) (h : 0x020 ≤ off.toNat) (h' : off.toNat < 0x030) :
    regOf off = .iv (Fin.ofNat 4 (off.toNat / 4)) := by
  simp (disch := omega) only [regOf, if_pos, if_neg]

theorem regOf_rd (off : Offset) (h : 0x030 ≤ off.toNat) (h' : off.toNat < 0x040) :
    regOf off = .rd (Fin.ofNat 4 (off.toNat / 4)) := by
  simp (disch := omega) only [regOf, if_pos, if_neg]

theorem regOf_ptLen (off : Offset) (h : 0x040 ≤ off.toNat) (h' : off.toNat < 0x044) :
    regOf off = .ptLen := by
  simp (disch := omega) only [regOf, if_pos, if_neg]

theorem regOf_ctLen (off : Offset) (h : 0x044 ≤ off.toNat) (h' : off.toNat < 0x048) :
    regOf off = .ctLen := by
  simp (disch := omega) only [regOf, if_pos, if_neg]

theorem regOf_frLen (off : Offset) (h : 0x048 ≤ off.toNat) (h' : off.toNat < 0x04C) :
    regOf off = .frLen := by
  simp (disch := omega) only [regOf, if_pos, if_neg]

theorem regOf_cap (off : Offset) (h : 0x04C ≤ off.toNat) (h' : off.toNat < 0x050) :
    regOf off = .cap := by
  simp (disch := omega) only [regOf, if_pos, if_neg]

theorem regOf_tag (off : Offset) (h : 0x050 ≤ off.toNat) (h' : off.toNat < 0x060) :
    regOf off = .tag (Fin.ofNat 4 (off.toNat / 4)) := by
  simp (disch := omega) only [regOf, if_pos, if_neg]

theorem regOf_reservedLow (off : Offset) (h : 0x060 ≤ off.toNat) (h' : off.toNat < 0x100) :
    regOf off = .reservedLow := by
  simp (disch := omega) only [regOf, if_pos, if_neg]

theorem regOf_windowPt (off : Offset) (h : 0x100 ≤ off.toNat) (h' : off.toNat < 0x200) :
    regOf off = .window .pt (Fin.ofNat 64 (off.toNat / 4)) := by
  simp (disch := omega) only [regOf, if_pos, if_neg]

theorem regOf_windowCt (off : Offset) (h : 0x200 ≤ off.toNat) (h' : off.toNat < 0x300) :
    regOf off = .window .ct (Fin.ofNat 64 (off.toNat / 4)) := by
  simp (disch := omega) only [regOf, if_pos, if_neg]

theorem regOf_windowFr (off : Offset) (h : 0x300 ≤ off.toNat) (h' : off.toNat < 0x400) :
    regOf off = .window .fr (Fin.ofNat 64 (off.toNat / 4)) := by
  simp (disch := omega) only [regOf, if_pos, if_neg]

theorem regOf_reservedHigh (off : Offset) (h : 0x400 ≤ off.toNat) :
    regOf off = .reservedHigh := by
  simp (disch := omega) only [regOf, if_neg]

/-- The ranges of the address map. -/
theorem regOf_cases (off : Offset) :
    (off.toNat < 0x004 ∧ regOf off = .ctrl) ∨
    (0x004 ≤ off.toNat ∧ off.toNat < 0x008 ∧ regOf off = .cmd) ∨
    (0x008 ≤ off.toNat ∧ off.toNat < 0x00C ∧ regOf off = .status) ∨
    (0x00C ≤ off.toNat ∧ off.toNat < 0x010 ∧ regOf off = .events) ∨
    (0x010 ≤ off.toNat ∧ off.toNat < 0x020 ∧ regOf off = .key (Fin.ofNat 4 (off.toNat / 4))) ∨
    (0x020 ≤ off.toNat ∧ off.toNat < 0x030 ∧ regOf off = .iv (Fin.ofNat 4 (off.toNat / 4))) ∨
    (0x030 ≤ off.toNat ∧ off.toNat < 0x040 ∧ regOf off = .rd (Fin.ofNat 4 (off.toNat / 4))) ∨
    (0x040 ≤ off.toNat ∧ off.toNat < 0x044 ∧ regOf off = .ptLen) ∨
    (0x044 ≤ off.toNat ∧ off.toNat < 0x048 ∧ regOf off = .ctLen) ∨
    (0x048 ≤ off.toNat ∧ off.toNat < 0x04C ∧ regOf off = .frLen) ∨
    (0x04C ≤ off.toNat ∧ off.toNat < 0x050 ∧ regOf off = .cap) ∨
    (0x050 ≤ off.toNat ∧ off.toNat < 0x060 ∧ regOf off = .tag (Fin.ofNat 4 (off.toNat / 4))) ∨
    (0x060 ≤ off.toNat ∧ off.toNat < 0x100 ∧ regOf off = .reservedLow) ∨
    (0x100 ≤ off.toNat ∧ off.toNat < 0x200 ∧ regOf off = .window .pt (Fin.ofNat 64 (off.toNat / 4))) ∨
    (0x200 ≤ off.toNat ∧ off.toNat < 0x300 ∧ regOf off = .window .ct (Fin.ofNat 64 (off.toNat / 4))) ∨
    (0x300 ≤ off.toNat ∧ off.toNat < 0x400 ∧ regOf off = .window .fr (Fin.ofNat 64 (off.toNat / 4))) ∨
    (0x400 ≤ off.toNat ∧ regOf off = .reservedHigh) := by
  by_cases h0 : off.toNat < 0x004
  · exact .inl ⟨h0, regOf_ctrl off h0⟩
  refine .inr ?_
  by_cases h1 : off.toNat < 0x008
  · exact .inl ⟨by omega, h1, regOf_cmd off (by omega) h1⟩
  refine .inr ?_
  by_cases h2 : off.toNat < 0x00C
  · exact .inl ⟨by omega, h2, regOf_status off (by omega) h2⟩
  refine .inr ?_
  by_cases h3 : off.toNat < 0x010
  · exact .inl ⟨by omega, h3, regOf_events off (by omega) h3⟩
  refine .inr ?_
  by_cases h4 : off.toNat < 0x020
  · exact .inl ⟨by omega, h4, regOf_key off (by omega) h4⟩
  refine .inr ?_
  by_cases h5 : off.toNat < 0x030
  · exact .inl ⟨by omega, h5, regOf_iv off (by omega) h5⟩
  refine .inr ?_
  by_cases h6 : off.toNat < 0x040
  · exact .inl ⟨by omega, h6, regOf_rd off (by omega) h6⟩
  refine .inr ?_
  by_cases h7 : off.toNat < 0x044
  · exact .inl ⟨by omega, h7, regOf_ptLen off (by omega) h7⟩
  refine .inr ?_
  by_cases h8 : off.toNat < 0x048
  · exact .inl ⟨by omega, h8, regOf_ctLen off (by omega) h8⟩
  refine .inr ?_
  by_cases h9 : off.toNat < 0x04C
  · exact .inl ⟨by omega, h9, regOf_frLen off (by omega) h9⟩
  refine .inr ?_
  by_cases h10 : off.toNat < 0x050
  · exact .inl ⟨by omega, h10, regOf_cap off (by omega) h10⟩
  refine .inr ?_
  by_cases h11 : off.toNat < 0x060
  · exact .inl ⟨by omega, h11, regOf_tag off (by omega) h11⟩
  refine .inr ?_
  by_cases h12 : off.toNat < 0x100
  · exact .inl ⟨by omega, h12, regOf_reservedLow off (by omega) h12⟩
  refine .inr ?_
  by_cases h13 : off.toNat < 0x200
  · exact .inl ⟨by omega, h13, regOf_windowPt off (by omega) h13⟩
  refine .inr ?_
  by_cases h14 : off.toNat < 0x300
  · exact .inl ⟨by omega, h14, regOf_windowCt off (by omega) h14⟩
  refine .inr ?_
  by_cases h15 : off.toNat < 0x400
  · exact .inl ⟨by omega, h15, regOf_windowFr off (by omega) h15⟩
  refine .inr ?_
  exact ⟨by omega, regOf_reservedHigh off (by omega)⟩

end Sys2Proof.Machine
end

