-- ==== Sys2Proof/Laws/Flags.lean ====
section
/-! SUPPORT. The laws of the status words: each field of STATUS reads as the value it was packed from. -/

namespace Sys2Proof.Machine

theorem packStatus_errCode (b e v : Bool) (c : ErrCode) (x : RxState) (j : RxReject) :
    (packStatus b e v c x j).extractLsb' 4 4 = errCodeBits c := by
  ext k hk
  simp only [BitVec.getElem_extractLsb', packStatus, BitVec.getLsbD_append]
  interval_cases k <;> simp

theorem packStatus_rxState (b e v : Bool) (c : ErrCode) (x : RxState) (j : RxReject) :
    (packStatus b e v c x j).extractLsb' 8 3 = rxStateBits x := by
  ext k hk
  simp only [BitVec.getElem_extractLsb', packStatus, BitVec.getLsbD_append]
  interval_cases k <;> simp

theorem packStatus_rxReject (b e v : Bool) (c : ErrCode) (x : RxState) (j : RxReject) :
    (packStatus b e v c x j).extractLsb' 12 3 = rxRejectBits j := by
  ext k hk
  simp only [BitVec.getElem_extractLsb', packStatus, BitVec.getLsbD_append]
  interval_cases k <;> simp

/-- What STATUS shows is the codes of the record and of the Receiver (R38, R40, R42, R43). -/
theorem statusShows_iff (t : State) (code : BitVec 4) (rx rej : BitVec 3) :
    StatusShows t code rx rej ↔
      errCodeBits t.errCode = code ∧ rxStateBits t.rxState = rx ∧ rxRejectBits t.rxReject = rej := by
  simp only [StatusShows, State.statusWord, packStatus_errCode, packStatus_rxState, packStatus_rxReject]

/-- The codes of a path are those of its states (R42, R241). -/
theorem rxPathCodes_eq_map (o : RxOutcome) : rxPathCodes o = (rxPath o).map rxStateBits := by
  cases o <;> rfl

end Sys2Proof.Machine
end

