-- ==== Sys2Proof/Laws/Memory.lean ====
section
/-! SUPPORT. The laws of the buffers' memory: a read after a write of the same address gives the value
written, a write leaves every other address alone, and every operation keeps the canonical form. -/

namespace Sys2Proof.Machine

theorem lookupCell_insertCell_same (l : List Host.Cell) (a : Nat) (v : Byte) :
    lookupCell (insertCell a v l) a = some v := by
  induction l with
  | nil => simp [insertCell, lookupCell]
  | cons c rest ih =>
    obtain ⟨b, w⟩ := c
    unfold insertCell
    split
    · simp [lookupCell]
    · split
      · simp [lookupCell]
      · simp [lookupCell, *]

theorem lookupCell_insertCell_other (l : List Host.Cell) (a b : Nat) (v : Byte) (h : b ≠ a) :
    lookupCell (insertCell a v l) b = lookupCell l b := by
  induction l with
  | nil => simp [insertCell, lookupCell, h]
  | cons c rest ih =>
    obtain ⟨x, w⟩ := c
    unfold insertCell
    split
    · simp [lookupCell, h]
    · split
      · rename_i h1 h2
        subst h2
        simp [lookupCell, h]
      · simp [lookupCell, ih]

@[simp] theorem Memory.write_epoch (m : Memory) (a : Nat) (v : Byte) : (m.write a v).epoch = m.epoch := rfl

@[simp] theorem Memory.read_write_same (m : Memory) (a : Nat) (v : Byte) : (m.write a v).read a = v := by
  simp [Memory.read, Memory.write, lookupCell_insertCell_same]

theorem Memory.read_write_other (m : Memory) (a b : Nat) (v : Byte) (h : b ≠ a) :
    (m.write a v).read b = m.read b := by
  simp [Memory.read, Memory.write, lookupCell_insertCell_other _ _ _ _ h]

@[simp] theorem Memory.writeBytes_nil (m : Memory) (a : Nat) : m.writeBytes a [] = m := rfl

theorem Memory.writeBytes_cons (m : Memory) (a : Nat) (v : Byte) (vs : Bytes) :
    m.writeBytes a (v :: vs) = (m.write a v).writeBytes (a + 1) vs := rfl

@[simp] theorem Memory.writeBytes_epoch (m : Memory) (a : Nat) (vs : Bytes) :
    (m.writeBytes a vs).epoch = m.epoch := by
  induction vs generalizing m a with
  | nil => rfl
  | cons v vs ih => simp [Memory.writeBytes_cons, ih]

/-- A stored string leaves every byte outside it alone. -/
theorem Memory.read_writeBytes_outside (m : Memory) (a b : Nat) (vs : Bytes)
    (h : b < a ∨ a + vs.length ≤ b) : (m.writeBytes a vs).read b = m.read b := by
  induction vs generalizing m a with
  | nil => rfl
  | cons v vs ih =>
    rw [Memory.writeBytes_cons, ih, Memory.read_write_other]
    all_goals simp only [List.length_cons] at h; omega

/-- Byte `i` of a stored string reads back. -/
theorem Memory.read_writeBytes_inside (m : Memory) (a i : Nat) (vs : Bytes) (h : i < vs.length) :
    (m.writeBytes a vs).read (a + i) = vs[i] := by
  induction vs generalizing m a i with
  | nil => simp at h
  | cons v vs ih =>
    rw [Memory.writeBytes_cons]
    cases i with
    | zero => rw [Memory.read_writeBytes_outside _ _ _ _ (by omega)]; simp
    | succ i =>
      have := ih (m.write a v) (a + 1) i (by simpa using h)
      rw [show a + (i + 1) = a + 1 + i by omega, this]
      simp

@[simp] theorem Memory.readBytes_length (m : Memory) (a n : Nat) : (m.readBytes a n).length = n := by
  induction n generalizing a with
  | zero => rfl
  | succ n ih => simp [Memory.readBytes, ih]

@[simp] theorem Memory.bufBytes_length (m : Memory) (b : Buf) (n : Nat) : (m.bufBytes b n).length = n :=
  Memory.readBytes_length ..

theorem Memory.readBytes_getElem (m : Memory) (a n i : Nat) (h : i < (m.readBytes a n).length) :
    (m.readBytes a n)[i] = m.read (a + i) := by
  induction n generalizing a i with
  | zero => simp at h
  | succ n ih =>
    cases i with
    | zero => rfl
    | succ i =>
      simp only [Memory.readBytes, List.getElem_cons_succ, ih]
      rw [show a + 1 + i = a + (i + 1) by omega]

/-- Two memories that agree on a stretch give the same string there. -/
theorem Memory.readBytes_congr (m m' : Memory) (a n : Nat)
    (h : ∀ b, a ≤ b → b < a + n → m'.read b = m.read b) : m'.readBytes a n = m.readBytes a n := by
  apply List.ext_getElem (by simp)
  intro i hi _
  simp only [Memory.readBytes_length] at hi
  rw [Memory.readBytes_getElem, Memory.readBytes_getElem, h] <;> omega

/-- A stored string reads back whole. -/
@[simp] theorem Memory.readBytes_writeBytes_same (m : Memory) (a : Nat) (vs : Bytes) :
    (m.writeBytes a vs).readBytes a vs.length = vs := by
  apply List.ext_getElem (by simp)
  intro i _ hi
  rw [Memory.readBytes_getElem, Memory.read_writeBytes_inside _ _ _ _ hi]

/-- A stored string leaves every stretch that does not meet it alone. -/
theorem Memory.readBytes_writeBytes_outside (m : Memory) (a b n : Nat) (vs : Bytes)
    (h : b + n ≤ a ∨ a + vs.length ≤ b) : (m.writeBytes a vs).readBytes b n = m.readBytes b n :=
  Memory.readBytes_congr _ _ _ _ fun c h1 h2 => Memory.read_writeBytes_outside _ _ _ _ (by omega)

/-- A prefix of a stretch. -/
theorem Memory.readBytes_add (m : Memory) (a n k : Nat) :
    m.readBytes a (n + k) = m.readBytes a n ++ m.readBytes (a + n) k := by
  induction n generalizing a with
  | zero => simp [Memory.readBytes]
  | succ n ih =>
    rw [show n + 1 + k = (n + k) + 1 by omega]
    simp only [Memory.readBytes, ih, List.cons_append]
    rw [show a + 1 + n = a + (n + 1) by omega]

theorem mem_insertCell (l : List Host.Cell) (a : Nat) (v : Byte) (c : Host.Cell)
    (h : c ∈ insertCell a v l) : c = (a, v) ∨ c ∈ l := by
  induction l with
  | nil => simpa [insertCell] using h
  | cons x rest ih =>
    obtain ⟨b, w⟩ := x
    unfold insertCell at h
    split at h
    · simpa using h
    · split at h
      · rcases List.mem_cons.1 h with h | h
        · exact .inl h
        · exact .inr (List.mem_cons_of_mem _ h)
      · rcases List.mem_cons.1 h with h | h
        · exact .inr (by simp [h])
        · exact (ih h).imp_right (List.mem_cons_of_mem _)

theorem risingFrom_insertCell (l : List Host.Cell) (lo a : Nat) (v : Byte)
    (h : risingFrom lo l = true) (ha : lo ≤ a) : risingFrom lo (insertCell a v l) = true := by
  induction l generalizing lo with
  | nil => simp [insertCell, risingFrom, ha]
  | cons x rest ih =>
    obtain ⟨b, w⟩ := x
    simp only [risingFrom, Bool.and_eq_true, decide_eq_true_eq] at h
    unfold insertCell
    split
    · simp only [risingFrom, Bool.and_eq_true, decide_eq_true_eq]
      exact ⟨ha, by omega, h.2⟩
    · split
      · rename_i h2
        subst h2
        simpa [risingFrom] using h
      · simp only [risingFrom, Bool.and_eq_true, decide_eq_true_eq]
        exact ⟨h.1, ih _ h.2 (by omega)⟩

/-- The cells a write can list: the one it writes and those listed before. -/
theorem Memory.mem_cells_write (m : Memory) (a : Nat) (v : Byte) (c : Host.Cell)
    (h : c ∈ (m.write a v).cells) : c = (a, v) ∨ c ∈ m.cells :=
  mem_insertCell _ _ _ _ h

/-- A write of a buffer byte keeps the canonical form. -/
theorem Memory.write_wf (m : Memory) (a : Nat) (v : Byte) (h : m.wf = true)
    (h1 : 0x100 ≤ a) (h2 : a < 0x400) : (m.write a v).wf = true := by
  simp only [Memory.wf, Bool.and_eq_true, List.all_eq_true, decide_eq_true_eq] at h ⊢
  refine ⟨risingFrom_insertCell _ _ _ _ h.1 h1, fun c hc => ?_⟩
  rcases m.mem_cells_write a v c hc with rfl | hc
  · exact h2
  · exact h.2 c hc

/-- A stored string keeps the canonical form. -/
theorem Memory.writeBytes_wf (m : Memory) (a : Nat) (vs : Bytes) (h : m.wf = true)
    (h1 : 0x100 ≤ a) (h2 : a + vs.length ≤ 0x400) : (m.writeBytes a vs).wf = true := by
  induction vs generalizing m a with
  | nil => exact h
  | cons v vs ih =>
    simp only [List.length_cons] at h2
    exact ih _ _ (m.write_wf a v h h1 (by omega)) (by omega) (by omega)

/-- The cells a stored string can list: bytes of the string's own stretch and those listed before. -/
theorem Memory.mem_cells_writeBytes (m : Memory) (a : Nat) (vs : Bytes) (c : Host.Cell)
    (h : c ∈ (m.writeBytes a vs).cells) : (a ≤ c.1 ∧ c.1 < a + vs.length) ∨ c ∈ m.cells := by
  induction vs generalizing m a with
  | nil => exact .inr h
  | cons v vs ih =>
    rcases ih _ _ h with h | h
    · exact .inl (by simp only [List.length_cons]; omega)
    · rcases m.mem_cells_write a v c h with rfl | h
      · exact .inl (by simp)
      · exact .inr h

/-- The memory after reset has the canonical form. -/
theorem State.reset_mem_wf : State.reset.mem.wf = true := rfl

end Sys2Proof.Machine
end

