-- ==== Sys2Proof/Laws/State.lean ====
section
/-! SUPPORT. One lemma for each field of State and each update of it: what the field holds after the
update. They are true by rfl, or by the lemmas above them where an update is made of many (and after a
split where the command chooses the update), and tagged simp, so that no later proof unfolds a record update. -/

namespace Sys2Proof.Machine

@[simp] theorem State.storeBuf_cfg (s : State) (b : Buf) (d : Bytes) : (s.storeBuf b d).cfg = s.cfg := rfl
@[simp] theorem State.storeBuf_lock (s : State) (b : Buf) (d : Bytes) : (s.storeBuf b d).lock = s.lock := rfl
@[simp] theorem State.storeBuf_ie (s : State) (b : Buf) (d : Bytes) : (s.storeBuf b d).ie = s.ie := rfl
@[simp] theorem State.storeBuf_err (s : State) (b : Buf) (d : Bytes) : (s.storeBuf b d).err = s.err := rfl
@[simp] theorem State.storeBuf_verifyOk (s : State) (b : Buf) (d : Bytes) :
    (s.storeBuf b d).verifyOk = s.verifyOk := rfl
@[simp] theorem State.storeBuf_errCode (s : State) (b : Buf) (d : Bytes) :
    (s.storeBuf b d).errCode = s.errCode := rfl
@[simp] theorem State.storeBuf_rxState (s : State) (b : Buf) (d : Bytes) :
    (s.storeBuf b d).rxState = s.rxState := rfl
@[simp] theorem State.storeBuf_rxReject (s : State) (b : Buf) (d : Bytes) :
    (s.storeBuf b d).rxReject = s.rxReject := rfl
@[simp] theorem State.storeBuf_done (s : State) (b : Buf) (d : Bytes) : (s.storeBuf b d).done = s.done := rfl
@[simp] theorem State.storeBuf_txValid (s : State) (b : Buf) (d : Bytes) :
    (s.storeBuf b d).txValid = s.txValid := rfl
@[simp] theorem State.storeBuf_overrun (s : State) (b : Buf) (d : Bytes) :
    (s.storeBuf b d).overrun = s.overrun := rfl
@[simp] theorem State.storeBuf_key (s : State) (b : Buf) (d : Bytes) : (s.storeBuf b d).key = s.key := rfl
@[simp] theorem State.storeBuf_iv (s : State) (b : Buf) (d : Bytes) : (s.storeBuf b d).iv = s.iv := rfl
@[simp] theorem State.storeBuf_rd (s : State) (b : Buf) (d : Bytes) : (s.storeBuf b d).rd = s.rd := rfl
@[simp] theorem State.storeBuf_ptLen (s : State) (b : Buf) (d : Bytes) :
    (s.storeBuf b d).ptLen = s.ptLen := rfl
@[simp] theorem State.storeBuf_ctLen (s : State) (b : Buf) (d : Bytes) :
    (s.storeBuf b d).ctLen = s.ctLen := rfl
@[simp] theorem State.storeBuf_frLen (s : State) (b : Buf) (d : Bytes) :
    (s.storeBuf b d).frLen = s.frLen := rfl
@[simp] theorem State.storeBuf_tag (s : State) (b : Buf) (d : Bytes) : (s.storeBuf b d).tag = s.tag := rfl
@[simp] theorem State.storeBuf_mem (s : State) (b : Buf) (d : Bytes) :
    (s.storeBuf b d).mem = s.mem.writeBytes (bufBase b) d := rfl
@[simp] theorem State.storeBuf_pending (s : State) (b : Buf) (d : Bytes) :
    (s.storeBuf b d).pending = s.pending := rfl
@[simp] theorem State.storeBuf_bus (s : State) (b : Buf) (d : Bytes) : (s.storeBuf b d).bus = s.bus := rfl
@[simp] theorem State.storeBuf_readData (s : State) (b : Buf) (d : Bytes) :
    (s.storeBuf b d).readData = s.readData := rfl
@[simp] theorem State.storeBuf_draws (s : State) (b : Buf) (d : Bytes) :
    (s.storeBuf b d).draws = s.draws := rfl

@[simp] theorem State.setPtLen_cfg (s : State) (v : Word) : (s.setPtLen v).cfg = s.cfg := rfl
@[simp] theorem State.setPtLen_lock (s : State) (v : Word) : (s.setPtLen v).lock = s.lock := rfl
@[simp] theorem State.setPtLen_ie (s : State) (v : Word) : (s.setPtLen v).ie = s.ie := rfl
@[simp] theorem State.setPtLen_err (s : State) (v : Word) : (s.setPtLen v).err = s.err := rfl
@[simp] theorem State.setPtLen_verifyOk (s : State) (v : Word) : (s.setPtLen v).verifyOk = s.verifyOk := rfl
@[simp] theorem State.setPtLen_errCode (s : State) (v : Word) : (s.setPtLen v).errCode = s.errCode := rfl
@[simp] theorem State.setPtLen_rxState (s : State) (v : Word) : (s.setPtLen v).rxState = s.rxState := rfl
@[simp] theorem State.setPtLen_rxReject (s : State) (v : Word) : (s.setPtLen v).rxReject = s.rxReject := rfl
@[simp] theorem State.setPtLen_done (s : State) (v : Word) : (s.setPtLen v).done = s.done := rfl
@[simp] theorem State.setPtLen_txValid (s : State) (v : Word) : (s.setPtLen v).txValid = s.txValid := rfl
@[simp] theorem State.setPtLen_overrun (s : State) (v : Word) : (s.setPtLen v).overrun = s.overrun := rfl
@[simp] theorem State.setPtLen_key (s : State) (v : Word) : (s.setPtLen v).key = s.key := rfl
@[simp] theorem State.setPtLen_iv (s : State) (v : Word) : (s.setPtLen v).iv = s.iv := rfl
@[simp] theorem State.setPtLen_rd (s : State) (v : Word) : (s.setPtLen v).rd = s.rd := rfl
@[simp] theorem State.setPtLen_ptLen (s : State) (v : Word) : (s.setPtLen v).ptLen = v := rfl
@[simp] theorem State.setPtLen_ctLen (s : State) (v : Word) : (s.setPtLen v).ctLen = s.ctLen := rfl
@[simp] theorem State.setPtLen_frLen (s : State) (v : Word) : (s.setPtLen v).frLen = s.frLen := rfl
@[simp] theorem State.setPtLen_tag (s : State) (v : Word) : (s.setPtLen v).tag = s.tag := rfl
@[simp] theorem State.setPtLen_mem (s : State) (v : Word) : (s.setPtLen v).mem = s.mem := rfl
@[simp] theorem State.setPtLen_pending (s : State) (v : Word) : (s.setPtLen v).pending = s.pending := rfl
@[simp] theorem State.setPtLen_bus (s : State) (v : Word) : (s.setPtLen v).bus = s.bus := rfl
@[simp] theorem State.setPtLen_readData (s : State) (v : Word) : (s.setPtLen v).readData = s.readData := rfl
@[simp] theorem State.setPtLen_draws (s : State) (v : Word) : (s.setPtLen v).draws = s.draws := rfl

@[simp] theorem State.setCtLen_cfg (s : State) (v : Word) : (s.setCtLen v).cfg = s.cfg := rfl
@[simp] theorem State.setCtLen_lock (s : State) (v : Word) : (s.setCtLen v).lock = s.lock := rfl
@[simp] theorem State.setCtLen_ie (s : State) (v : Word) : (s.setCtLen v).ie = s.ie := rfl
@[simp] theorem State.setCtLen_err (s : State) (v : Word) : (s.setCtLen v).err = s.err := rfl
@[simp] theorem State.setCtLen_verifyOk (s : State) (v : Word) : (s.setCtLen v).verifyOk = s.verifyOk := rfl
@[simp] theorem State.setCtLen_errCode (s : State) (v : Word) : (s.setCtLen v).errCode = s.errCode := rfl
@[simp] theorem State.setCtLen_rxState (s : State) (v : Word) : (s.setCtLen v).rxState = s.rxState := rfl
@[simp] theorem State.setCtLen_rxReject (s : State) (v : Word) : (s.setCtLen v).rxReject = s.rxReject := rfl
@[simp] theorem State.setCtLen_done (s : State) (v : Word) : (s.setCtLen v).done = s.done := rfl
@[simp] theorem State.setCtLen_txValid (s : State) (v : Word) : (s.setCtLen v).txValid = s.txValid := rfl
@[simp] theorem State.setCtLen_overrun (s : State) (v : Word) : (s.setCtLen v).overrun = s.overrun := rfl
@[simp] theorem State.setCtLen_key (s : State) (v : Word) : (s.setCtLen v).key = s.key := rfl
@[simp] theorem State.setCtLen_iv (s : State) (v : Word) : (s.setCtLen v).iv = s.iv := rfl
@[simp] theorem State.setCtLen_rd (s : State) (v : Word) : (s.setCtLen v).rd = s.rd := rfl
@[simp] theorem State.setCtLen_ptLen (s : State) (v : Word) : (s.setCtLen v).ptLen = s.ptLen := rfl
@[simp] theorem State.setCtLen_ctLen (s : State) (v : Word) : (s.setCtLen v).ctLen = v := rfl
@[simp] theorem State.setCtLen_frLen (s : State) (v : Word) : (s.setCtLen v).frLen = s.frLen := rfl
@[simp] theorem State.setCtLen_tag (s : State) (v : Word) : (s.setCtLen v).tag = s.tag := rfl
@[simp] theorem State.setCtLen_mem (s : State) (v : Word) : (s.setCtLen v).mem = s.mem := rfl
@[simp] theorem State.setCtLen_pending (s : State) (v : Word) : (s.setCtLen v).pending = s.pending := rfl
@[simp] theorem State.setCtLen_bus (s : State) (v : Word) : (s.setCtLen v).bus = s.bus := rfl
@[simp] theorem State.setCtLen_readData (s : State) (v : Word) : (s.setCtLen v).readData = s.readData := rfl
@[simp] theorem State.setCtLen_draws (s : State) (v : Word) : (s.setCtLen v).draws = s.draws := rfl

@[simp] theorem State.setFrLen_cfg (s : State) (v : Word) : (s.setFrLen v).cfg = s.cfg := rfl
@[simp] theorem State.setFrLen_lock (s : State) (v : Word) : (s.setFrLen v).lock = s.lock := rfl
@[simp] theorem State.setFrLen_ie (s : State) (v : Word) : (s.setFrLen v).ie = s.ie := rfl
@[simp] theorem State.setFrLen_err (s : State) (v : Word) : (s.setFrLen v).err = s.err := rfl
@[simp] theorem State.setFrLen_verifyOk (s : State) (v : Word) : (s.setFrLen v).verifyOk = s.verifyOk := rfl
@[simp] theorem State.setFrLen_errCode (s : State) (v : Word) : (s.setFrLen v).errCode = s.errCode := rfl
@[simp] theorem State.setFrLen_rxState (s : State) (v : Word) : (s.setFrLen v).rxState = s.rxState := rfl
@[simp] theorem State.setFrLen_rxReject (s : State) (v : Word) : (s.setFrLen v).rxReject = s.rxReject := rfl
@[simp] theorem State.setFrLen_done (s : State) (v : Word) : (s.setFrLen v).done = s.done := rfl
@[simp] theorem State.setFrLen_txValid (s : State) (v : Word) : (s.setFrLen v).txValid = s.txValid := rfl
@[simp] theorem State.setFrLen_overrun (s : State) (v : Word) : (s.setFrLen v).overrun = s.overrun := rfl
@[simp] theorem State.setFrLen_key (s : State) (v : Word) : (s.setFrLen v).key = s.key := rfl
@[simp] theorem State.setFrLen_iv (s : State) (v : Word) : (s.setFrLen v).iv = s.iv := rfl
@[simp] theorem State.setFrLen_rd (s : State) (v : Word) : (s.setFrLen v).rd = s.rd := rfl
@[simp] theorem State.setFrLen_ptLen (s : State) (v : Word) : (s.setFrLen v).ptLen = s.ptLen := rfl
@[simp] theorem State.setFrLen_ctLen (s : State) (v : Word) : (s.setFrLen v).ctLen = s.ctLen := rfl
@[simp] theorem State.setFrLen_frLen (s : State) (v : Word) : (s.setFrLen v).frLen = v := rfl
@[simp] theorem State.setFrLen_tag (s : State) (v : Word) : (s.setFrLen v).tag = s.tag := rfl
@[simp] theorem State.setFrLen_mem (s : State) (v : Word) : (s.setFrLen v).mem = s.mem := rfl
@[simp] theorem State.setFrLen_pending (s : State) (v : Word) : (s.setFrLen v).pending = s.pending := rfl
@[simp] theorem State.setFrLen_bus (s : State) (v : Word) : (s.setFrLen v).bus = s.bus := rfl
@[simp] theorem State.setFrLen_readData (s : State) (v : Word) : (s.setFrLen v).readData = s.readData := rfl
@[simp] theorem State.setFrLen_draws (s : State) (v : Word) : (s.setFrLen v).draws = s.draws := rfl

@[simp] theorem State.setTxValid_cfg (s : State) (b : Bool) : (s.setTxValid b).cfg = s.cfg := rfl
@[simp] theorem State.setTxValid_lock (s : State) (b : Bool) : (s.setTxValid b).lock = s.lock := rfl
@[simp] theorem State.setTxValid_ie (s : State) (b : Bool) : (s.setTxValid b).ie = s.ie := rfl
@[simp] theorem State.setTxValid_err (s : State) (b : Bool) : (s.setTxValid b).err = s.err := rfl
@[simp] theorem State.setTxValid_verifyOk (s : State) (b : Bool) :
    (s.setTxValid b).verifyOk = s.verifyOk := rfl
@[simp] theorem State.setTxValid_errCode (s : State) (b : Bool) : (s.setTxValid b).errCode = s.errCode := rfl
@[simp] theorem State.setTxValid_rxState (s : State) (b : Bool) : (s.setTxValid b).rxState = s.rxState := rfl
@[simp] theorem State.setTxValid_rxReject (s : State) (b : Bool) :
    (s.setTxValid b).rxReject = s.rxReject := rfl
@[simp] theorem State.setTxValid_done (s : State) (b : Bool) : (s.setTxValid b).done = s.done := rfl
@[simp] theorem State.setTxValid_txValid (s : State) (b : Bool) : (s.setTxValid b).txValid = b := rfl
@[simp] theorem State.setTxValid_overrun (s : State) (b : Bool) : (s.setTxValid b).overrun = s.overrun := rfl
@[simp] theorem State.setTxValid_key (s : State) (b : Bool) : (s.setTxValid b).key = s.key := rfl
@[simp] theorem State.setTxValid_iv (s : State) (b : Bool) : (s.setTxValid b).iv = s.iv := rfl
@[simp] theorem State.setTxValid_rd (s : State) (b : Bool) : (s.setTxValid b).rd = s.rd := rfl
@[simp] theorem State.setTxValid_ptLen (s : State) (b : Bool) : (s.setTxValid b).ptLen = s.ptLen := rfl
@[simp] theorem State.setTxValid_ctLen (s : State) (b : Bool) : (s.setTxValid b).ctLen = s.ctLen := rfl
@[simp] theorem State.setTxValid_frLen (s : State) (b : Bool) : (s.setTxValid b).frLen = s.frLen := rfl
@[simp] theorem State.setTxValid_tag (s : State) (b : Bool) : (s.setTxValid b).tag = s.tag := rfl
@[simp] theorem State.setTxValid_mem (s : State) (b : Bool) : (s.setTxValid b).mem = s.mem := rfl
@[simp] theorem State.setTxValid_pending (s : State) (b : Bool) : (s.setTxValid b).pending = s.pending := rfl
@[simp] theorem State.setTxValid_bus (s : State) (b : Bool) : (s.setTxValid b).bus = s.bus := rfl
@[simp] theorem State.setTxValid_readData (s : State) (b : Bool) :
    (s.setTxValid b).readData = s.readData := rfl
@[simp] theorem State.setTxValid_draws (s : State) (b : Bool) : (s.setTxValid b).draws = s.draws := rfl

@[simp] theorem State.setVerifyOk_cfg (s : State) (b : Bool) : (s.setVerifyOk b).cfg = s.cfg := rfl
@[simp] theorem State.setVerifyOk_lock (s : State) (b : Bool) : (s.setVerifyOk b).lock = s.lock := rfl
@[simp] theorem State.setVerifyOk_ie (s : State) (b : Bool) : (s.setVerifyOk b).ie = s.ie := rfl
@[simp] theorem State.setVerifyOk_err (s : State) (b : Bool) : (s.setVerifyOk b).err = s.err := rfl
@[simp] theorem State.setVerifyOk_verifyOk (s : State) (b : Bool) : (s.setVerifyOk b).verifyOk = b := rfl
@[simp] theorem State.setVerifyOk_errCode (s : State) (b : Bool) :
    (s.setVerifyOk b).errCode = s.errCode := rfl
@[simp] theorem State.setVerifyOk_rxState (s : State) (b : Bool) :
    (s.setVerifyOk b).rxState = s.rxState := rfl
@[simp] theorem State.setVerifyOk_rxReject (s : State) (b : Bool) :
    (s.setVerifyOk b).rxReject = s.rxReject := rfl
@[simp] theorem State.setVerifyOk_done (s : State) (b : Bool) : (s.setVerifyOk b).done = s.done := rfl
@[simp] theorem State.setVerifyOk_txValid (s : State) (b : Bool) :
    (s.setVerifyOk b).txValid = s.txValid := rfl
@[simp] theorem State.setVerifyOk_overrun (s : State) (b : Bool) :
    (s.setVerifyOk b).overrun = s.overrun := rfl
@[simp] theorem State.setVerifyOk_key (s : State) (b : Bool) : (s.setVerifyOk b).key = s.key := rfl
@[simp] theorem State.setVerifyOk_iv (s : State) (b : Bool) : (s.setVerifyOk b).iv = s.iv := rfl
@[simp] theorem State.setVerifyOk_rd (s : State) (b : Bool) : (s.setVerifyOk b).rd = s.rd := rfl
@[simp] theorem State.setVerifyOk_ptLen (s : State) (b : Bool) : (s.setVerifyOk b).ptLen = s.ptLen := rfl
@[simp] theorem State.setVerifyOk_ctLen (s : State) (b : Bool) : (s.setVerifyOk b).ctLen = s.ctLen := rfl
@[simp] theorem State.setVerifyOk_frLen (s : State) (b : Bool) : (s.setVerifyOk b).frLen = s.frLen := rfl
@[simp] theorem State.setVerifyOk_tag (s : State) (b : Bool) : (s.setVerifyOk b).tag = s.tag := rfl
@[simp] theorem State.setVerifyOk_mem (s : State) (b : Bool) : (s.setVerifyOk b).mem = s.mem := rfl
@[simp] theorem State.setVerifyOk_pending (s : State) (b : Bool) :
    (s.setVerifyOk b).pending = s.pending := rfl
@[simp] theorem State.setVerifyOk_bus (s : State) (b : Bool) : (s.setVerifyOk b).bus = s.bus := rfl
@[simp] theorem State.setVerifyOk_readData (s : State) (b : Bool) :
    (s.setVerifyOk b).readData = s.readData := rfl
@[simp] theorem State.setVerifyOk_draws (s : State) (b : Bool) : (s.setVerifyOk b).draws = s.draws := rfl

@[simp] theorem State.setReceiver_cfg (s : State) (x : RxState) (r : RxReject) :
    (s.setReceiver x r).cfg = s.cfg := rfl
@[simp] theorem State.setReceiver_lock (s : State) (x : RxState) (r : RxReject) :
    (s.setReceiver x r).lock = s.lock := rfl
@[simp] theorem State.setReceiver_ie (s : State) (x : RxState) (r : RxReject) :
    (s.setReceiver x r).ie = s.ie := rfl
@[simp] theorem State.setReceiver_err (s : State) (x : RxState) (r : RxReject) :
    (s.setReceiver x r).err = s.err := rfl
@[simp] theorem State.setReceiver_verifyOk (s : State) (x : RxState) (r : RxReject) :
    (s.setReceiver x r).verifyOk = s.verifyOk := rfl
@[simp] theorem State.setReceiver_errCode (s : State) (x : RxState) (r : RxReject) :
    (s.setReceiver x r).errCode = s.errCode := rfl
@[simp] theorem State.setReceiver_rxState (s : State) (x : RxState) (r : RxReject) :
    (s.setReceiver x r).rxState = x := rfl
@[simp] theorem State.setReceiver_rxReject (s : State) (x : RxState) (r : RxReject) :
    (s.setReceiver x r).rxReject = r := rfl
@[simp] theorem State.setReceiver_done (s : State) (x : RxState) (r : RxReject) :
    (s.setReceiver x r).done = s.done := rfl
@[simp] theorem State.setReceiver_txValid (s : State) (x : RxState) (r : RxReject) :
    (s.setReceiver x r).txValid = s.txValid := rfl
@[simp] theorem State.setReceiver_overrun (s : State) (x : RxState) (r : RxReject) :
    (s.setReceiver x r).overrun = s.overrun := rfl
@[simp] theorem State.setReceiver_key (s : State) (x : RxState) (r : RxReject) :
    (s.setReceiver x r).key = s.key := rfl
@[simp] theorem State.setReceiver_iv (s : State) (x : RxState) (r : RxReject) :
    (s.setReceiver x r).iv = s.iv := rfl
@[simp] theorem State.setReceiver_rd (s : State) (x : RxState) (r : RxReject) :
    (s.setReceiver x r).rd = s.rd := rfl
@[simp] theorem State.setReceiver_ptLen (s : State) (x : RxState) (r : RxReject) :
    (s.setReceiver x r).ptLen = s.ptLen := rfl
@[simp] theorem State.setReceiver_ctLen (s : State) (x : RxState) (r : RxReject) :
    (s.setReceiver x r).ctLen = s.ctLen := rfl
@[simp] theorem State.setReceiver_frLen (s : State) (x : RxState) (r : RxReject) :
    (s.setReceiver x r).frLen = s.frLen := rfl
@[simp] theorem State.setReceiver_tag (s : State) (x : RxState) (r : RxReject) :
    (s.setReceiver x r).tag = s.tag := rfl
@[simp] theorem State.setReceiver_mem (s : State) (x : RxState) (r : RxReject) :
    (s.setReceiver x r).mem = s.mem := rfl
@[simp] theorem State.setReceiver_pending (s : State) (x : RxState) (r : RxReject) :
    (s.setReceiver x r).pending = s.pending := rfl
@[simp] theorem State.setReceiver_bus (s : State) (x : RxState) (r : RxReject) :
    (s.setReceiver x r).bus = s.bus := rfl
@[simp] theorem State.setReceiver_readData (s : State) (x : RxState) (r : RxReject) :
    (s.setReceiver x r).readData = s.readData := rfl
@[simp] theorem State.setReceiver_draws (s : State) (x : RxState) (r : RxReject) :
    (s.setReceiver x r).draws = s.draws := rfl

@[simp] theorem State.storeReading_cfg (s : State) (q : Quad) : (s.storeReading q).cfg = s.cfg := rfl
@[simp] theorem State.storeReading_lock (s : State) (q : Quad) : (s.storeReading q).lock = s.lock := rfl
@[simp] theorem State.storeReading_ie (s : State) (q : Quad) : (s.storeReading q).ie = s.ie := rfl
@[simp] theorem State.storeReading_err (s : State) (q : Quad) : (s.storeReading q).err = s.err := rfl
@[simp] theorem State.storeReading_verifyOk (s : State) (q : Quad) :
    (s.storeReading q).verifyOk = s.verifyOk := rfl
@[simp] theorem State.storeReading_errCode (s : State) (q : Quad) :
    (s.storeReading q).errCode = s.errCode := rfl
@[simp] theorem State.storeReading_rxState (s : State) (q : Quad) :
    (s.storeReading q).rxState = s.rxState := rfl
@[simp] theorem State.storeReading_rxReject (s : State) (q : Quad) :
    (s.storeReading q).rxReject = s.rxReject := rfl
@[simp] theorem State.storeReading_done (s : State) (q : Quad) : (s.storeReading q).done = s.done := rfl
@[simp] theorem State.storeReading_txValid (s : State) (q : Quad) :
    (s.storeReading q).txValid = s.txValid := rfl
@[simp] theorem State.storeReading_overrun (s : State) (q : Quad) :
    (s.storeReading q).overrun = s.overrun := rfl
@[simp] theorem State.storeReading_key (s : State) (q : Quad) : (s.storeReading q).key = s.key := rfl
@[simp] theorem State.storeReading_iv (s : State) (q : Quad) : (s.storeReading q).iv = s.iv := rfl
@[simp] theorem State.storeReading_rd (s : State) (q : Quad) : (s.storeReading q).rd = q := rfl
@[simp] theorem State.storeReading_ptLen (s : State) (q : Quad) : (s.storeReading q).ptLen = s.ptLen := rfl
@[simp] theorem State.storeReading_ctLen (s : State) (q : Quad) : (s.storeReading q).ctLen = s.ctLen := rfl
@[simp] theorem State.storeReading_frLen (s : State) (q : Quad) : (s.storeReading q).frLen = s.frLen := rfl
@[simp] theorem State.storeReading_tag (s : State) (q : Quad) : (s.storeReading q).tag = s.tag := rfl
@[simp] theorem State.storeReading_mem (s : State) (q : Quad) : (s.storeReading q).mem = s.mem := rfl
@[simp] theorem State.storeReading_pending (s : State) (q : Quad) :
    (s.storeReading q).pending = s.pending := rfl
@[simp] theorem State.storeReading_bus (s : State) (q : Quad) : (s.storeReading q).bus = s.bus := rfl
@[simp] theorem State.storeReading_readData (s : State) (q : Quad) :
    (s.storeReading q).readData = s.readData := rfl
@[simp] theorem State.storeReading_draws (s : State) (q : Quad) : (s.storeReading q).draws = s.draws := rfl

@[simp] theorem State.storeTag_cfg (s : State) (t : Block) : (s.storeTag t).cfg = s.cfg := rfl
@[simp] theorem State.storeTag_lock (s : State) (t : Block) : (s.storeTag t).lock = s.lock := rfl
@[simp] theorem State.storeTag_ie (s : State) (t : Block) : (s.storeTag t).ie = s.ie := rfl
@[simp] theorem State.storeTag_err (s : State) (t : Block) : (s.storeTag t).err = s.err := rfl
@[simp] theorem State.storeTag_verifyOk (s : State) (t : Block) : (s.storeTag t).verifyOk = s.verifyOk := rfl
@[simp] theorem State.storeTag_errCode (s : State) (t : Block) : (s.storeTag t).errCode = s.errCode := rfl
@[simp] theorem State.storeTag_rxState (s : State) (t : Block) : (s.storeTag t).rxState = s.rxState := rfl
@[simp] theorem State.storeTag_rxReject (s : State) (t : Block) : (s.storeTag t).rxReject = s.rxReject := rfl
@[simp] theorem State.storeTag_done (s : State) (t : Block) : (s.storeTag t).done = s.done := rfl
@[simp] theorem State.storeTag_txValid (s : State) (t : Block) : (s.storeTag t).txValid = s.txValid := rfl
@[simp] theorem State.storeTag_overrun (s : State) (t : Block) : (s.storeTag t).overrun = s.overrun := rfl
@[simp] theorem State.storeTag_key (s : State) (t : Block) : (s.storeTag t).key = s.key := rfl
@[simp] theorem State.storeTag_iv (s : State) (t : Block) : (s.storeTag t).iv = s.iv := rfl
@[simp] theorem State.storeTag_rd (s : State) (t : Block) : (s.storeTag t).rd = s.rd := rfl
@[simp] theorem State.storeTag_ptLen (s : State) (t : Block) : (s.storeTag t).ptLen = s.ptLen := rfl
@[simp] theorem State.storeTag_ctLen (s : State) (t : Block) : (s.storeTag t).ctLen = s.ctLen := rfl
@[simp] theorem State.storeTag_frLen (s : State) (t : Block) : (s.storeTag t).frLen = s.frLen := rfl
@[simp] theorem State.storeTag_tag (s : State) (t : Block) : (s.storeTag t).tag = blockQuad t := rfl
@[simp] theorem State.storeTag_mem (s : State) (t : Block) : (s.storeTag t).mem = s.mem := rfl
@[simp] theorem State.storeTag_pending (s : State) (t : Block) : (s.storeTag t).pending = s.pending := rfl
@[simp] theorem State.storeTag_bus (s : State) (t : Block) : (s.storeTag t).bus = s.bus := rfl
@[simp] theorem State.storeTag_readData (s : State) (t : Block) : (s.storeTag t).readData = s.readData := rfl
@[simp] theorem State.storeTag_draws (s : State) (t : Block) : (s.storeTag t).draws = s.draws := rfl

@[simp] theorem State.complete_cfg (s : State) : (s.complete).cfg = s.cfg := rfl
@[simp] theorem State.complete_lock (s : State) : (s.complete).lock = s.lock := rfl
@[simp] theorem State.complete_ie (s : State) : (s.complete).ie = s.ie := rfl
@[simp] theorem State.complete_err (s : State) : (s.complete).err = false := rfl
@[simp] theorem State.complete_verifyOk (s : State) : (s.complete).verifyOk = s.verifyOk := rfl
@[simp] theorem State.complete_errCode (s : State) : (s.complete).errCode = .none := rfl
@[simp] theorem State.complete_rxState (s : State) : (s.complete).rxState = s.rxState := rfl
@[simp] theorem State.complete_rxReject (s : State) : (s.complete).rxReject = s.rxReject := rfl
@[simp] theorem State.complete_done (s : State) : (s.complete).done = true := rfl
@[simp] theorem State.complete_txValid (s : State) : (s.complete).txValid = s.txValid := rfl
@[simp] theorem State.complete_overrun (s : State) : (s.complete).overrun = s.overrun := rfl
@[simp] theorem State.complete_key (s : State) : (s.complete).key = s.key := rfl
@[simp] theorem State.complete_iv (s : State) : (s.complete).iv = s.iv := rfl
@[simp] theorem State.complete_rd (s : State) : (s.complete).rd = s.rd := rfl
@[simp] theorem State.complete_ptLen (s : State) : (s.complete).ptLen = s.ptLen := rfl
@[simp] theorem State.complete_ctLen (s : State) : (s.complete).ctLen = s.ctLen := rfl
@[simp] theorem State.complete_frLen (s : State) : (s.complete).frLen = s.frLen := rfl
@[simp] theorem State.complete_tag (s : State) : (s.complete).tag = s.tag := rfl
@[simp] theorem State.complete_mem (s : State) : (s.complete).mem = s.mem := rfl
@[simp] theorem State.complete_pending (s : State) : (s.complete).pending = none := rfl
@[simp] theorem State.complete_bus (s : State) : (s.complete).bus = s.bus := rfl
@[simp] theorem State.complete_readData (s : State) : (s.complete).readData = s.readData := rfl
@[simp] theorem State.complete_draws (s : State) : (s.complete).draws = s.draws := rfl

@[simp] theorem State.raiseFail_cfg (s : State) (e : ErrCode) : (s.raiseFail e).cfg = s.cfg := rfl
@[simp] theorem State.raiseFail_lock (s : State) (e : ErrCode) : (s.raiseFail e).lock = s.lock := rfl
@[simp] theorem State.raiseFail_ie (s : State) (e : ErrCode) : (s.raiseFail e).ie = s.ie := rfl
@[simp] theorem State.raiseFail_err (s : State) (e : ErrCode) : (s.raiseFail e).err = true := rfl
@[simp] theorem State.raiseFail_verifyOk (s : State) (e : ErrCode) :
    (s.raiseFail e).verifyOk = s.verifyOk := rfl
@[simp] theorem State.raiseFail_errCode (s : State) (e : ErrCode) : (s.raiseFail e).errCode = e := rfl
@[simp] theorem State.raiseFail_rxState (s : State) (e : ErrCode) : (s.raiseFail e).rxState = s.rxState := rfl
@[simp] theorem State.raiseFail_rxReject (s : State) (e : ErrCode) :
    (s.raiseFail e).rxReject = s.rxReject := rfl
@[simp] theorem State.raiseFail_done (s : State) (e : ErrCode) : (s.raiseFail e).done = true := rfl
@[simp] theorem State.raiseFail_txValid (s : State) (e : ErrCode) : (s.raiseFail e).txValid = s.txValid := rfl
@[simp] theorem State.raiseFail_overrun (s : State) (e : ErrCode) : (s.raiseFail e).overrun = s.overrun := rfl
@[simp] theorem State.raiseFail_key (s : State) (e : ErrCode) : (s.raiseFail e).key = s.key := rfl
@[simp] theorem State.raiseFail_iv (s : State) (e : ErrCode) : (s.raiseFail e).iv = s.iv := rfl
@[simp] theorem State.raiseFail_rd (s : State) (e : ErrCode) : (s.raiseFail e).rd = s.rd := rfl
@[simp] theorem State.raiseFail_ptLen (s : State) (e : ErrCode) : (s.raiseFail e).ptLen = s.ptLen := rfl
@[simp] theorem State.raiseFail_ctLen (s : State) (e : ErrCode) : (s.raiseFail e).ctLen = s.ctLen := rfl
@[simp] theorem State.raiseFail_frLen (s : State) (e : ErrCode) : (s.raiseFail e).frLen = s.frLen := rfl
@[simp] theorem State.raiseFail_tag (s : State) (e : ErrCode) : (s.raiseFail e).tag = s.tag := rfl
@[simp] theorem State.raiseFail_mem (s : State) (e : ErrCode) : (s.raiseFail e).mem = s.mem := rfl
@[simp] theorem State.raiseFail_pending (s : State) (e : ErrCode) : (s.raiseFail e).pending = none := rfl
@[simp] theorem State.raiseFail_bus (s : State) (e : ErrCode) : (s.raiseFail e).bus = s.bus := rfl
@[simp] theorem State.raiseFail_readData (s : State) (e : ErrCode) :
    (s.raiseFail e).readData = s.readData := rfl
@[simp] theorem State.raiseFail_draws (s : State) (e : ErrCode) : (s.raiseFail e).draws = s.draws := rfl

@[simp] theorem State.recordIllegal_cfg (s : State) : (s.recordIllegal).cfg = s.cfg := rfl
@[simp] theorem State.recordIllegal_lock (s : State) : (s.recordIllegal).lock = s.lock := rfl
@[simp] theorem State.recordIllegal_ie (s : State) : (s.recordIllegal).ie = s.ie := rfl
@[simp] theorem State.recordIllegal_err (s : State) : (s.recordIllegal).err = true := rfl
@[simp] theorem State.recordIllegal_verifyOk (s : State) : (s.recordIllegal).verifyOk = s.verifyOk := rfl
@[simp] theorem State.recordIllegal_errCode (s : State) : (s.recordIllegal).errCode = .illegalCommand := rfl
@[simp] theorem State.recordIllegal_rxState (s : State) : (s.recordIllegal).rxState = s.rxState := rfl
@[simp] theorem State.recordIllegal_rxReject (s : State) : (s.recordIllegal).rxReject = s.rxReject := rfl
@[simp] theorem State.recordIllegal_done (s : State) : (s.recordIllegal).done = true := rfl
@[simp] theorem State.recordIllegal_txValid (s : State) : (s.recordIllegal).txValid = s.txValid := rfl
@[simp] theorem State.recordIllegal_overrun (s : State) : (s.recordIllegal).overrun = s.overrun := rfl
@[simp] theorem State.recordIllegal_key (s : State) : (s.recordIllegal).key = s.key := rfl
@[simp] theorem State.recordIllegal_iv (s : State) : (s.recordIllegal).iv = s.iv := rfl
@[simp] theorem State.recordIllegal_rd (s : State) : (s.recordIllegal).rd = s.rd := rfl
@[simp] theorem State.recordIllegal_ptLen (s : State) : (s.recordIllegal).ptLen = s.ptLen := rfl
@[simp] theorem State.recordIllegal_ctLen (s : State) : (s.recordIllegal).ctLen = s.ctLen := rfl
@[simp] theorem State.recordIllegal_frLen (s : State) : (s.recordIllegal).frLen = s.frLen := rfl
@[simp] theorem State.recordIllegal_tag (s : State) : (s.recordIllegal).tag = s.tag := rfl
@[simp] theorem State.recordIllegal_mem (s : State) : (s.recordIllegal).mem = s.mem := rfl
@[simp] theorem State.recordIllegal_pending (s : State) : (s.recordIllegal).pending = s.pending := rfl
@[simp] theorem State.recordIllegal_bus (s : State) : (s.recordIllegal).bus = s.bus := rfl
@[simp] theorem State.recordIllegal_readData (s : State) : (s.recordIllegal).readData = s.readData := rfl
@[simp] theorem State.recordIllegal_draws (s : State) : (s.recordIllegal).draws = s.draws := rfl

@[simp] theorem State.writeCtrl_cfg (s : State) (v : Word) : (s.writeCtrl v).cfg = s.cfg := rfl
@[simp] theorem State.writeCtrl_lock (s : State) (v : Word) :
    (s.writeCtrl v).lock = (s.lock || v.getLsbD 0) := rfl
@[simp] theorem State.writeCtrl_ie (s : State) (v : Word) : (s.writeCtrl v).ie = v.getLsbD 1 := rfl
@[simp] theorem State.writeCtrl_err (s : State) (v : Word) : (s.writeCtrl v).err = s.err := rfl
@[simp] theorem State.writeCtrl_verifyOk (s : State) (v : Word) : (s.writeCtrl v).verifyOk = s.verifyOk := rfl
@[simp] theorem State.writeCtrl_errCode (s : State) (v : Word) : (s.writeCtrl v).errCode = s.errCode := rfl
@[simp] theorem State.writeCtrl_rxState (s : State) (v : Word) : (s.writeCtrl v).rxState = s.rxState := rfl
@[simp] theorem State.writeCtrl_rxReject (s : State) (v : Word) : (s.writeCtrl v).rxReject = s.rxReject := rfl
@[simp] theorem State.writeCtrl_done (s : State) (v : Word) : (s.writeCtrl v).done = s.done := rfl
@[simp] theorem State.writeCtrl_txValid (s : State) (v : Word) : (s.writeCtrl v).txValid = s.txValid := rfl
@[simp] theorem State.writeCtrl_overrun (s : State) (v : Word) : (s.writeCtrl v).overrun = s.overrun := rfl
@[simp] theorem State.writeCtrl_key (s : State) (v : Word) : (s.writeCtrl v).key = s.key := rfl
@[simp] theorem State.writeCtrl_iv (s : State) (v : Word) : (s.writeCtrl v).iv = s.iv := rfl
@[simp] theorem State.writeCtrl_rd (s : State) (v : Word) : (s.writeCtrl v).rd = s.rd := rfl
@[simp] theorem State.writeCtrl_ptLen (s : State) (v : Word) : (s.writeCtrl v).ptLen = s.ptLen := rfl
@[simp] theorem State.writeCtrl_ctLen (s : State) (v : Word) : (s.writeCtrl v).ctLen = s.ctLen := rfl
@[simp] theorem State.writeCtrl_frLen (s : State) (v : Word) : (s.writeCtrl v).frLen = s.frLen := rfl
@[simp] theorem State.writeCtrl_tag (s : State) (v : Word) : (s.writeCtrl v).tag = s.tag := rfl
@[simp] theorem State.writeCtrl_mem (s : State) (v : Word) : (s.writeCtrl v).mem = s.mem := rfl
@[simp] theorem State.writeCtrl_pending (s : State) (v : Word) : (s.writeCtrl v).pending = s.pending := rfl
@[simp] theorem State.writeCtrl_bus (s : State) (v : Word) : (s.writeCtrl v).bus = s.bus := rfl
@[simp] theorem State.writeCtrl_readData (s : State) (v : Word) : (s.writeCtrl v).readData = s.readData := rfl
@[simp] theorem State.writeCtrl_draws (s : State) (v : Word) : (s.writeCtrl v).draws = s.draws := rfl

@[simp] theorem State.ackEvents_cfg (s : State) (v : Word) : (s.ackEvents v).cfg = s.cfg := rfl
@[simp] theorem State.ackEvents_lock (s : State) (v : Word) : (s.ackEvents v).lock = s.lock := rfl
@[simp] theorem State.ackEvents_ie (s : State) (v : Word) : (s.ackEvents v).ie = s.ie := rfl
@[simp] theorem State.ackEvents_err (s : State) (v : Word) : (s.ackEvents v).err = s.err := rfl
@[simp] theorem State.ackEvents_verifyOk (s : State) (v : Word) : (s.ackEvents v).verifyOk = s.verifyOk := rfl
@[simp] theorem State.ackEvents_errCode (s : State) (v : Word) : (s.ackEvents v).errCode = s.errCode := rfl
@[simp] theorem State.ackEvents_rxState (s : State) (v : Word) : (s.ackEvents v).rxState = s.rxState := rfl
@[simp] theorem State.ackEvents_rxReject (s : State) (v : Word) : (s.ackEvents v).rxReject = s.rxReject := rfl
@[simp] theorem State.ackEvents_done (s : State) (v : Word) :
    (s.ackEvents v).done = (s.done && !v.getLsbD 0) := rfl
@[simp] theorem State.ackEvents_txValid (s : State) (v : Word) :
    (s.ackEvents v).txValid = (s.txValid && !v.getLsbD 1) := rfl
@[simp] theorem State.ackEvents_overrun (s : State) (v : Word) :
    (s.ackEvents v).overrun = (s.overrun && !v.getLsbD 2) := rfl
@[simp] theorem State.ackEvents_key (s : State) (v : Word) : (s.ackEvents v).key = s.key := rfl
@[simp] theorem State.ackEvents_iv (s : State) (v : Word) : (s.ackEvents v).iv = s.iv := rfl
@[simp] theorem State.ackEvents_rd (s : State) (v : Word) : (s.ackEvents v).rd = s.rd := rfl
@[simp] theorem State.ackEvents_ptLen (s : State) (v : Word) : (s.ackEvents v).ptLen = s.ptLen := rfl
@[simp] theorem State.ackEvents_ctLen (s : State) (v : Word) : (s.ackEvents v).ctLen = s.ctLen := rfl
@[simp] theorem State.ackEvents_frLen (s : State) (v : Word) : (s.ackEvents v).frLen = s.frLen := rfl
@[simp] theorem State.ackEvents_tag (s : State) (v : Word) : (s.ackEvents v).tag = s.tag := rfl
@[simp] theorem State.ackEvents_mem (s : State) (v : Word) : (s.ackEvents v).mem = s.mem := rfl
@[simp] theorem State.ackEvents_pending (s : State) (v : Word) : (s.ackEvents v).pending = s.pending := rfl
@[simp] theorem State.ackEvents_bus (s : State) (v : Word) : (s.ackEvents v).bus = s.bus := rfl
@[simp] theorem State.ackEvents_readData (s : State) (v : Word) : (s.ackEvents v).readData = s.readData := rfl
@[simp] theorem State.ackEvents_draws (s : State) (v : Word) : (s.ackEvents v).draws = s.draws := rfl

@[simp] theorem State.dropWrite_cfg (s : State) : (s.dropWrite).cfg = s.cfg := rfl
@[simp] theorem State.dropWrite_lock (s : State) : (s.dropWrite).lock = s.lock := rfl
@[simp] theorem State.dropWrite_ie (s : State) : (s.dropWrite).ie = s.ie := rfl
@[simp] theorem State.dropWrite_err (s : State) : (s.dropWrite).err = s.err := rfl
@[simp] theorem State.dropWrite_verifyOk (s : State) : (s.dropWrite).verifyOk = s.verifyOk := rfl
@[simp] theorem State.dropWrite_errCode (s : State) : (s.dropWrite).errCode = s.errCode := rfl
@[simp] theorem State.dropWrite_rxState (s : State) : (s.dropWrite).rxState = s.rxState := rfl
@[simp] theorem State.dropWrite_rxReject (s : State) : (s.dropWrite).rxReject = s.rxReject := rfl
@[simp] theorem State.dropWrite_done (s : State) : (s.dropWrite).done = s.done := rfl
@[simp] theorem State.dropWrite_txValid (s : State) : (s.dropWrite).txValid = s.txValid := rfl
@[simp] theorem State.dropWrite_overrun (s : State) : (s.dropWrite).overrun = true := rfl
@[simp] theorem State.dropWrite_key (s : State) : (s.dropWrite).key = s.key := rfl
@[simp] theorem State.dropWrite_iv (s : State) : (s.dropWrite).iv = s.iv := rfl
@[simp] theorem State.dropWrite_rd (s : State) : (s.dropWrite).rd = s.rd := rfl
@[simp] theorem State.dropWrite_ptLen (s : State) : (s.dropWrite).ptLen = s.ptLen := rfl
@[simp] theorem State.dropWrite_ctLen (s : State) : (s.dropWrite).ctLen = s.ctLen := rfl
@[simp] theorem State.dropWrite_frLen (s : State) : (s.dropWrite).frLen = s.frLen := rfl
@[simp] theorem State.dropWrite_tag (s : State) : (s.dropWrite).tag = s.tag := rfl
@[simp] theorem State.dropWrite_mem (s : State) : (s.dropWrite).mem = s.mem := rfl
@[simp] theorem State.dropWrite_pending (s : State) : (s.dropWrite).pending = s.pending := rfl
@[simp] theorem State.dropWrite_bus (s : State) : (s.dropWrite).bus = s.bus := rfl
@[simp] theorem State.dropWrite_readData (s : State) : (s.dropWrite).readData = s.readData := rfl
@[simp] theorem State.dropWrite_draws (s : State) : (s.dropWrite).draws = s.draws := rfl

@[simp] theorem State.popBus_cfg (s : State) (rest : List BusOp) : (s.popBus rest).cfg = s.cfg := rfl
@[simp] theorem State.popBus_lock (s : State) (rest : List BusOp) : (s.popBus rest).lock = s.lock := rfl
@[simp] theorem State.popBus_ie (s : State) (rest : List BusOp) : (s.popBus rest).ie = s.ie := rfl
@[simp] theorem State.popBus_err (s : State) (rest : List BusOp) : (s.popBus rest).err = s.err := rfl
@[simp] theorem State.popBus_verifyOk (s : State) (rest : List BusOp) :
    (s.popBus rest).verifyOk = s.verifyOk := rfl
@[simp] theorem State.popBus_errCode (s : State) (rest : List BusOp) :
    (s.popBus rest).errCode = s.errCode := rfl
@[simp] theorem State.popBus_rxState (s : State) (rest : List BusOp) :
    (s.popBus rest).rxState = s.rxState := rfl
@[simp] theorem State.popBus_rxReject (s : State) (rest : List BusOp) :
    (s.popBus rest).rxReject = s.rxReject := rfl
@[simp] theorem State.popBus_done (s : State) (rest : List BusOp) : (s.popBus rest).done = s.done := rfl
@[simp] theorem State.popBus_txValid (s : State) (rest : List BusOp) :
    (s.popBus rest).txValid = s.txValid := rfl
@[simp] theorem State.popBus_overrun (s : State) (rest : List BusOp) :
    (s.popBus rest).overrun = s.overrun := rfl
@[simp] theorem State.popBus_key (s : State) (rest : List BusOp) : (s.popBus rest).key = s.key := rfl
@[simp] theorem State.popBus_iv (s : State) (rest : List BusOp) : (s.popBus rest).iv = s.iv := rfl
@[simp] theorem State.popBus_rd (s : State) (rest : List BusOp) : (s.popBus rest).rd = s.rd := rfl
@[simp] theorem State.popBus_ptLen (s : State) (rest : List BusOp) : (s.popBus rest).ptLen = s.ptLen := rfl
@[simp] theorem State.popBus_ctLen (s : State) (rest : List BusOp) : (s.popBus rest).ctLen = s.ctLen := rfl
@[simp] theorem State.popBus_frLen (s : State) (rest : List BusOp) : (s.popBus rest).frLen = s.frLen := rfl
@[simp] theorem State.popBus_tag (s : State) (rest : List BusOp) : (s.popBus rest).tag = s.tag := rfl
@[simp] theorem State.popBus_mem (s : State) (rest : List BusOp) : (s.popBus rest).mem = s.mem := rfl
@[simp] theorem State.popBus_pending (s : State) (rest : List BusOp) :
    (s.popBus rest).pending = s.pending := rfl
@[simp] theorem State.popBus_bus (s : State) (rest : List BusOp) : (s.popBus rest).bus = rest := rfl
@[simp] theorem State.popBus_readData (s : State) (rest : List BusOp) :
    (s.popBus rest).readData = s.readData := rfl
@[simp] theorem State.popBus_draws (s : State) (rest : List BusOp) : (s.popBus rest).draws = s.draws := rfl

@[simp] theorem State.startRunning_cfg (s : State) (p : Pending) : (s.startRunning p).cfg = s.cfg := rfl
@[simp] theorem State.startRunning_lock (s : State) (p : Pending) : (s.startRunning p).lock = s.lock := rfl
@[simp] theorem State.startRunning_ie (s : State) (p : Pending) : (s.startRunning p).ie = s.ie := rfl
@[simp] theorem State.startRunning_err (s : State) (p : Pending) : (s.startRunning p).err = false := rfl
@[simp] theorem State.startRunning_verifyOk (s : State) (p : Pending) :
    (s.startRunning p).verifyOk = s.verifyOk := rfl
@[simp] theorem State.startRunning_errCode (s : State) (p : Pending) :
    (s.startRunning p).errCode = .none := rfl
@[simp] theorem State.startRunning_rxState (s : State) (p : Pending) :
    (s.startRunning p).rxState = s.rxState := rfl
@[simp] theorem State.startRunning_rxReject (s : State) (p : Pending) :
    (s.startRunning p).rxReject = s.rxReject := rfl
@[simp] theorem State.startRunning_done (s : State) (p : Pending) : (s.startRunning p).done = false := rfl
@[simp] theorem State.startRunning_txValid (s : State) (p : Pending) :
    (s.startRunning p).txValid = s.txValid := rfl
@[simp] theorem State.startRunning_overrun (s : State) (p : Pending) :
    (s.startRunning p).overrun = s.overrun := rfl
@[simp] theorem State.startRunning_key (s : State) (p : Pending) : (s.startRunning p).key = s.key := rfl
@[simp] theorem State.startRunning_iv (s : State) (p : Pending) : (s.startRunning p).iv = s.iv := rfl
@[simp] theorem State.startRunning_rd (s : State) (p : Pending) : (s.startRunning p).rd = s.rd := rfl
@[simp] theorem State.startRunning_ptLen (s : State) (p : Pending) : (s.startRunning p).ptLen = s.ptLen := rfl
@[simp] theorem State.startRunning_ctLen (s : State) (p : Pending) : (s.startRunning p).ctLen = s.ctLen := rfl
@[simp] theorem State.startRunning_frLen (s : State) (p : Pending) : (s.startRunning p).frLen = s.frLen := rfl
@[simp] theorem State.startRunning_tag (s : State) (p : Pending) : (s.startRunning p).tag = s.tag := rfl
@[simp] theorem State.startRunning_mem (s : State) (p : Pending) : (s.startRunning p).mem = s.mem := rfl
@[simp] theorem State.startRunning_pending (s : State) (p : Pending) :
    (s.startRunning p).pending = some p := rfl
@[simp] theorem State.startRunning_bus (s : State) (p : Pending) : (s.startRunning p).bus = s.bus := rfl
@[simp] theorem State.startRunning_readData (s : State) (p : Pending) :
    (s.startRunning p).readData = s.readData := rfl
@[simp] theorem State.startRunning_draws (s : State) (p : Pending) : (s.startRunning p).draws = s.draws := rfl

@[simp] theorem State.setPending_cfg (s : State) (p : Option Pending) : (s.setPending p).cfg = s.cfg := rfl
@[simp] theorem State.setPending_lock (s : State) (p : Option Pending) : (s.setPending p).lock = s.lock := rfl
@[simp] theorem State.setPending_ie (s : State) (p : Option Pending) : (s.setPending p).ie = s.ie := rfl
@[simp] theorem State.setPending_err (s : State) (p : Option Pending) : (s.setPending p).err = s.err := rfl
@[simp] theorem State.setPending_verifyOk (s : State) (p : Option Pending) :
    (s.setPending p).verifyOk = s.verifyOk := rfl
@[simp] theorem State.setPending_errCode (s : State) (p : Option Pending) :
    (s.setPending p).errCode = s.errCode := rfl
@[simp] theorem State.setPending_rxState (s : State) (p : Option Pending) :
    (s.setPending p).rxState = s.rxState := rfl
@[simp] theorem State.setPending_rxReject (s : State) (p : Option Pending) :
    (s.setPending p).rxReject = s.rxReject := rfl
@[simp] theorem State.setPending_done (s : State) (p : Option Pending) : (s.setPending p).done = s.done := rfl
@[simp] theorem State.setPending_txValid (s : State) (p : Option Pending) :
    (s.setPending p).txValid = s.txValid := rfl
@[simp] theorem State.setPending_overrun (s : State) (p : Option Pending) :
    (s.setPending p).overrun = s.overrun := rfl
@[simp] theorem State.setPending_key (s : State) (p : Option Pending) : (s.setPending p).key = s.key := rfl
@[simp] theorem State.setPending_iv (s : State) (p : Option Pending) : (s.setPending p).iv = s.iv := rfl
@[simp] theorem State.setPending_rd (s : State) (p : Option Pending) : (s.setPending p).rd = s.rd := rfl
@[simp] theorem State.setPending_ptLen (s : State) (p : Option Pending) :
    (s.setPending p).ptLen = s.ptLen := rfl
@[simp] theorem State.setPending_ctLen (s : State) (p : Option Pending) :
    (s.setPending p).ctLen = s.ctLen := rfl
@[simp] theorem State.setPending_frLen (s : State) (p : Option Pending) :
    (s.setPending p).frLen = s.frLen := rfl
@[simp] theorem State.setPending_tag (s : State) (p : Option Pending) : (s.setPending p).tag = s.tag := rfl
@[simp] theorem State.setPending_mem (s : State) (p : Option Pending) : (s.setPending p).mem = s.mem := rfl
@[simp] theorem State.setPending_pending (s : State) (p : Option Pending) :
    (s.setPending p).pending = p := rfl
@[simp] theorem State.setPending_bus (s : State) (p : Option Pending) : (s.setPending p).bus = s.bus := rfl
@[simp] theorem State.setPending_readData (s : State) (p : Option Pending) :
    (s.setPending p).readData = s.readData := rfl
@[simp] theorem State.setPending_draws (s : State) (p : Option Pending) :
    (s.setPending p).draws = s.draws := rfl

@[simp] theorem State.holdWord_cfg (s : State) (w : Word) : (s.holdWord w).cfg = s.cfg := rfl
@[simp] theorem State.holdWord_lock (s : State) (w : Word) : (s.holdWord w).lock = s.lock := rfl
@[simp] theorem State.holdWord_ie (s : State) (w : Word) : (s.holdWord w).ie = s.ie := rfl
@[simp] theorem State.holdWord_err (s : State) (w : Word) : (s.holdWord w).err = s.err := rfl
@[simp] theorem State.holdWord_verifyOk (s : State) (w : Word) : (s.holdWord w).verifyOk = s.verifyOk := rfl
@[simp] theorem State.holdWord_errCode (s : State) (w : Word) : (s.holdWord w).errCode = s.errCode := rfl
@[simp] theorem State.holdWord_rxState (s : State) (w : Word) : (s.holdWord w).rxState = s.rxState := rfl
@[simp] theorem State.holdWord_rxReject (s : State) (w : Word) : (s.holdWord w).rxReject = s.rxReject := rfl
@[simp] theorem State.holdWord_done (s : State) (w : Word) : (s.holdWord w).done = s.done := rfl
@[simp] theorem State.holdWord_txValid (s : State) (w : Word) : (s.holdWord w).txValid = s.txValid := rfl
@[simp] theorem State.holdWord_overrun (s : State) (w : Word) : (s.holdWord w).overrun = s.overrun := rfl
@[simp] theorem State.holdWord_key (s : State) (w : Word) : (s.holdWord w).key = s.key := rfl
@[simp] theorem State.holdWord_iv (s : State) (w : Word) : (s.holdWord w).iv = s.iv := rfl
@[simp] theorem State.holdWord_rd (s : State) (w : Word) : (s.holdWord w).rd = s.rd := rfl
@[simp] theorem State.holdWord_ptLen (s : State) (w : Word) : (s.holdWord w).ptLen = s.ptLen := rfl
@[simp] theorem State.holdWord_ctLen (s : State) (w : Word) : (s.holdWord w).ctLen = s.ctLen := rfl
@[simp] theorem State.holdWord_frLen (s : State) (w : Word) : (s.holdWord w).frLen = s.frLen := rfl
@[simp] theorem State.holdWord_tag (s : State) (w : Word) : (s.holdWord w).tag = s.tag := rfl
@[simp] theorem State.holdWord_mem (s : State) (w : Word) : (s.holdWord w).mem = s.mem := rfl
@[simp] theorem State.holdWord_pending (s : State) (w : Word) :
    (s.holdWord w).pending = some { word := w, snap := s.liveInputs, left := 0, rxSeen := 0 } := rfl
@[simp] theorem State.holdWord_bus (s : State) (w : Word) : (s.holdWord w).bus = [] := rfl
@[simp] theorem State.holdWord_readData (s : State) (w : Word) : (s.holdWord w).readData = s.readData := rfl
@[simp] theorem State.holdWord_draws (s : State) (w : Word) : (s.holdWord w).draws = s.draws := rfl

@[simp] theorem State.storePlain_cfg (s : State) (d : Bytes) : (s.storePlain d).cfg = s.cfg := rfl
@[simp] theorem State.storePlain_lock (s : State) (d : Bytes) : (s.storePlain d).lock = s.lock := rfl
@[simp] theorem State.storePlain_ie (s : State) (d : Bytes) : (s.storePlain d).ie = s.ie := rfl
@[simp] theorem State.storePlain_err (s : State) (d : Bytes) : (s.storePlain d).err = s.err := rfl
@[simp] theorem State.storePlain_verifyOk (s : State) (d : Bytes) :
    (s.storePlain d).verifyOk = s.verifyOk := rfl
@[simp] theorem State.storePlain_errCode (s : State) (d : Bytes) : (s.storePlain d).errCode = s.errCode := rfl
@[simp] theorem State.storePlain_rxState (s : State) (d : Bytes) : (s.storePlain d).rxState = s.rxState := rfl
@[simp] theorem State.storePlain_rxReject (s : State) (d : Bytes) :
    (s.storePlain d).rxReject = s.rxReject := rfl
@[simp] theorem State.storePlain_done (s : State) (d : Bytes) : (s.storePlain d).done = s.done := rfl
@[simp] theorem State.storePlain_txValid (s : State) (d : Bytes) : (s.storePlain d).txValid = s.txValid := rfl
@[simp] theorem State.storePlain_overrun (s : State) (d : Bytes) : (s.storePlain d).overrun = s.overrun := rfl
@[simp] theorem State.storePlain_key (s : State) (d : Bytes) : (s.storePlain d).key = s.key := rfl
@[simp] theorem State.storePlain_iv (s : State) (d : Bytes) : (s.storePlain d).iv = s.iv := rfl
@[simp] theorem State.storePlain_rd (s : State) (d : Bytes) : (s.storePlain d).rd = s.rd := rfl
@[simp] theorem State.storePlain_ptLen (s : State) (d : Bytes) :
    (s.storePlain d).ptLen = lenWord d.length := rfl
@[simp] theorem State.storePlain_ctLen (s : State) (d : Bytes) : (s.storePlain d).ctLen = s.ctLen := rfl
@[simp] theorem State.storePlain_frLen (s : State) (d : Bytes) : (s.storePlain d).frLen = s.frLen := rfl
@[simp] theorem State.storePlain_tag (s : State) (d : Bytes) : (s.storePlain d).tag = s.tag := rfl
@[simp] theorem State.storePlain_mem (s : State) (d : Bytes) :
    (s.storePlain d).mem = s.mem.writeBytes (bufBase .pt) d := rfl
@[simp] theorem State.storePlain_pending (s : State) (d : Bytes) : (s.storePlain d).pending = s.pending := rfl
@[simp] theorem State.storePlain_bus (s : State) (d : Bytes) : (s.storePlain d).bus = s.bus := rfl
@[simp] theorem State.storePlain_readData (s : State) (d : Bytes) :
    (s.storePlain d).readData = s.readData := rfl
@[simp] theorem State.storePlain_draws (s : State) (d : Bytes) : (s.storePlain d).draws = s.draws := rfl

@[simp] theorem State.storeCipher_cfg (s : State) (d : Bytes) : (s.storeCipher d).cfg = s.cfg := rfl
@[simp] theorem State.storeCipher_lock (s : State) (d : Bytes) : (s.storeCipher d).lock = s.lock := rfl
@[simp] theorem State.storeCipher_ie (s : State) (d : Bytes) : (s.storeCipher d).ie = s.ie := rfl
@[simp] theorem State.storeCipher_err (s : State) (d : Bytes) : (s.storeCipher d).err = s.err := rfl
@[simp] theorem State.storeCipher_verifyOk (s : State) (d : Bytes) :
    (s.storeCipher d).verifyOk = s.verifyOk := rfl
@[simp] theorem State.storeCipher_errCode (s : State) (d : Bytes) :
    (s.storeCipher d).errCode = s.errCode := rfl
@[simp] theorem State.storeCipher_rxState (s : State) (d : Bytes) :
    (s.storeCipher d).rxState = s.rxState := rfl
@[simp] theorem State.storeCipher_rxReject (s : State) (d : Bytes) :
    (s.storeCipher d).rxReject = s.rxReject := rfl
@[simp] theorem State.storeCipher_done (s : State) (d : Bytes) : (s.storeCipher d).done = s.done := rfl
@[simp] theorem State.storeCipher_txValid (s : State) (d : Bytes) :
    (s.storeCipher d).txValid = s.txValid := rfl
@[simp] theorem State.storeCipher_overrun (s : State) (d : Bytes) :
    (s.storeCipher d).overrun = s.overrun := rfl
@[simp] theorem State.storeCipher_key (s : State) (d : Bytes) : (s.storeCipher d).key = s.key := rfl
@[simp] theorem State.storeCipher_iv (s : State) (d : Bytes) : (s.storeCipher d).iv = s.iv := rfl
@[simp] theorem State.storeCipher_rd (s : State) (d : Bytes) : (s.storeCipher d).rd = s.rd := rfl
@[simp] theorem State.storeCipher_ptLen (s : State) (d : Bytes) : (s.storeCipher d).ptLen = s.ptLen := rfl
@[simp] theorem State.storeCipher_ctLen (s : State) (d : Bytes) :
    (s.storeCipher d).ctLen = lenWord d.length := rfl
@[simp] theorem State.storeCipher_frLen (s : State) (d : Bytes) : (s.storeCipher d).frLen = s.frLen := rfl
@[simp] theorem State.storeCipher_tag (s : State) (d : Bytes) : (s.storeCipher d).tag = s.tag := rfl
@[simp] theorem State.storeCipher_mem (s : State) (d : Bytes) :
    (s.storeCipher d).mem = s.mem.writeBytes (bufBase .ct) d := rfl
@[simp] theorem State.storeCipher_pending (s : State) (d : Bytes) :
    (s.storeCipher d).pending = s.pending := rfl
@[simp] theorem State.storeCipher_bus (s : State) (d : Bytes) : (s.storeCipher d).bus = s.bus := rfl
@[simp] theorem State.storeCipher_readData (s : State) (d : Bytes) :
    (s.storeCipher d).readData = s.readData := rfl
@[simp] theorem State.storeCipher_draws (s : State) (d : Bytes) : (s.storeCipher d).draws = s.draws := rfl

@[simp] theorem State.storeFrame_cfg (s : State) (d : Bytes) : (s.storeFrame d).cfg = s.cfg := rfl
@[simp] theorem State.storeFrame_lock (s : State) (d : Bytes) : (s.storeFrame d).lock = s.lock := rfl
@[simp] theorem State.storeFrame_ie (s : State) (d : Bytes) : (s.storeFrame d).ie = s.ie := rfl
@[simp] theorem State.storeFrame_err (s : State) (d : Bytes) : (s.storeFrame d).err = s.err := rfl
@[simp] theorem State.storeFrame_verifyOk (s : State) (d : Bytes) :
    (s.storeFrame d).verifyOk = s.verifyOk := rfl
@[simp] theorem State.storeFrame_errCode (s : State) (d : Bytes) : (s.storeFrame d).errCode = s.errCode := rfl
@[simp] theorem State.storeFrame_rxState (s : State) (d : Bytes) : (s.storeFrame d).rxState = s.rxState := rfl
@[simp] theorem State.storeFrame_rxReject (s : State) (d : Bytes) :
    (s.storeFrame d).rxReject = s.rxReject := rfl
@[simp] theorem State.storeFrame_done (s : State) (d : Bytes) : (s.storeFrame d).done = s.done := rfl
@[simp] theorem State.storeFrame_txValid (s : State) (d : Bytes) : (s.storeFrame d).txValid = s.txValid := rfl
@[simp] theorem State.storeFrame_overrun (s : State) (d : Bytes) : (s.storeFrame d).overrun = s.overrun := rfl
@[simp] theorem State.storeFrame_key (s : State) (d : Bytes) : (s.storeFrame d).key = s.key := rfl
@[simp] theorem State.storeFrame_iv (s : State) (d : Bytes) : (s.storeFrame d).iv = s.iv := rfl
@[simp] theorem State.storeFrame_rd (s : State) (d : Bytes) : (s.storeFrame d).rd = s.rd := rfl
@[simp] theorem State.storeFrame_ptLen (s : State) (d : Bytes) : (s.storeFrame d).ptLen = s.ptLen := rfl
@[simp] theorem State.storeFrame_ctLen (s : State) (d : Bytes) : (s.storeFrame d).ctLen = s.ctLen := rfl
@[simp] theorem State.storeFrame_frLen (s : State) (d : Bytes) :
    (s.storeFrame d).frLen = lenWord d.length := rfl
@[simp] theorem State.storeFrame_tag (s : State) (d : Bytes) : (s.storeFrame d).tag = s.tag := rfl
@[simp] theorem State.storeFrame_mem (s : State) (d : Bytes) :
    (s.storeFrame d).mem = s.mem.writeBytes (bufBase .fr) d := rfl
@[simp] theorem State.storeFrame_pending (s : State) (d : Bytes) : (s.storeFrame d).pending = s.pending := rfl
@[simp] theorem State.storeFrame_bus (s : State) (d : Bytes) : (s.storeFrame d).bus = s.bus := rfl
@[simp] theorem State.storeFrame_readData (s : State) (d : Bytes) :
    (s.storeFrame d).readData = s.readData := rfl
@[simp] theorem State.storeFrame_draws (s : State) (d : Bytes) : (s.storeFrame d).draws = s.draws := rfl

@[simp] theorem State.storeBuilt_cfg (s : State) (d : Bytes) : (s.storeBuilt d).cfg = s.cfg := rfl
@[simp] theorem State.storeBuilt_lock (s : State) (d : Bytes) : (s.storeBuilt d).lock = s.lock := rfl
@[simp] theorem State.storeBuilt_ie (s : State) (d : Bytes) : (s.storeBuilt d).ie = s.ie := rfl
@[simp] theorem State.storeBuilt_err (s : State) (d : Bytes) : (s.storeBuilt d).err = s.err := rfl
@[simp] theorem State.storeBuilt_verifyOk (s : State) (d : Bytes) :
    (s.storeBuilt d).verifyOk = s.verifyOk := rfl
@[simp] theorem State.storeBuilt_errCode (s : State) (d : Bytes) : (s.storeBuilt d).errCode = s.errCode := rfl
@[simp] theorem State.storeBuilt_rxState (s : State) (d : Bytes) : (s.storeBuilt d).rxState = s.rxState := rfl
@[simp] theorem State.storeBuilt_rxReject (s : State) (d : Bytes) :
    (s.storeBuilt d).rxReject = s.rxReject := rfl
@[simp] theorem State.storeBuilt_done (s : State) (d : Bytes) : (s.storeBuilt d).done = s.done := rfl
@[simp] theorem State.storeBuilt_txValid (s : State) (d : Bytes) : (s.storeBuilt d).txValid = false := rfl
@[simp] theorem State.storeBuilt_overrun (s : State) (d : Bytes) : (s.storeBuilt d).overrun = s.overrun := rfl
@[simp] theorem State.storeBuilt_key (s : State) (d : Bytes) : (s.storeBuilt d).key = s.key := rfl
@[simp] theorem State.storeBuilt_iv (s : State) (d : Bytes) : (s.storeBuilt d).iv = s.iv := rfl
@[simp] theorem State.storeBuilt_rd (s : State) (d : Bytes) : (s.storeBuilt d).rd = s.rd := rfl
@[simp] theorem State.storeBuilt_ptLen (s : State) (d : Bytes) : (s.storeBuilt d).ptLen = s.ptLen := rfl
@[simp] theorem State.storeBuilt_ctLen (s : State) (d : Bytes) : (s.storeBuilt d).ctLen = s.ctLen := rfl
@[simp] theorem State.storeBuilt_frLen (s : State) (d : Bytes) :
    (s.storeBuilt d).frLen = lenWord d.length := rfl
@[simp] theorem State.storeBuilt_tag (s : State) (d : Bytes) : (s.storeBuilt d).tag = s.tag := rfl
@[simp] theorem State.storeBuilt_mem (s : State) (d : Bytes) :
    (s.storeBuilt d).mem = s.mem.writeBytes (bufBase .fr) d := rfl
@[simp] theorem State.storeBuilt_pending (s : State) (d : Bytes) : (s.storeBuilt d).pending = s.pending := rfl
@[simp] theorem State.storeBuilt_bus (s : State) (d : Bytes) : (s.storeBuilt d).bus = s.bus := rfl
@[simp] theorem State.storeBuilt_readData (s : State) (d : Bytes) :
    (s.storeBuilt d).readData = s.readData := rfl
@[simp] theorem State.storeBuilt_draws (s : State) (d : Bytes) : (s.storeBuilt d).draws = s.draws := rfl

@[simp] theorem State.storeParsed_cfg (s : State) (r : Bytes × Block) : (s.storeParsed r).cfg = s.cfg := rfl
@[simp] theorem State.storeParsed_lock (s : State) (r : Bytes × Block) :
    (s.storeParsed r).lock = s.lock := rfl
@[simp] theorem State.storeParsed_ie (s : State) (r : Bytes × Block) : (s.storeParsed r).ie = s.ie := rfl
@[simp] theorem State.storeParsed_err (s : State) (r : Bytes × Block) : (s.storeParsed r).err = s.err := rfl
@[simp] theorem State.storeParsed_verifyOk (s : State) (r : Bytes × Block) :
    (s.storeParsed r).verifyOk = s.verifyOk := rfl
@[simp] theorem State.storeParsed_errCode (s : State) (r : Bytes × Block) :
    (s.storeParsed r).errCode = s.errCode := rfl
@[simp] theorem State.storeParsed_rxState (s : State) (r : Bytes × Block) :
    (s.storeParsed r).rxState = s.rxState := rfl
@[simp] theorem State.storeParsed_rxReject (s : State) (r : Bytes × Block) :
    (s.storeParsed r).rxReject = s.rxReject := rfl
@[simp] theorem State.storeParsed_done (s : State) (r : Bytes × Block) :
    (s.storeParsed r).done = s.done := rfl
@[simp] theorem State.storeParsed_txValid (s : State) (r : Bytes × Block) :
    (s.storeParsed r).txValid = s.txValid := rfl
@[simp] theorem State.storeParsed_overrun (s : State) (r : Bytes × Block) :
    (s.storeParsed r).overrun = s.overrun := rfl
@[simp] theorem State.storeParsed_key (s : State) (r : Bytes × Block) : (s.storeParsed r).key = s.key := rfl
@[simp] theorem State.storeParsed_iv (s : State) (r : Bytes × Block) : (s.storeParsed r).iv = s.iv := rfl
@[simp] theorem State.storeParsed_rd (s : State) (r : Bytes × Block) : (s.storeParsed r).rd = s.rd := rfl
@[simp] theorem State.storeParsed_ptLen (s : State) (r : Bytes × Block) :
    (s.storeParsed r).ptLen = s.ptLen := rfl
@[simp] theorem State.storeParsed_ctLen (s : State) (r : Bytes × Block) :
    (s.storeParsed r).ctLen = lenWord r.1.length := rfl
@[simp] theorem State.storeParsed_frLen (s : State) (r : Bytes × Block) :
    (s.storeParsed r).frLen = s.frLen := rfl
@[simp] theorem State.storeParsed_tag (s : State) (r : Bytes × Block) :
    (s.storeParsed r).tag = blockQuad r.2 := rfl
@[simp] theorem State.storeParsed_mem (s : State) (r : Bytes × Block) :
    (s.storeParsed r).mem = s.mem.writeBytes (bufBase .ct) r.1 := rfl
@[simp] theorem State.storeParsed_pending (s : State) (r : Bytes × Block) :
    (s.storeParsed r).pending = s.pending := rfl
@[simp] theorem State.storeParsed_bus (s : State) (r : Bytes × Block) : (s.storeParsed r).bus = s.bus := rfl
@[simp] theorem State.storeParsed_readData (s : State) (r : Bytes × Block) :
    (s.storeParsed r).readData = s.readData := rfl
@[simp] theorem State.storeParsed_draws (s : State) (r : Bytes × Block) :
    (s.storeParsed r).draws = s.draws := rfl

@[simp] theorem State.storeSent_cfg (s : State) (r : SenderRun) :
    (s.storeSent r).cfg = s.cfg := by simp [State.storeSent]
@[simp] theorem State.storeSent_lock (s : State) (r : SenderRun) :
    (s.storeSent r).lock = s.lock := by simp [State.storeSent]
@[simp] theorem State.storeSent_ie (s : State) (r : SenderRun) :
    (s.storeSent r).ie = s.ie := by simp [State.storeSent]
@[simp] theorem State.storeSent_err (s : State) (r : SenderRun) :
    (s.storeSent r).err = s.err := by simp [State.storeSent]
@[simp] theorem State.storeSent_verifyOk (s : State) (r : SenderRun) :
    (s.storeSent r).verifyOk = s.verifyOk := by simp [State.storeSent]
@[simp] theorem State.storeSent_errCode (s : State) (r : SenderRun) :
    (s.storeSent r).errCode = s.errCode := by simp [State.storeSent]
@[simp] theorem State.storeSent_rxState (s : State) (r : SenderRun) :
    (s.storeSent r).rxState = s.rxState := by simp [State.storeSent]
@[simp] theorem State.storeSent_rxReject (s : State) (r : SenderRun) :
    (s.storeSent r).rxReject = s.rxReject := by simp [State.storeSent]
@[simp] theorem State.storeSent_done (s : State) (r : SenderRun) :
    (s.storeSent r).done = s.done := by simp [State.storeSent]
@[simp] theorem State.storeSent_txValid (s : State) (r : SenderRun) :
    (s.storeSent r).txValid = true := by simp [State.storeSent]
@[simp] theorem State.storeSent_overrun (s : State) (r : SenderRun) :
    (s.storeSent r).overrun = s.overrun := by simp [State.storeSent]
@[simp] theorem State.storeSent_key (s : State) (r : SenderRun) :
    (s.storeSent r).key = s.key := by simp [State.storeSent]
@[simp] theorem State.storeSent_iv (s : State) (r : SenderRun) :
    (s.storeSent r).iv = s.iv := by simp [State.storeSent]
@[simp] theorem State.storeSent_rd (s : State) (r : SenderRun) :
    (s.storeSent r).rd = s.rd := by simp [State.storeSent]
@[simp] theorem State.storeSent_ptLen (s : State) (r : SenderRun) :
    (s.storeSent r).ptLen = lenWord r.plain.length := by simp [State.storeSent]
@[simp] theorem State.storeSent_ctLen (s : State) (r : SenderRun) :
    (s.storeSent r).ctLen = lenWord r.cipher.length := by simp [State.storeSent]
@[simp] theorem State.storeSent_frLen (s : State) (r : SenderRun) :
    (s.storeSent r).frLen = lenWord r.frame.length := by simp [State.storeSent]
@[simp] theorem State.storeSent_tag (s : State) (r : SenderRun) :
    (s.storeSent r).tag = blockQuad r.tag := by simp [State.storeSent]
@[simp] theorem State.storeSent_mem (s : State) (r : SenderRun) :
    (s.storeSent r).mem =
      ((s.mem.writeBytes (bufBase .pt) r.plain).writeBytes (bufBase .ct) r.cipher).writeBytes (bufBase .fr) r.frame := by simp [State.storeSent]
@[simp] theorem State.storeSent_pending (s : State) (r : SenderRun) :
    (s.storeSent r).pending = s.pending := by simp [State.storeSent]
@[simp] theorem State.storeSent_bus (s : State) (r : SenderRun) :
    (s.storeSent r).bus = s.bus := by simp [State.storeSent]
@[simp] theorem State.storeSent_readData (s : State) (r : SenderRun) :
    (s.storeSent r).readData = s.readData := by simp [State.storeSent]
@[simp] theorem State.storeSent_draws (s : State) (r : SenderRun) :
    (s.storeSent r).draws = s.draws := by simp [State.storeSent]

@[simp] theorem State.rejectFrame_cfg (s : State) (r : RxReject) (e : ErrCode) :
    (s.rejectFrame r e).cfg = s.cfg := rfl
@[simp] theorem State.rejectFrame_lock (s : State) (r : RxReject) (e : ErrCode) :
    (s.rejectFrame r e).lock = s.lock := rfl
@[simp] theorem State.rejectFrame_ie (s : State) (r : RxReject) (e : ErrCode) :
    (s.rejectFrame r e).ie = s.ie := rfl
@[simp] theorem State.rejectFrame_err (s : State) (r : RxReject) (e : ErrCode) :
    (s.rejectFrame r e).err = true := rfl
@[simp] theorem State.rejectFrame_verifyOk (s : State) (r : RxReject) (e : ErrCode) :
    (s.rejectFrame r e).verifyOk = s.verifyOk := rfl
@[simp] theorem State.rejectFrame_errCode (s : State) (r : RxReject) (e : ErrCode) :
    (s.rejectFrame r e).errCode = e := rfl
@[simp] theorem State.rejectFrame_rxState (s : State) (r : RxReject) (e : ErrCode) :
    (s.rejectFrame r e).rxState = .rejected := rfl
@[simp] theorem State.rejectFrame_rxReject (s : State) (r : RxReject) (e : ErrCode) :
    (s.rejectFrame r e).rxReject = r := rfl
@[simp] theorem State.rejectFrame_done (s : State) (r : RxReject) (e : ErrCode) :
    (s.rejectFrame r e).done = true := rfl
@[simp] theorem State.rejectFrame_txValid (s : State) (r : RxReject) (e : ErrCode) :
    (s.rejectFrame r e).txValid = s.txValid := rfl
@[simp] theorem State.rejectFrame_overrun (s : State) (r : RxReject) (e : ErrCode) :
    (s.rejectFrame r e).overrun = s.overrun := rfl
@[simp] theorem State.rejectFrame_key (s : State) (r : RxReject) (e : ErrCode) :
    (s.rejectFrame r e).key = s.key := rfl
@[simp] theorem State.rejectFrame_iv (s : State) (r : RxReject) (e : ErrCode) :
    (s.rejectFrame r e).iv = s.iv := rfl
@[simp] theorem State.rejectFrame_rd (s : State) (r : RxReject) (e : ErrCode) :
    (s.rejectFrame r e).rd = s.rd := rfl
@[simp] theorem State.rejectFrame_ptLen (s : State) (r : RxReject) (e : ErrCode) :
    (s.rejectFrame r e).ptLen = s.ptLen := rfl
@[simp] theorem State.rejectFrame_ctLen (s : State) (r : RxReject) (e : ErrCode) :
    (s.rejectFrame r e).ctLen = s.ctLen := rfl
@[simp] theorem State.rejectFrame_frLen (s : State) (r : RxReject) (e : ErrCode) :
    (s.rejectFrame r e).frLen = s.frLen := rfl
@[simp] theorem State.rejectFrame_tag (s : State) (r : RxReject) (e : ErrCode) :
    (s.rejectFrame r e).tag = s.tag := rfl
@[simp] theorem State.rejectFrame_mem (s : State) (r : RxReject) (e : ErrCode) :
    (s.rejectFrame r e).mem = s.mem := rfl
@[simp] theorem State.rejectFrame_pending (s : State) (r : RxReject) (e : ErrCode) :
    (s.rejectFrame r e).pending = none := rfl
@[simp] theorem State.rejectFrame_bus (s : State) (r : RxReject) (e : ErrCode) :
    (s.rejectFrame r e).bus = s.bus := rfl
@[simp] theorem State.rejectFrame_readData (s : State) (r : RxReject) (e : ErrCode) :
    (s.rejectFrame r e).readData = s.readData := rfl
@[simp] theorem State.rejectFrame_draws (s : State) (r : RxReject) (e : ErrCode) :
    (s.rejectFrame r e).draws = s.draws := rfl

@[simp] theorem State.clearReceiver_cfg (s : State) : (s.clearReceiver).cfg = s.cfg := rfl
@[simp] theorem State.clearReceiver_lock (s : State) : (s.clearReceiver).lock = s.lock := rfl
@[simp] theorem State.clearReceiver_ie (s : State) : (s.clearReceiver).ie = s.ie := rfl
@[simp] theorem State.clearReceiver_err (s : State) : (s.clearReceiver).err = s.err := rfl
@[simp] theorem State.clearReceiver_verifyOk (s : State) : (s.clearReceiver).verifyOk = false := rfl
@[simp] theorem State.clearReceiver_errCode (s : State) : (s.clearReceiver).errCode = s.errCode := rfl
@[simp] theorem State.clearReceiver_rxState (s : State) : (s.clearReceiver).rxState = .awaitingFrame := rfl
@[simp] theorem State.clearReceiver_rxReject (s : State) : (s.clearReceiver).rxReject = .none := rfl
@[simp] theorem State.clearReceiver_done (s : State) : (s.clearReceiver).done = s.done := rfl
@[simp] theorem State.clearReceiver_txValid (s : State) : (s.clearReceiver).txValid = s.txValid := rfl
@[simp] theorem State.clearReceiver_overrun (s : State) : (s.clearReceiver).overrun = s.overrun := rfl
@[simp] theorem State.clearReceiver_key (s : State) : (s.clearReceiver).key = s.key := rfl
@[simp] theorem State.clearReceiver_iv (s : State) : (s.clearReceiver).iv = s.iv := rfl
@[simp] theorem State.clearReceiver_rd (s : State) : (s.clearReceiver).rd = s.rd := rfl
@[simp] theorem State.clearReceiver_ptLen (s : State) : (s.clearReceiver).ptLen = s.ptLen := rfl
@[simp] theorem State.clearReceiver_ctLen (s : State) : (s.clearReceiver).ctLen = s.ctLen := rfl
@[simp] theorem State.clearReceiver_frLen (s : State) : (s.clearReceiver).frLen = s.frLen := rfl
@[simp] theorem State.clearReceiver_tag (s : State) : (s.clearReceiver).tag = s.tag := rfl
@[simp] theorem State.clearReceiver_mem (s : State) : (s.clearReceiver).mem = s.mem := rfl
@[simp] theorem State.clearReceiver_pending (s : State) : (s.clearReceiver).pending = s.pending := rfl
@[simp] theorem State.clearReceiver_bus (s : State) : (s.clearReceiver).bus = s.bus := rfl
@[simp] theorem State.clearReceiver_readData (s : State) : (s.clearReceiver).readData = s.readData := rfl
@[simp] theorem State.clearReceiver_draws (s : State) : (s.clearReceiver).draws = s.draws := rfl

@[simp] theorem State.acceptClears_cfg (s : State) (i : Instr) :
    (s.acceptClears i).cfg = s.cfg := by cases i <;> rfl
@[simp] theorem State.acceptClears_lock (s : State) (i : Instr) :
    (s.acceptClears i).lock = s.lock := by cases i <;> rfl
@[simp] theorem State.acceptClears_ie (s : State) (i : Instr) :
    (s.acceptClears i).ie = s.ie := by cases i <;> rfl
@[simp] theorem State.acceptClears_err (s : State) (i : Instr) :
    (s.acceptClears i).err = s.err := by cases i <;> rfl
@[simp] theorem State.acceptClears_errCode (s : State) (i : Instr) :
    (s.acceptClears i).errCode = s.errCode := by cases i <;> rfl
@[simp] theorem State.acceptClears_done (s : State) (i : Instr) :
    (s.acceptClears i).done = s.done := by cases i <;> rfl
@[simp] theorem State.acceptClears_txValid (s : State) (i : Instr) :
    (s.acceptClears i).txValid = s.txValid := by cases i <;> rfl
@[simp] theorem State.acceptClears_overrun (s : State) (i : Instr) :
    (s.acceptClears i).overrun = s.overrun := by cases i <;> rfl
@[simp] theorem State.acceptClears_key (s : State) (i : Instr) :
    (s.acceptClears i).key = s.key := by cases i <;> rfl
@[simp] theorem State.acceptClears_iv (s : State) (i : Instr) :
    (s.acceptClears i).iv = s.iv := by cases i <;> rfl
@[simp] theorem State.acceptClears_rd (s : State) (i : Instr) :
    (s.acceptClears i).rd = s.rd := by cases i <;> rfl
@[simp] theorem State.acceptClears_ptLen (s : State) (i : Instr) :
    (s.acceptClears i).ptLen = s.ptLen := by cases i <;> rfl
@[simp] theorem State.acceptClears_ctLen (s : State) (i : Instr) :
    (s.acceptClears i).ctLen = s.ctLen := by cases i <;> rfl
@[simp] theorem State.acceptClears_frLen (s : State) (i : Instr) :
    (s.acceptClears i).frLen = s.frLen := by cases i <;> rfl
@[simp] theorem State.acceptClears_tag (s : State) (i : Instr) :
    (s.acceptClears i).tag = s.tag := by cases i <;> rfl
@[simp] theorem State.acceptClears_mem (s : State) (i : Instr) :
    (s.acceptClears i).mem = s.mem := by cases i <;> rfl
@[simp] theorem State.acceptClears_pending (s : State) (i : Instr) :
    (s.acceptClears i).pending = s.pending := by cases i <;> rfl
@[simp] theorem State.acceptClears_bus (s : State) (i : Instr) :
    (s.acceptClears i).bus = s.bus := by cases i <;> rfl
@[simp] theorem State.acceptClears_readData (s : State) (i : Instr) :
    (s.acceptClears i).readData = s.readData := by cases i <;> rfl
@[simp] theorem State.acceptClears_draws (s : State) (i : Instr) :
    (s.acceptClears i).draws = s.draws := by cases i <;> rfl

@[simp] theorem State.accept_cfg (s : State) (w : Word) (i : Instr) :
    (s.accept w i).cfg = s.cfg := by cases i <;> rfl
@[simp] theorem State.accept_lock (s : State) (w : Word) (i : Instr) :
    (s.accept w i).lock = s.lock := by cases i <;> rfl
@[simp] theorem State.accept_ie (s : State) (w : Word) (i : Instr) :
    (s.accept w i).ie = s.ie := by cases i <;> rfl
@[simp] theorem State.accept_err (s : State) (w : Word) (i : Instr) : (s.accept w i).err = false := rfl
@[simp] theorem State.accept_verifyOk (s : State) (w : Word) (i : Instr) :
    (s.accept w i).verifyOk = (s.acceptClears i).verifyOk := rfl
@[simp] theorem State.accept_errCode (s : State) (w : Word) (i : Instr) :
    (s.accept w i).errCode = .none := rfl
@[simp] theorem State.accept_rxState (s : State) (w : Word) (i : Instr) :
    (s.accept w i).rxState = (s.acceptClears i).rxState := rfl
@[simp] theorem State.accept_rxReject (s : State) (w : Word) (i : Instr) :
    (s.accept w i).rxReject = (s.acceptClears i).rxReject := rfl
@[simp] theorem State.accept_done (s : State) (w : Word) (i : Instr) : (s.accept w i).done = false := rfl
@[simp] theorem State.accept_txValid (s : State) (w : Word) (i : Instr) :
    (s.accept w i).txValid = s.txValid := by cases i <;> rfl
@[simp] theorem State.accept_overrun (s : State) (w : Word) (i : Instr) :
    (s.accept w i).overrun = s.overrun := by cases i <;> rfl
@[simp] theorem State.accept_key (s : State) (w : Word) (i : Instr) :
    (s.accept w i).key = s.key := by cases i <;> rfl
@[simp] theorem State.accept_iv (s : State) (w : Word) (i : Instr) :
    (s.accept w i).iv = s.iv := by cases i <;> rfl
@[simp] theorem State.accept_rd (s : State) (w : Word) (i : Instr) :
    (s.accept w i).rd = s.rd := by cases i <;> rfl
@[simp] theorem State.accept_ptLen (s : State) (w : Word) (i : Instr) :
    (s.accept w i).ptLen = s.ptLen := by cases i <;> rfl
@[simp] theorem State.accept_ctLen (s : State) (w : Word) (i : Instr) :
    (s.accept w i).ctLen = s.ctLen := by cases i <;> rfl
@[simp] theorem State.accept_frLen (s : State) (w : Word) (i : Instr) :
    (s.accept w i).frLen = s.frLen := by cases i <;> rfl
@[simp] theorem State.accept_tag (s : State) (w : Word) (i : Instr) :
    (s.accept w i).tag = s.tag := by cases i <;> rfl
@[simp] theorem State.accept_mem (s : State) (w : Word) (i : Instr) :
    (s.accept w i).mem = s.mem := by cases i <;> rfl
@[simp] theorem State.accept_pending (s : State) (w : Word) (i : Instr) :
    (s.accept w i).pending = some (s.pendingOf w i) := rfl
@[simp] theorem State.accept_bus (s : State) (w : Word) (i : Instr) :
    (s.accept w i).bus = s.bus := by cases i <;> rfl
@[simp] theorem State.accept_readData (s : State) (w : Word) (i : Instr) :
    (s.accept w i).readData = s.readData := by cases i <;> rfl
@[simp] theorem State.accept_draws (s : State) (w : Word) (i : Instr) :
    (s.accept w i).draws = s.draws := by cases i <;> rfl

@[simp] theorem State.afterReset_cfg (cfg : Params) (n : Nat) (bus : List BusOp) (draws : Nat) :
    (State.afterReset cfg n bus draws).cfg = cfg := rfl
@[simp] theorem State.afterReset_lock (cfg : Params) (n : Nat) (bus : List BusOp) (draws : Nat) :
    (State.afterReset cfg n bus draws).lock = false := rfl
@[simp] theorem State.afterReset_ie (cfg : Params) (n : Nat) (bus : List BusOp) (draws : Nat) :
    (State.afterReset cfg n bus draws).ie = false := rfl
@[simp] theorem State.afterReset_err (cfg : Params) (n : Nat) (bus : List BusOp) (draws : Nat) :
    (State.afterReset cfg n bus draws).err = false := rfl
@[simp] theorem State.afterReset_verifyOk (cfg : Params) (n : Nat) (bus : List BusOp) (draws : Nat) :
    (State.afterReset cfg n bus draws).verifyOk = false := rfl
@[simp] theorem State.afterReset_errCode (cfg : Params) (n : Nat) (bus : List BusOp) (draws : Nat) :
    (State.afterReset cfg n bus draws).errCode = .none := rfl
@[simp] theorem State.afterReset_rxState (cfg : Params) (n : Nat) (bus : List BusOp) (draws : Nat) :
    (State.afterReset cfg n bus draws).rxState = .awaitingFrame := rfl
@[simp] theorem State.afterReset_rxReject (cfg : Params) (n : Nat) (bus : List BusOp) (draws : Nat) :
    (State.afterReset cfg n bus draws).rxReject = .none := rfl
@[simp] theorem State.afterReset_done (cfg : Params) (n : Nat) (bus : List BusOp) (draws : Nat) :
    (State.afterReset cfg n bus draws).done = false := rfl
@[simp] theorem State.afterReset_txValid (cfg : Params) (n : Nat) (bus : List BusOp) (draws : Nat) :
    (State.afterReset cfg n bus draws).txValid = false := rfl
@[simp] theorem State.afterReset_overrun (cfg : Params) (n : Nat) (bus : List BusOp) (draws : Nat) :
    (State.afterReset cfg n bus draws).overrun = false := rfl
@[simp] theorem State.afterReset_key (cfg : Params) (n : Nat) (bus : List BusOp) (draws : Nat) :
    (State.afterReset cfg n bus draws).key = .zero := rfl
@[simp] theorem State.afterReset_iv (cfg : Params) (n : Nat) (bus : List BusOp) (draws : Nat) :
    (State.afterReset cfg n bus draws).iv = .zero := rfl
@[simp] theorem State.afterReset_rd (cfg : Params) (n : Nat) (bus : List BusOp) (draws : Nat) :
    (State.afterReset cfg n bus draws).rd = .zero := rfl
@[simp] theorem State.afterReset_ptLen (cfg : Params) (n : Nat) (bus : List BusOp) (draws : Nat) :
    (State.afterReset cfg n bus draws).ptLen = 0 := rfl
@[simp] theorem State.afterReset_ctLen (cfg : Params) (n : Nat) (bus : List BusOp) (draws : Nat) :
    (State.afterReset cfg n bus draws).ctLen = 0 := rfl
@[simp] theorem State.afterReset_frLen (cfg : Params) (n : Nat) (bus : List BusOp) (draws : Nat) :
    (State.afterReset cfg n bus draws).frLen = 0 := rfl
@[simp] theorem State.afterReset_tag (cfg : Params) (n : Nat) (bus : List BusOp) (draws : Nat) :
    (State.afterReset cfg n bus draws).tag = .zero := rfl
@[simp] theorem State.afterReset_mem (cfg : Params) (n : Nat) (bus : List BusOp) (draws : Nat) :
    (State.afterReset cfg n bus draws).mem = { epoch := n, cells := [] } := rfl
@[simp] theorem State.afterReset_pending (cfg : Params) (n : Nat) (bus : List BusOp) (draws : Nat) :
    (State.afterReset cfg n bus draws).pending = none := rfl
@[simp] theorem State.afterReset_bus (cfg : Params) (n : Nat) (bus : List BusOp) (draws : Nat) :
    (State.afterReset cfg n bus draws).bus = bus := rfl
@[simp] theorem State.afterReset_readData (cfg : Params) (n : Nat) (bus : List BusOp) (draws : Nat) :
    (State.afterReset cfg n bus draws).readData = none := rfl
@[simp] theorem State.afterReset_draws (cfg : Params) (n : Nat) (bus : List BusOp) (draws : Nat) :
    (State.afterReset cfg n bus draws).draws = draws := rfl

end Sys2Proof.Machine
end

