-- ==== Sys2Proof/Laws/Strings.lean ====
section
/-! SUPPORT. The laws of the byte layouts: lengths, a string and its blocks, a word and its bytes, and
the XOR of blocks. -/

namespace Sys2Proof.Machine

@[simp] theorem colBytes_length (x : Col) : (colBytes x).length = 4 := rfl

@[simp] theorem blockBytes_length (x : Block) : (blockBytes x).length = 16 := rfl

@[simp] theorem blockOf_blockBytes (x : Block) : blockOf (blockBytes x) = x := rfl

/-- The first sixteen bytes of a string decide its first block. -/
@[simp] theorem blockOf_blockBytes_append (x : Block) (s : Bytes) : blockOf (blockBytes x ++ s) = x := rfl

theorem blockBytes_blockOf (s : Bytes) (h : s.length = 16) : blockBytes (blockOf s) = s := by
  match s, h with
  | [_, _, _, _, _, _, _, _, _, _, _, _, _, _, _, _], _ => rfl

theorem blockBytes_injective (x y : Block) (h : blockBytes x = blockBytes y) : x = y := by
  rw [← blockOf_blockBytes x, h, blockOf_blockBytes]

@[simp] theorem fromLe32_le32 (w : Word) : fromLe32 (le32 w) = w := by
  simp only [fromLe32, le32]
  ext i hi
  simp only [BitVec.getElem_append, BitVec.getElem_extractLsb']
  rw [← BitVec.getLsbD_eq_getElem]
  repeat' split
  all_goals congr 1; omega

@[simp] theorem fromBe32_be32 (w : Word) : fromBe32 (be32 w) = w := fromLe32_le32 w

@[simp] theorem le32_fromLe32 (x : Col) : le32 (fromLe32 x) = x := by
  obtain ⟨a, b, c, d⟩ := x
  simp only [fromLe32, le32, Col.mk.injEq]
  refine ⟨?_, ?_, ?_, ?_⟩ <;>
  · ext i hi
    simp only [BitVec.getElem_extractLsb', BitVec.getLsbD_append]
    rw [← BitVec.getLsbD_eq_getElem]
    repeat' split
    all_goals first | omega | (congr 1; omega)

@[simp] theorem be32_fromBe32 (x : Col) : be32 (fromBe32 x) = x := by
  have h := le32_fromLe32 ⟨x.b3, x.b2, x.b1, x.b0⟩
  simp only [le32, fromLe32, Col.mk.injEq] at h
  obtain ⟨h0, h1, h2, h3⟩ := h
  simp only [be32, fromBe32, h0, h1, h2, h3]

@[simp] theorem quadBlock_blockQuad (x : Block) : quadBlock (blockQuad x) = x := by
  simp [quadBlock, blockQuad]

@[simp] theorem blockQuad_quadBlock (q : Quad) : blockQuad (quadBlock q) = q := by
  simp [quadBlock, blockQuad]

@[simp] theorem lenWord_toNat (n : Nat) (h : n < 2 ^ 32) : (lenWord n).toNat = n := by
  simpa [lenWord] using h

@[simp] theorem takeBlocks_length (n : Nat) (s : Bytes) : (takeBlocks n s).length = n := by
  induction n generalizing s with
  | zero => rfl
  | succ n ih => simp [takeBlocks, ih]

@[simp] theorem toBlocks_length (s : Bytes) : (toBlocks s).length = s.length / 16 := takeBlocks_length ..

@[simp] theorem ofBlocks_length (xs : List Block) : (ofBlocks xs).length = 16 * xs.length := by
  induction xs with
  | nil => rfl
  | cons x xs ih => simp [ofBlocks, ih]; omega

/-- The blocks of the string of some blocks are those blocks. -/
@[simp] theorem toBlocks_ofBlocks (xs : List Block) : toBlocks (ofBlocks xs) = xs := by
  suffices h : ∀ xs : List Block, takeBlocks xs.length (ofBlocks xs) = xs by
    simpa [toBlocks] using h xs
  intro xs
  induction xs with
  | nil => rfl
  | cons x xs ih =>
    simp only [List.length_cons, takeBlocks, ofBlocks, blockOf_blockBytes_append]
    rw [List.drop_left' (blockBytes_length x), ih]

theorem blockOf_take (s : Bytes) (h : 16 ≤ s.length) : blockBytes (blockOf s) = s.take 16 := by
  have h1 : blockOf s = blockOf (s.take 16) := by
    conv_lhs => rw [← List.take_append_drop 16 s]
    rw [← blockBytes_blockOf (s.take 16) (by simp [h])]
    rfl
  rw [h1, blockBytes_blockOf _ (by simp [h])]

/-- A string of whole blocks is the string of its blocks. -/
theorem ofBlocks_toBlocks (s : Bytes) (h : s.length % 16 = 0) : ofBlocks (toBlocks s) = s := by
  suffices hn : ∀ (n : Nat) (s : Bytes), s.length = 16 * n → ofBlocks (takeBlocks n s) = s by
    exact hn _ s (by omega)
  intro n
  induction n with
  | zero => intro s hs; simp only [takeBlocks, ofBlocks, List.nil_eq]; exact List.length_eq_zero_iff.1 (by omega)
  | succ n ih =>
    intro s hs
    rw [takeBlocks, ofBlocks, blockOf_take s (by omega), ih _ (by simp; omega), List.take_append_drop]

@[simp] theorem Col.xor_self_right (x y : Col) : (x.xor y).xor y = x := by
  simp [Col.xor]

/-- XOR with the same block twice gives the block back. -/
@[simp] theorem Block.xor_self_right (x y : Block) : (x.xor y).xor y = x := by
  simp [Block.xor]

theorem Block.xor_left_injective (x y z : Block) (h : x.xor z = y.xor z) : x = y := by
  rw [← Block.xor_self_right x z, h, Block.xor_self_right]

@[simp] theorem cbcEncryptBlocks_length (K c : Block) (xs : List Block) :
    (cbcEncryptBlocks K c xs).length = xs.length := by
  induction xs generalizing c with
  | nil => rfl
  | cons x xs ih => simp [cbcEncryptBlocks, ih]

@[simp] theorem cbcDecryptBlocks_length (K c : Block) (ys : List Block) :
    (cbcDecryptBlocks K c ys).length = ys.length := by
  induction ys generalizing c with
  | nil => rfl
  | cons y ys ih => simp [cbcDecryptBlocks, ih]

@[simp] theorem cbcEncryptRaw_length (K iv : Block) (x : Bytes) :
    (cbcEncryptRaw K iv x).length = 16 * (x.length / 16) := by
  simp [cbcEncryptRaw]

@[simp] theorem cbcDecryptRaw_length (K iv : Block) (c : Bytes) :
    (cbcDecryptRaw K iv c).length = 16 * (c.length / 16) := by
  simp [cbcDecryptRaw]

/-- A successful unpadding removes at least one byte and at most sixteen. -/
theorem pkcs7Unpad_ok_length (d p : Bytes) (h : pkcs7Unpad d = .ok p) :
    p.length < d.length ∧ d.length ≤ p.length + 16 := by
  simp only [pkcs7Unpad] at h
  split at h
  · rename_i hc
    cases h
    obtain ⟨h1, h2, h3⟩ := hc
    have := congrArg List.length h3
    simp only [List.length_drop, List.length_replicate] at this
    simp only [List.length_take]
    omega
  · cases h

/-- Unpadding fails with PaddingError only (R171). -/
theorem pkcs7Unpad_error (d : Bytes) (e : ErrCode) (h : pkcs7Unpad d = .error e) : e = .paddingError := by
  unfold pkcs7Unpad at h
  dsimp only at h
  split at h
  · simp at h
  · simpa [eq_comm] using h

/-- Decryption fails with one of the CipherEngine's two errors, the alignment first (R175). -/
theorem decryptString_error (c : Bytes) (K iv : Block) (e : ErrCode) (h : decryptString c K iv = .error e) :
    (c.length % 16 ≠ 0 ∧ e = .blockAlignmentError) ∨ (c.length % 16 = 0 ∧ e = .paddingError) := by
  unfold decryptString at h
  by_cases h1 : c.length % 16 = 0
  · rw [if_neg (by omega)] at h
    by_cases h2 : c.length = 0
    · rw [if_pos h2] at h
      exact .inr ⟨h1, by simpa [eq_comm] using h⟩
    · rw [if_neg h2] at h
      exact .inr ⟨h1, pkcs7Unpad_error _ _ h⟩
  · rw [if_pos h1] at h
    exact .inl ⟨h1, by simpa [eq_comm] using h⟩

/-- A decrypted string is shorter than the ciphertext it came from, by one to sixteen bytes (R175). -/
theorem decryptString_ok_length (c d : Bytes) (K iv : Block) (h : decryptString c K iv = .ok d) :
    c.length % 16 = 0 ∧ d.length < c.length ∧ c.length ≤ d.length + 16 := by
  simp only [decryptString] at h
  split at h
  · cases h
  · split at h
    · cases h
    · have := pkcs7Unpad_ok_length _ _ h
      simp only [cbcDecryptRaw_length] at this
      omega

end Sys2Proof.Machine
end

