-- ==== Sys2Proof/Laws/Ops.lean ====
section
/-! SUPPORT. For each shared operation, one lemma that says everything it can do: the end of a command,
a command's checks, the host's side of a clock, the engine's side, and the step. -/

namespace Sys2Proof.Machine

/-- `settle` answers a next state always, and one of two. -/
theorem settle_cases {α : Type} (r : Except ErrCode α) (commit : α → State → State) (s : State) :
    (∃ a, r = .ok a ∧ settle r commit s = .next (commit a s).complete) ∨
    (∃ e, r = .error e ∧ settle r commit s = .next (s.raiseFail e)) := by
  cases r with
  | ok a => exact .inl ⟨a, rfl, rfl⟩
  | error e => exact .inr ⟨e, rfl, rfl⟩

theorem settle_next {α : Type} {r : Except ErrCode α} {commit : α → State → State} {s t : State}
    (h : settle r commit s = .next t) :
    (∃ a, r = .ok a ∧ t = (commit a s).complete) ∨ (∃ e, r = .error e ∧ t = s.raiseFail e) := by
  rcases settle_cases r commit s with ⟨a, ha, h'⟩ | ⟨e, he, h'⟩ <;> rw [h] at h' <;> cases h'
  · exact .inl ⟨a, ha, rfl⟩
  · exact .inr ⟨e, he, rfl⟩

theorem settle_answers_next {α : Type} (r : Except ErrCode α) (commit : α → State → State) (s : State) :
    ∃ t, settle r commit s = .next t := by
  cases r <;> exact ⟨_, rfl⟩

theorem settle_of_ok {α : Type} {r : Except ErrCode α} {a : α} (h : r = .ok a)
    (commit : α → State → State) (s : State) : settle r commit s = .next (commit a s).complete := by
  subst h; rfl

theorem settle_of_error {α : Type} {r : Except ErrCode α} {e : ErrCode} (h : r = .error e)
    (commit : α → State → State) (s : State) : settle r commit s = .next (s.raiseFail e) := by
  subst h; rfl

/-- What TAG_VERIFY can do. -/
theorem execTagVerify_cases (s : State) :
    (tagVerifyResult s.cfg s.inputs = .ok true ∧
      execTagVerify s = .next (s.setVerifyOk true).complete) ∨
    (tagVerifyResult s.cfg s.inputs = .ok false ∧
      execTagVerify s = .next ((s.setVerifyOk false).raiseFail .tamperDetected)) ∨
    (∃ e, tagVerifyResult s.cfg s.inputs = .error e ∧
      execTagVerify s = .next ((s.setVerifyOk false).raiseFail e)) := by
  unfold execTagVerify
  split
  · exact .inl ⟨‹_›, rfl⟩
  · exact .inr (.inl ⟨‹_›, rfl⟩)
  · exact .inr (.inr ⟨_, ‹_›, rfl⟩)

/-- Every meaning answers a next state: no command stops the machine (R261). -/
theorem exec_answers_next (i : Instr) (s : State) : ∃ t, exec i s = .next t := by
  cases i with
  | encode => exact ⟨_, rfl⟩
  | decode => exact settle_answers_next _ _ s
  | encrypt => exact settle_answers_next _ _ s
  | decrypt => exact settle_answers_next _ _ s
  | tagGen => exact settle_answers_next _ _ s
  | tagVerify => rcases execTagVerify_cases s with ⟨_, h⟩ | ⟨_, h⟩ | ⟨_, _, h⟩ <;> exact ⟨_, h⟩
  | frameBuild => exact settle_answers_next _ _ s
  | frameParse => exact settle_answers_next _ _ s
  | send => exact settle_answers_next _ _ s
  | receive => exact ⟨_, rfl⟩

/-- What the stages of a RECEIVE can come to, and when: one case for each row of R226, and the two
command errors of R233. -/
theorem rxOutcome_cases (cfg : Params) (x : Inputs) :
    (x.lock = false ∧ rxOutcome cfg x = .commandError .keyNotLocked) ∨
    (x.lock = true ∧ cfg.bufCap < x.frLen.toNat ∧ rxOutcome cfg x = .commandError .lengthError) ∨
    (x.lock = true ∧ x.frLen.toNat ≤ cfg.bufCap ∧
      ((x.frLen.toNat < 16 ∧ rxOutcome cfg x = .tooShort) ∨
       (16 ≤ x.frLen.toNat ∧ ∃ c t,
         c = x.frame.take (x.frLen.toNat - 16) ∧ t = blockOf (x.frame.drop (x.frLen.toNat - 16)) ∧
         ((verifyTag x.keyBlock c t = false ∧ rxOutcome cfg x = .tampered c t) ∨
          (verifyTag x.keyBlock c t = true ∧
            ((∃ e, decryptString c x.keyBlock x.ivBlock = .error e ∧
               rxOutcome cfg x = .undecryptable c t e) ∨
             (∃ d, decryptString c x.keyBlock x.ivBlock = .ok d ∧
               ((d.length ≠ 16 ∧ rxOutcome cfg x = .badSize c t d) ∨
                (d.length = 16 ∧
                  rxOutcome cfg x = .delivered c t d (decodeBlock cfg.order (blockOf d))))))))))) := by
  cases hl : x.lock with
  | false => exact .inl ⟨rfl, by simp [rxOutcome, hl]⟩
  | true =>
    refine .inr ?_
    by_cases hc : cfg.bufCap < x.frLen.toNat
    · exact .inl ⟨rfl, hc, by simp [rxOutcome, hl, hc]⟩
    refine .inr ⟨rfl, by omega, ?_⟩
    have hlen : x.frame.length = x.frLen.toNat := by simp [Inputs.frame]
    by_cases hs : x.frLen.toNat < 16
    · exact .inl ⟨hs, by simp [rxOutcome, hl, hc, parseFrame, hlen, hs]⟩
    refine .inr ⟨by omega, _, _, rfl, rfl, ?_⟩
    have hv : rxOutcome cfg x = rxVerify cfg x (x.frame.take (x.frLen.toNat - 16))
        (blockOf (x.frame.drop (x.frLen.toNat - 16))) := by
      simp [rxOutcome, hl, hc, parseFrame, hlen, hs]
    rw [hv]
    unfold rxVerify
    split
    · rename_i hok
      refine .inr ⟨hok, ?_⟩
      unfold rxDecrypt
      split
      · rename_i e he
        exact .inl ⟨e, he, rfl⟩
      · rename_i d hd
        refine .inr ⟨d, hd, ?_⟩
        unfold rxValidate decodeReading
        by_cases h16 : d.length = 16 <;> simp [h16]
    · rename_i hbad
      exact .inl ⟨by simpa using hbad, rfl⟩

/-- What the host's side of a clock can do. -/
theorem hostClock_cases (s : State) :
    (s.bus = [] ∧ s.hostClock = .next s) ∨
    (∃ rest, s.bus = .idle :: rest ∧ s.hostClock = .next (s.popBus rest)) ∨
    (∃ rest, s.bus = .reset :: rest ∧ s.hostClock = .next (s.resetInput rest)) ∨
    (∃ w off rest, s.bus = .read w off :: rest ∧ accessWellFormed w off = true ∧
      s.hostClock = .next ((s.popBus rest).hostRead (regOf off))) ∨
    (∃ w off v rest, s.bus = .write w off v :: rest ∧ accessWellFormed w off = true ∧
      s.hostClock = .next ((s.popBus rest).hostWrite (regOf off) v)) ∨
    ((∃ w off rest, accessWellFormed w off = false ∧
      (s.bus = .read w off :: rest ∨ ∃ v, s.bus = .write w off v :: rest)) ∧
      s.hostClock = .refused .busError) := by
  match h : s.bus with
  | [] => exact .inl ⟨rfl, by simp [State.hostClock, h]⟩
  | .idle :: rest => exact .inr (.inl ⟨rest, rfl, by simp [State.hostClock, h]⟩)
  | .reset :: rest => exact .inr (.inr (.inl ⟨rest, rfl, by simp [State.hostClock, h]⟩))
  | .read w off :: rest =>
    cases hw : accessWellFormed w off with
    | true => exact .inr (.inr (.inr (.inl ⟨w, off, rest, rfl, hw, by simp [State.hostClock, h, hw]⟩)))
    | false =>
      exact .inr (.inr (.inr (.inr (.inr ⟨⟨w, off, rest, hw, .inl rfl⟩, by simp [State.hostClock, h, hw]⟩))))
  | .write w off v :: rest =>
    cases hw : accessWellFormed w off with
    | true =>
      exact .inr (.inr (.inr (.inr (.inl ⟨w, off, v, rest, rfl, hw, by simp [State.hostClock, h, hw]⟩))))
    | false =>
      exact .inr (.inr (.inr (.inr (.inr ⟨⟨w, off, rest, hw, .inr ⟨v, rfl⟩⟩, by simp [State.hostClock, h, hw]⟩))))

/-- What the engine's side of a clock can do. -/
theorem engineClock_cases (s : State) :
    (s.pending = none ∧ s.engineClock = .next s) ∨
    (∃ p n, s.pending = some p ∧ p.left = n + 1 ∧
      s.engineClock = .next (s.setPending (some { p with left := n }))) ∨
    (∃ p i, s.pending = some p ∧ p.left = 0 ∧ decode p.word = .ok i ∧ s.engineClock = exec i s) ∨
    (∃ p e, s.pending = some p ∧ p.left = 0 ∧ decode p.word = .error e ∧
      s.engineClock = .next (s.recordIllegal.setPending none)) := by
  match h : s.pending with
  | none => exact .inl ⟨rfl, by simp [State.engineClock, h]⟩
  | some p =>
    match hl : p.left with
    | n + 1 => exact .inr (.inl ⟨p, n, rfl, hl, by simp [State.engineClock, h, hl]⟩)
    | 0 =>
      match hd : decode p.word with
      | .ok i => exact .inr (.inr (.inl ⟨p, i, rfl, hl, hd, by simp [State.engineClock, h, hl, State.finishHeld, hd]⟩))
      | .error e =>
        exact .inr (.inr (.inr ⟨p, e, rfl, hl, hd, by simp [State.engineClock, h, hl, State.finishHeld, hd]⟩))

/-- What a step can do: the host's side of the clock, then the engine's, if a command was running. -/
theorem step_next {s u : State} (h : step s = .next u) :
    ∃ t, s.hostClock = .next t ∧
      ((s.busy = true ∧ t.engineClock = .next u) ∨ (s.busy = false ∧ u = t)) := by
  unfold step State.clock at h
  split at h
  · rename_i t ht
    refine ⟨t, ht, ?_⟩
    split at h
    · exact .inl ⟨‹_›, h⟩
    · rename_i hb
      exact .inr ⟨by simpa using hb, by cases h; rfl⟩
  · cases h
  · cases h

theorem shownPlace_ge (s : State) (i : Instr) (p : Pending) (r : Reg) : p.rxSeen ≤ s.shownPlace i p r := by
  unfold State.shownPlace pathPlace
  split
  · exact Nat.le_add_right _ _
  · exact Nat.le_refl _

/-- A host read leaves the held command word, its snapshot and its latency, and the place shown on its
path never goes back. -/
theorem hostRead_running (s : State) (r : Reg) (p : Pending) (h : s.pending = some p) :
    ∃ q, (s.hostRead r).pending = some q ∧ q.word = p.word ∧ q.snap = p.snap ∧ q.left = p.left ∧
      p.rxSeen ≤ q.rxSeen := by
  simp only [State.hostRead, h]
  split
  · exact ⟨p, rfl, rfl, rfl, rfl, Nat.le_refl _⟩
  · exact ⟨_, rfl, rfl, rfl, rfl, shownPlace_ge s _ p r⟩

theorem writeBusy_pending (s : State) (r : Reg) (v : Word) : (s.writeBusy r v).pending = s.pending := by
  cases r <;> rfl

/-- While a command runs, the host's side of a clock without reset keeps it running, with its snapshot
and its latency, and never goes back on its path. -/
theorem hostClock_keeps_running (s t : State) (p : Pending) (hr : s.bus.head? ≠ some .reset)
    (hp : s.pending = some p) (h : s.hostClock = .next t) :
    ∃ q, t.pending = some q ∧ q.word = p.word ∧ q.snap = p.snap ∧ q.left = p.left ∧
      p.rxSeen ≤ q.rxSeen := by
  have hb : s.busy = true := by simp [State.busy, hp]
  rcases hostClock_cases s with ⟨_, h'⟩ | ⟨rest, _, h'⟩ | ⟨rest, hb', _⟩ | ⟨w, off, rest, _, _, h'⟩ |
      ⟨w, off, v, rest, _, _, h'⟩ | ⟨_, h'⟩
  · rw [h] at h'; cases h'; exact ⟨p, hp, rfl, rfl, rfl, Nat.le_refl _⟩
  · rw [h] at h'; cases h'; exact ⟨p, hp, rfl, rfl, rfl, Nat.le_refl _⟩
  · simp [hb'] at hr
  · rw [h] at h'; cases h'; exact hostRead_running (s.popBus rest) _ p hp
  · rw [h] at h'; cases h'
    have hb' : (s.popBus rest).busy = true := hb
    exact ⟨p, by rw [State.hostWrite, if_pos hb', writeBusy_pending, State.popBus_pending, hp], rfl, rfl, rfl,
      Nat.le_refl _⟩
  · rw [h] at h'; cases h'

end Sys2Proof.Machine
end

