-- ==== Sys2Proof/Laws/PerInstr.lean ====
section
/-! SUPPORT. What is said for all commands, one lemma for each: the command word of a command is legal. -/

namespace Sys2Proof.Laws

/-- The command word is a legal one: bits 31..4 zero and bits 3..0 an opcode of R113 (R111). -/
def LegalWord.Statement (i : Instr) : Prop :=
  commandWordWellFormed (Sys2Proof.encode i) = true ∧ i.wellFormed = true

theorem LegalWord.encode : LegalWord.Statement .encode := by unfold LegalWord.Statement; decide
theorem LegalWord.decode : LegalWord.Statement .decode := by unfold LegalWord.Statement; decide
theorem LegalWord.encrypt : LegalWord.Statement .encrypt := by unfold LegalWord.Statement; decide
theorem LegalWord.decrypt : LegalWord.Statement .decrypt := by unfold LegalWord.Statement; decide
theorem LegalWord.tagGen : LegalWord.Statement .tagGen := by unfold LegalWord.Statement; decide
theorem LegalWord.tagVerify : LegalWord.Statement .tagVerify := by unfold LegalWord.Statement; decide
theorem LegalWord.frameBuild : LegalWord.Statement .frameBuild := by unfold LegalWord.Statement; decide
theorem LegalWord.frameParse : LegalWord.Statement .frameParse := by unfold LegalWord.Statement; decide
theorem LegalWord.send : LegalWord.Statement .send := by unfold LegalWord.Statement; decide
theorem LegalWord.receive : LegalWord.Statement .receive := by unfold LegalWord.Statement; decide

end Sys2Proof.Laws
end

