-- ==== Sys2Proof/Machine/HostNotation.lean ====
section
/-! DEFINITION. The host notation of 30_encoding.md (R118, R119), as host accesses, for reading the
spec's programs. `WAIT` is a loop of the host's own program, which is outside the block (R31). -/

namespace Sys2Proof.Machine

/-- `W <off>, <value>` (R118). -/
def hostW (off : Offset) (v : Word) : BusOp := .write 4 off v

/-- `R <off> -> <name>` (R118). -/
def hostR (off : Offset) : BusOp := .read 4 off

/-- `CMD m` (R119). -/
def hostCmd (i : Instr) : BusOp := hostW 0x004 (encode i)

/-- One poll of the loop `WAIT` (R119). -/
def hostPoll : BusOp := hostR 0x008

/-- `LOADKEY k0,k1,k2,k3` (R119). -/
def hostLoadKey (k : Quad) : List BusOp :=
  [hostW 0x010 k.w0, hostW 0x014 k.w1, hostW 0x018 k.w2, hostW 0x01C k.w3]

/-- `LOADIV v0,v1,v2,v3` (R119). -/
def hostLoadIv (v : Quad) : List BusOp :=
  [hostW 0x020 v.w0, hostW 0x024 v.w1, hostW 0x028 v.w2, hostW 0x02C v.w3]

/-- `LOCK` (R119): it also clears CTRL.IE. -/
def hostLock : BusOp := hostW 0x000 0x00000001

end Sys2Proof.Machine
end

