-- ==== Sys2Proof/Tests/Slice0.lean ====
section
/-! SUPPORT. The model's own tests: the checks on terms with ill-formed terms, every command's word
written out from R113, one-step tests with the values of 95_test_vectors.md, and for each statement with
hypotheses a state and operands that meet them together. -/

namespace Sys2Proof.Tests

open Sys2Proof Sys2Proof.Machine

-- One theorem at a time: each kernel evaluation waits for those before it, and a waiting one keeps a thread.
set_option Elab.async false

/-! ## Builders -/

/-- The string of some words in window order (R84). -/
def wordBytes : List Word → Bytes
  | [] => []
  | w :: ws => colBytes (le32 w) ++ wordBytes ws

/-- An offset, and a length. -/
def off (n : Nat) : BitVec 12 := BitVec.ofNat 12 n
def len (n : Nat) : Word := BitVec.ofNat 32 n

/-- A block written as four big-endian words, in the byte order of the published vectors. -/
def bigWords (a b c d : Word) : Block := ⟨be32 a, be32 b, be32 c, be32 d⟩

/-- K0, IV0 and RD* of 95_test_vectors.md. -/
def key0 : Quad := ⟨0x03020100, 0x07060504, 0x0B0A0908, 0x0F0E0D0C⟩
def iv0 : Quad := ⟨0x13121110, 0x17161514, 0x1B1A1918, 0x1F1E1D1C⟩
def reading0 : Quad := ⟨0x41BC0000, 0x42A06666, 0x41F0FCB9, 0x41FC8ADB⟩

/-- The ciphertext of V-CBC-5 and the tag of V-CMAC-6. -/
def cipher0 : Bytes :=
  wordBytes [0x726AD682, 0x9F24C4E5, 0xA21681B0, 0x91E96251, 0x83BB835E, 0x00581104, 0xB7B0ADE8, 0x942A2FA3]
def tag0 : Quad := ⟨0xF357389C, 0x64789BB6, 0x6A718555, 0x370C1700⟩

/-- The frame of V-FR-1. -/
def frame0 : Bytes := cipher0 ++ blockBytes (quadBlock tag0)

/-- After reset, with K0 and IV0 loaded and the interrupt enabled, not locked yet. -/
def loaded : State := { State.reset with key := key0, iv := iv0, ie := true }

/-- The boot sequence's end state (R284). -/
def booted : State := { loaded with lock := true }

/-- `PT`, `CT` or `FR` holds a string, with its length register. -/
def withPlain (d : Bytes) (s : State) : State := s.storePlain d
def withCipher (c : Bytes) (s : State) : State := s.storeCipher c
def withFrame (f : Bytes) (s : State) : State := s.storeFrame f

/-- The booted block with a received frame. -/
def received (f : Bytes) : State := withFrame f booted

/-- A command held for completion with `left` clocks to pass, and the host's accesses to come. -/
def running (i : Instr) (left : Nat) (bus : List BusOp) (s : State) : State :=
  { s with bus := bus, pending := some { word := encode i, snap := s.liveInputs, left := left, rxSeen := 0 } }

/-- The host's accesses to come, with no command running. -/
def hosted (bus : List BusOp) (s : State) : State := { s with bus := bus }

/-- The result is a next state that passes the check. -/
def passes (r : Result) (check : State → Bool) : Bool :=
  match r with
  | .next t => check t
  | .fault _ => false
  | .refused _ => false

/-- The state after a result. -/
def outcomeOr (s : State) (r : Result) : State :=
  match r with
  | .next t => t
  | .fault _ => s
  | .refused _ => s

/-- One step that runs the command. -/
def runs (i : Instr) (s : State) (check : State → Bool) : Bool :=
  passes (step (s.withFetchWord 32 (encode i).toNat)) check

/-- The state a command leaves. -/
def after (i : Instr) (s : State) : State := outcomeOr s (exec i s)

theorem exec_after (i : Instr) (s : State) : exec i s = .next (after i s) := by
  obtain ⟨t, h⟩ := exec_answers_next i s
  simp [after, outcomeOr, h]

/-! ## Ill-formed terms -/

/-- R111: bits 31..4 must be zero. -/
theorem test_word_with_high_bits_is_refused :
    commandWordWellFormed 0x00000010 = false ∧ commandWordWellFormed 0x00000019 = false ∧
    commandWordWellFormed 0x80000001 = false := by decide

/-- R113, R114: opcodes 0x0 and 0xB to 0xF are no commands. -/
theorem test_word_with_no_opcode_is_refused :
    commandWordWellFormed 0x00000000 = false ∧ commandWordWellFormed 0x0000000B = false ∧
    commandWordWellFormed 0x0000000F = false ∧ commandWordWellFormed 0x0000000A = true := by decide

/-- R83, V-CTL-11. -/
theorem test_access_of_other_width_is_refused :
    accessWellFormed 1 0x000 = false ∧ accessWellFormed 2 0x000 = false ∧
    accessWellFormed 8 0x000 = false := by decide

/-- R83, V-CTL-11. -/
theorem test_misaligned_access_is_refused :
    accessWellFormed 4 0x001 = false ∧ accessWellFormed 4 0x002 = false ∧
    accessWellFormed 4 0xFFC = true := by decide

/-- R7: BUF_CAP is a multiple of 16 from 48 to 256. -/
theorem test_wrong_capacity_is_refused :
    Params.wellFormed ⟨32, .le, []⟩ = false ∧ Params.wellFormed ⟨56, .le, []⟩ = false ∧
    Params.wellFormed ⟨272, .le, []⟩ = false ∧ Params.wellFormed ⟨48, .le, []⟩ = true ∧
    Params.wellFormed ⟨256, .be, []⟩ = true := by decide

/-! ## Command words, written out bit by bit from R111 and R113 -/

theorem test_decode_word_encode :
    decode 0b00000000000000000000000000000001#32 = .ok .encode := by decide +kernel
theorem test_decode_word_decode :
    decode 0b00000000000000000000000000000010#32 = .ok .decode := by decide +kernel
theorem test_decode_word_encrypt :
    decode 0b00000000000000000000000000000011#32 = .ok .encrypt := by decide +kernel
theorem test_decode_word_decrypt :
    decode 0b00000000000000000000000000000100#32 = .ok .decrypt := by decide +kernel
theorem test_decode_word_tagGen :
    decode 0b00000000000000000000000000000101#32 = .ok .tagGen := by decide +kernel
theorem test_decode_word_tagVerify :
    decode 0b00000000000000000000000000000110#32 = .ok .tagVerify := by decide +kernel
theorem test_decode_word_frameBuild :
    decode 0b00000000000000000000000000000111#32 = .ok .frameBuild := by decide +kernel
theorem test_decode_word_frameParse :
    decode 0b00000000000000000000000000001000#32 = .ok .frameParse := by decide +kernel
theorem test_decode_word_send :
    decode 0b00000000000000000000000000001001#32 = .ok .send := by decide +kernel
theorem test_decode_word_receive :
    decode 0b00000000000000000000000000001010#32 = .ok .receive := by decide +kernel

/-- V-CTL-2. -/
theorem test_illegal_words_are_rejected :
    ∀ w ∈ [0x0, 0xB, 0xC, 0xD, 0xE, 0xF, 0x10, 0x19, 0x80000001, 0xFFFFFFFF],
      decode (BitVec.ofNat 32 w) = .error .mustBeZero ∨ decode (BitVec.ofNat 32 w) = .error .noSuchOpcode := by
  decide +kernel

/-! ## AES-128 and CMAC, published vectors -/

/-- V-AES-3. -/
theorem test_field_values :
    sbox 0x00 = 0x63 ∧ sbox 0x53 = 0xED ∧ invSbox 0x63 = 0x00 ∧ invSbox 0xED = 0x53 ∧
    xtime 0x57 = 0xAE ∧ gmul 0x57 0x83 = 0xC1 ∧ ginv 0x53 = 0xCA := by decide +kernel

/-- V-AES-1 (FIPS-197 Appendix C.1). -/
theorem test_aes_enc :
    aesEnc (quadBlock key0) (bigWords 0x00112233 0x44556677 0x8899aabb 0xccddeeff) =
      bigWords 0x69c4e0d8 0x6a7b0430 0xd8cdb780 0x70b4c55a := by decide +kernel

/-- V-AES-1. -/
theorem test_aes_dec :
    aesDec (quadBlock key0) (bigWords 0x69c4e0d8 0x6a7b0430 0xd8cdb780 0x70b4c55a) =
      bigWords 0x00112233 0x44556677 0x8899aabb 0xccddeeff := by decide +kernel

/-- V-AES-4: rk[10] of the FIPS-197 Appendix B key. -/
theorem test_round_key_ten :
    (roundKeys (bigWords 0x2b7e1516 0x28aed2a6 0xabf71588 0x09cf4f3c))[9]? =
      some (bigWords 0xd014f9a8 0xc9ee2589 0xe13f0cc8 0xb6630ca6) := by decide +kernel

/-- V-CMAC-1 (RFC 4493): K1 and K2, and V-CMAC-2: the tag of the empty message. -/
theorem test_cmac_empty :
    subkey1 (bigWords 0x2b7e1516 0x28aed2a6 0xabf71588 0x09cf4f3c) =
      bigWords 0xfbeed618 0x35713366 0x7c85e08f 0x7236a8de ∧
    subkey2 (bigWords 0x2b7e1516 0x28aed2a6 0xabf71588 0x09cf4f3c) =
      bigWords 0xf7ddac30 0x6ae266cc 0xf90bc11e 0xe46d513b ∧
    cmac (bigWords 0x2b7e1516 0x28aed2a6 0xabf71588 0x09cf4f3c) [] =
      bigWords 0xbb1d6929 0xe9593728 0x7fa37d12 0x9b756746 := by decide +kernel

/-! ## One step of each command, with the values of 95_test_vectors.md -/

/-- V-RC-1, V-RC-7. -/
theorem test_encode : runs .encode { State.reset with rd := reading0 } (fun t =>
    t.mem.bufBytes .pt 16 == wordBytes [0x41BC0000, 0x42A06666, 0x41F0FCB9, 0x41FC8ADB] &&
    t.ptLen == 16 && t.statusWord == 0 && t.eventsWord == 1) = true := by decide +kernel

/-- V-RC-6: big-endian. -/
theorem test_encode_big_endian :
    runs .encode { State.reset with cfg := ⟨64, .be, []⟩, rd := reading0 } (fun t =>
      t.mem.bufBytes .pt 16 == blockBytes (bigWords 0x41bc0000 0x42a06666 0x41f0fcb9 0x41fc8adb)) =
        true := by decide +kernel

/-- V-RC-4. -/
theorem test_decode :
    runs .decode (withPlain (wordBytes [0x41BC0000, 0x42A06666, 0x41F0FCB9, 0x41FC8ADB]) State.reset)
      (fun t => t.rd == reading0 && t.statusWord == 0) = true := by decide +kernel

/-- V-RC-5. -/
theorem test_decode_of_other_length :
    runs .decode { State.reset with ptLen := 17, rd := reading0 }
      (fun t => t.rd == reading0 && t.statusWord == 0x12) = true := by decide +kernel

/-- V-CBC-5. -/
theorem test_encrypt :
    runs .encrypt (withPlain (wordBytes [0x41BC0000, 0x42A06666, 0x41F0FCB9, 0x41FC8ADB]) booted)
      (fun t => t.mem.bufBytes .ct 32 == cipher0 && t.ctLen == 32 && t.statusWord == 0) = true := by
  decide +kernel

/-- V-CBC-4. -/
theorem test_encrypt_too_long :
    runs .encrypt { booted with ptLen := 64, ctLen := 7 }
      (fun t => t.statusWord == 0x82 && t.ctLen == 7) = true := by decide +kernel

/-- V-CBC-7, fifth row. -/
theorem test_decrypt :
    runs .decrypt (withCipher (blockBytes (bigWords 0x8b2793af 0x2c644466 0x4621805b 0x10892ca6)) booted)
      (fun t => t.mem.bufBytes .pt 14 == List.replicate 14 0 && t.ptLen == 14 && t.statusWord == 0) =
        true := by decide +kernel

/-- V-CBC-9. -/
theorem test_decrypt_of_part_blocks :
    runs .decrypt { booted with ctLen := 20, ptLen := 3 }
      (fun t => t.statusWord == 0x32 && t.ptLen == 3) = true := by decide +kernel

/-- V-CMAC-6: two complete blocks. -/
theorem test_tagGen :
    runs .tagGen (withCipher cipher0 booted) (fun t => t.tag == tag0 && t.statusWord == 0) = true := by
  decide +kernel

/-- V-CMAC-3, length 1: a partial block. -/
theorem test_tagGen_partial :
    runs .tagGen (withCipher [0x01] booted)
      (fun t => quadBlock t.tag == bigWords 0xe9921687 0x0f639199 0xa221c204 0x18855473) = true := by
  decide +kernel

/-- V-CMAC-4, first row. -/
theorem test_tagVerify :
    runs .tagVerify { withCipher cipher0 booted with tag := tag0 } (fun t => t.statusWord == 0x4) =
      true := by decide +kernel

/-- V-CMAC-4, second row. -/
theorem test_tagVerify_of_changed_tag :
    runs .tagVerify { withCipher cipher0 booted with tag := { tag0 with w3 := 0x360C1700 } }
      (fun t => t.statusWord == 0x42) = true := by decide +kernel

/-- V-FR-3, V-FR-7. -/
theorem test_frameBuild :
    runs .frameBuild { State.reset with tag := ⟨1, 2, 3, 4⟩, txValid := true } (fun t =>
      t.mem.bufBytes .fr 16 == wordBytes [1, 2, 3, 4] && t.frLen == 16 && t.eventsWord == 1) = true := by
  decide +kernel

/-- V-FR-4, second row. -/
theorem test_frameBuild_too_long :
    runs .frameBuild { State.reset with ctLen := 49, frLen := 9, txValid := true }
      (fun t => t.statusWord == 0x82 && t.frLen == 9 && t.txValid) = true := by decide +kernel

/-- V-FR-2. -/
theorem test_frameParse :
    runs .frameParse (withFrame frame0 State.reset) (fun t =>
      t.mem.bufBytes .ct 32 == cipher0 && t.ctLen == 32 && t.tag == tag0 && t.statusWord == 0) = true := by
  decide +kernel

/-- V-FR-5, FR_LEN = 15. -/
theorem test_frameParse_too_short :
    runs .frameParse { State.reset with frLen := 15, tag := tag0 }
      (fun t => t.statusWord == 0x52 && t.tag == tag0) = true := by decide +kernel

/-- V-SCN-1, with its frame for the witnesses below. -/
theorem test_send_frame :
    (after .send { booted with rd := reading0 }).mem.bufBytes .fr 48 = frame0 := by decide +kernel

/-- V-SCN-3. -/
theorem test_send_unlocked :
    runs .send { loaded with rd := reading0, txValid := true } (fun t =>
      t.statusWord == 0x72 && t.eventsWord == 3 && t.mem == State.reset.mem && t.frLen == 0) = true := by
  decide +kernel

/-- V-RX-1. -/
theorem test_receive :
    runs .receive (received frame0) (fun t => t.statusWord == 0x404 && t.rd == reading0 &&
      t.ctLen == 32 && t.ptLen == 16 && t.tag == tag0) = true := by decide +kernel

/-- V-RX-7: the tag of the empty ciphertext passes Verifying and fails Decrypting. -/
theorem test_receive_empty_ciphertext :
    runs .receive (received (blockBytes (bigWords 0x97dd6e5a 0x882cbd56 0x4c39ae7d 0x1c5a31aa)))
      (fun t => t.statusWord == 0x3526 && t.ptLen == 0 && t.rd == Quad.zero && t.tag.w0 == 0x5A6EDD97) =
        true := by decide +kernel

/-! ## The host's accesses -/

/-- P7: an illegal word records IllegalCommand at once and starts nothing. -/
theorem test_illegal_word : passes (step (hosted [hostW 0x004 0x19] State.reset))
    (fun t => t.statusWord == 0x62 && t.eventsWord == 1) = true := by decide +kernel

/-- V-CTL-3, R119: `CMD SEND` is accepted, and BUSY is 1. -/
theorem test_command_is_accepted : passes (step (hosted [hostCmd .send] booted))
    (fun t => t.statusWord == 1 && t.eventsWord == 0) = true := by decide +kernel

/-- V-CTL-7: a command written while another runs is dropped. -/
theorem test_busy_command_is_dropped :
    passes (step (running .encode 1 [hostCmd .send] State.reset))
      (fun t => t.overrun && t.statusWord == 1) = true := by decide +kernel

/-- V-CTL-4, V-CTL-5: LOCK sticks, and a locked key or IV write is ignored without OVERRUN. -/
theorem test_lock_sticks :
    passes (step (hosted [hostW 0x000 0] booted)) (fun t => t.lock && !t.ie) = true ∧
    passes (step (hosted [hostW 0x010 0xFFFFFFFF] booted)) (fun t => t.key == key0 && !t.overrun) = true ∧
    passes (step (hosted [hostW 0x020 0xFFFFFFFF] booted)) (fun t => t.iv == iv0) = true := by
  decide +kernel

/-- V-CTL-1, V-CTL-13: CAP reads 0x40, and a PT word past BUF_CAP reads 0 and ignores a write. -/
theorem test_window_edges :
    passes (step (hosted [hostR 0x04C] State.reset)) (fun t => t.readData == some 0x40) = true ∧
    passes (step (hosted [hostW 0x140 5] State.reset)) (fun t => t.mem == State.reset.mem) = true ∧
    passes (step (hosted [hostR 0x140] State.reset)) (fun t => t.readData == some 0) = true := by
  decide +kernel

/-- R86, V-FR-8: a window write stores its word little-endian and clears TX_VALID. -/
theorem test_window_write :
    passes (step (hosted [hostW 0x300 0x726AD682] { State.reset with txValid := true }))
      (fun t => t.mem.bufBytes .fr 4 == [0x82, 0xd6, 0x6a, 0x72] && !t.txValid) = true := by
  decide +kernel

/-- V-CTL-11. -/
theorem test_bus_error : passes (step (hosted [.read 2 0x000] State.reset)) (fun _ => true) = false ∧
    passes (step (hosted [.write 4 0x002 1] State.reset)) (fun _ => true) = false := by decide +kernel

/-! ## Witnesses: for each statement, a state and operands that meet its hypotheses together -/

theorem witness_DecodeAndEncodeAgree : decode 0x1#32 = .ok .encode ∧ decode 0xA#32 = .ok .receive := by
  decide +kernel

theorem witness_StepRunsHeldCommand :
    (∃ p t, (running .send 0 [hostR 0x008] booted).pending = some p ∧ p.left = 0 ∧
      decode p.word = .ok .send ∧ NoReset (running .send 0 [hostR 0x008] booted) ∧
      (running .send 0 [hostR 0x008] booted).hostClock = .next t) ∧
    (∃ p, (running .receive 0 [] booted).pending = some p ∧ p.left = 0 ∧
      decode p.word = .ok .receive ∧ (running .receive 0 [] booted).bus = []) ∧
    decodeTableWord 32 9 = some .send :=
  ⟨⟨_, _, rfl, rfl, by decide +kernel, by unfold NoReset; decide, rfl⟩,
   ⟨_, rfl, rfl, by decide +kernel, rfl⟩, by decide +kernel⟩

theorem witness_LegalWordIsAccepted :
    (hosted [hostCmd .receive, hostPoll] booted).pending = none ∧
    (hosted [hostCmd .receive, hostPoll] booted).bus = .write 4 0x004#12 0xA#32 :: [hostPoll] ∧
    decode 0xA#32 = .ok .receive := by decide +kernel

theorem witness_IllegalWordIsRecorded :
    (hosted [hostW 0x004 0xB] booted).pending = none ∧
    (hosted [hostW 0x004 0xB] booted).bus = .write 4 0x004#12 0xB#32 :: [] ∧
    decode 0xB#32 = .error .noSuchOpcode := by decide +kernel

theorem witness_BusyCommandWriteIsDropped : ∃ p,
    (running .encode 0 [hostW 0x004 0xB] booted).pending = some p ∧
    (running .encode 0 [hostW 0x004 0xB] booted).bus = .write 4 0x004#12 0xB#32 :: [] := ⟨_, rfl, rfl⟩

/-- The first and the last offset of each row of R288's table, and a bus error. -/
theorem witness_BusyWritesByOffset :
    (∀ n ∈ [0x000, 0x004, 0x008, 0x00C, 0x010, 0x3FC, 0x400, 0xFFC],
      (off n).toNat % 4 = 0 ∧ (running .send 2 [.write 4 (off n) 7] booted).pending.isSome = true ∧
      (running .send 2 [.write 4 (off n) 7] booted).bus = .write 4 (off n) 7#32 :: []) ∧
    (running .send 2 [.read 2 0x008] booted).pending.isSome = true ∧
    (running .send 2 [.read 2 0x008] booted).bus = .read 2 0x008#12 :: [] ∧ (2 : Nat) ≠ 4 := by
  decide +kernel

theorem witness_OnlyBusErrorsStopTheBlock :
    ((0x002#12).toNat % 4 ≠ 0 ∧ (hosted [.write 4 0x002 1] booted).bus = .write 4 0x002#12 1#32 :: []) ∧
    (∀ op rest, (hosted [.reset, .idle] booted).bus = op :: rest → op = .reset ∨ op.harmless = true) := by
  refine ⟨by decide +kernel, fun op rest h => ?_⟩
  simp [hosted] at h
  simp [h.1.symm]

/-- A command with accesses to come, one that waits on an idle clock and on a clock with an access, and an
idle clock with no command. -/
theorem witness_AcceptedCommandCompletes :
    (∃ p, (running .tagGen 2 [hostPoll, .idle, hostW 0x030 1] booted).pending = some p ∧
      decode p.word = .ok .tagGen ∧
      (∀ op ∈ (running .tagGen 2 [hostPoll, .idle, hostW 0x030 1] booted).bus.take (p.left + 1),
        op.harmless = true)) ∧
    (∃ p u, (running .tagGen 1 [hostPoll] booted).pending = some p ∧ p.left = 0 + 1 ∧
      NoReset (running .tagGen 1 [hostPoll] booted) ∧
      (running .tagGen 1 [hostPoll] booted).hostClock = .next u) ∧
    (∃ p, (running .tagGen 1 [] booted).pending = some p ∧ p.left = 0 + 1 ∧
      (running .tagGen 1 [] booted).bus = [] ∧ (running .tagGen 1 [.idle] booted).bus = .idle :: []) ∧
    booted.pending = none ∧ booted.bus = [] ∧ (hosted [.idle] booted).bus = .idle :: [] :=
  ⟨⟨_, rfl, by decide +kernel, by decide +kernel⟩, ⟨_, _, rfl, rfl, by unfold NoReset; decide, rfl⟩,
   ⟨_, rfl, rfl, rfl, rfl⟩, rfl, rfl, rfl⟩

/-- Equal lengths with other contents; RECEIVEs with one rejecting stage: one
delivered and one that ends in KeyNotLocked (no stage rejects either), two too short, and two frames whose tags differ in other places (V-RX-4). -/
theorem witness_LatencyHidesContents :
    (Instr.tagVerify ≠ .receive ∧ lensRead .tagVerify (withCipher [1] booted).liveInputs =
      lensRead .tagVerify (withCipher [2] booted).liveInputs) ∧
    (withCipher [1] booted).liveInputs.ctLen = (withCipher [2] booted).liveInputs.ctLen ∧
    (received frame0).inputs.frLen = (withFrame frame0 loaded).inputs.frLen ∧
    rejectingStage (rxOutcome .default (received frame0).inputs) =
      rejectingStage (rxOutcome .default (withFrame frame0 loaded).inputs) ∧
    (received [1]).inputs.frLen = (received [2]).inputs.frLen ∧
    rejectingStage (rxOutcome .default (received [1]).inputs) =
      rejectingStage (rxOutcome .default (received [2]).inputs) ∧
    (received (blockBytes .zero)).inputs.frLen = (received (blockBytes (quadBlock tag0))).inputs.frLen ∧
    rxOutcome .default (received (blockBytes .zero)).inputs = .tampered [] .zero ∧
    rxOutcome .default (received (blockBytes (quadBlock tag0))).inputs = .tampered [] (quadBlock tag0) := by
  decide +kernel

theorem witness_DoneSetWinsOverClear : ∃ p,
    (running .encode 0 [hostW 0x00C 7] booted).pending = some p ∧ p.left = 0 ∧
    decode p.word = .ok .encode ∧
    (running .encode 0 [hostW 0x00C 7] booted).bus = .write 4 0x00C#12 7#32 :: [] :=
  ⟨_, rfl, rfl, by decide +kernel, rfl⟩

/-- A command that succeeds, one that fails, and a RECEIVE that fails. -/
theorem witness_CommandsWriteOnlyTheirList :
    booted.cfg.wellFormed = true ∧ exec .encode booted = .next (after .encode booted) ∧
    exec .decode booted = .next (after .decode booted) ∧ (after .decode booted).err = true ∧
    exec .receive booted = .next (after .receive booted) ∧ (after .receive booted).err = true :=
  ⟨by decide, exec_after _ _, exec_after _ _, by decide +kernel, exec_after _ _, by decide +kernel⟩

theorem witness_KeyUseNeedsLock : loaded.inputs.lock = false ∧
    ∀ i ∈ [Instr.encrypt, .decrypt, .tagGen, .tagVerify, .send, .receive], usesKey i = true := by decide

/-- V-CBC-4, V-CMAC-5, V-FR-4, V-FR-6, V-RX-11: each length just past what fits, and the largest. -/
theorem witness_LengthErrors :
    booted.inputs.lock = true ∧
    (∀ n ∈ [64, 65, 0xFFFFFFFF], booted.cfg.bufCap < ({ booted with ptLen := len n }).inputs.ptLen.toNat ∨
      booted.cfg.bufCap < 16 * (({ booted with ptLen := len n }).inputs.ptLen.toNat / 16 + 1)) ∧
    (∀ n ∈ [65, 0xFFFFFFFF], booted.cfg.bufCap < ({ booted with ctLen := len n }).inputs.ctLen.toNat) ∧
    (∀ n ∈ [49, 65], booted.cfg.bufCap < ({ booted with ctLen := len n }).inputs.ctLen.toNat ∨
      booted.cfg.bufCap < ({ booted with ctLen := len n }).inputs.ctLen.toNat + 16) ∧
    (∀ n ∈ [65, 0xFFFFFFFF], booted.cfg.bufCap < ({ booted with frLen := len n }).inputs.frLen.toNat) := by
  decide +kernel

/-- A reset with BUSY = 1 and one with BUSY = 0. -/
theorem witness_ResetAbandonsTheCommand :
    (running .send 0 [.reset] booted).busy = true ∧ (running .send 0 [.reset] booted).bus = .reset :: [] ∧
    (hosted [.reset] booted).busy = false ∧ (hosted [.reset] booted).bus = .reset :: [] :=
  ⟨rfl, rfl, rfl, rfl⟩

/-- Every clause of the statements on reads and writes with BUSY = 0, at the ends of its range. -/
theorem witness_IdleReads_and_IdleWrites :
    ∀ n ∈ [0x000, 0x004, 0x008, 0x00C, 0x010, 0x014, 0x018, 0x01C, 0x020,
        0x024, 0x028, 0x02C, 0x030, 0x034, 0x038, 0x03C, 0x040, 0x044, 0x048,
        0x04C, 0x050, 0x054, 0x058, 0x05C, 0x060, 0x0FC, 0x400, 0xFFC],
      (off n).toNat % 4 = 0 ∧ (hosted [.read 4 (off n)] booted).pending = none ∧
      (hosted [.read 4 (off n)] booted).bus = .read 4 (off n) :: [] ∧
      (hosted [.write 4 (off n) 1] booted).pending = none ∧
      (hosted [.write 4 (off n) 1] booted).bus = .write 4 (off n) 1#32 :: [] ∧
      (hosted [.write 4 (off n) 1] booted).lock = true ∧ (hosted [.write 4 (off n) 1] loaded).lock = false := by
  decide +kernel

/-- The first word, the last below BUF_CAP, the first past it and the last of the window. -/
theorem witness_BufferWindows :
    ∀ k ∈ [0, 15, 16, 63], ∀ b ∈ [Buf.pt, .ct, .fr],
      (BitVec.ofNat 12 (bufBase b + 4 * k)).toNat % 4 = 0 ∧
      (hosted [.write 4 (BitVec.ofNat 12 (bufBase b + 4 * k)) 1] booted).pending = none ∧
      (booted.cfg.bufCap ≤ 4 * k ↔ 16 ≤ k) := by decide +kernel

theorem witness_LockedKeyMaterialIsConstant :
    (hosted [hostW 0x010 9] booted).lock = true ∧ NoReset (hosted [hostW 0x010 9] booted) ∧
    ∃ t, step (hosted [hostW 0x010 9] booted) = .next t :=
  ⟨rfl, by unfold NoReset; decide, _, rfl⟩

theorem witness_KeyCannotBeReadBack :
    (hosted [hostR 0x010] booted).pending = none ∧ (0x010#12).toNat % 4 = 0 ∧
    (hosted [hostR 0x010] booted).bus = .read 4 0x010#12 :: [] := by decide +kernel

/-- A running command in a state the block can be in. -/
theorem running_inv (i : Instr) (n : Nat)
    (bus : List BusOp) : Inv (running i n bus booted) := by
  have hd : decode (encode i) = .ok i := by cases i <;> decide
  refine ⟨(by decide : booted.cfg.wellFormed = true), (by decide : booted.mem.wf = true),
    by simp [running, booted, loaded, State.reset, State.afterReset],
    by simp [running, booted, loaded, State.reset, State.afterReset],
    by simp [running, booted, loaded, State.reset, State.afterReset],
    by simp [running, booted, loaded, State.reset, State.afterReset], ?_,
    by simp [running, booted, loaded, State.reset, State.afterReset], ?_, ?_, ?_⟩
  · intro p hp; cases hp; exact ⟨i, hd⟩
  · intro p hp; cases hp
    exact ⟨fun _ => rfl, fun _ => ⟨rfl, rfl, rfl⟩⟩
  · intro p hp; cases hp
    exact ⟨rfl, fun h => h⟩
  · intro p hp _; cases hp
    show 0 < (rxPath _).length
    generalize rxOutcome _ _ = o
    cases o <;> simp [rxPath]

/-- The clauses on STATUS and on EVENTS, and at the ends of ENCODE's list: its register, the first and the
last word of PT[0..16), the word past them, and words of no list. -/
theorem witness_BusyReads : ∀ n ∈ [0x008, 0x00C, 0x040, 0x100, 0x10C, 0x110, 0x044, 0x000, 0xFFC], ∃ p,
    Inv (running .encode 3 [.read 4 (off n)] booted) ∧
    (running .encode 3 [.read 4 (off n)] booted).pending = some p ∧ decode p.word = .ok .encode ∧
    (off n).toNat % 4 = 0 ∧ (running .encode 3 [.read 4 (off n)] booted).bus = .read 4 (off n) :: [] ∧
    (OnWritesList .encode booted.cfg p.snap (off n).toNat ↔ n ∈ [0x040, 0x100, 0x10C]) := by
  intro n h
  refine ⟨_, running_inv _ _ _, rfl, by decide +kernel,
    (by decide : ∀ n ∈ [0x008, 0x00C, 0x040, 0x100, 0x10C, 0x110, 0x044, 0x000, 0xFFC], (off n).toNat % 4 = 0)
      n h, rfl, ?_⟩
  revert n
  unfold OnWritesList
  decide +kernel

theorem witness_DecodeDeserialisesReading :
    ({ booted with ptLen := 16 }).inputs.ptLen = 16#32 ∧ ({ booted with ptLen := 15 }).inputs.ptLen ≠ 16#32 ∧
    ({ booted with ptLen := 17 }).inputs.ptLen ≠ 16#32 := by decide +kernel

theorem witness_ReadingCodecIsBijective : (blockBytes (quadBlock reading0)).length = 16 := rfl

theorem witness_SboxIsAffineOfInverse : (0x01 : Byte) ≠ 0 ∧ (0xFF : Byte) ≠ 0 := by decide

theorem witness_AesDecInvertsEnc : aesEnc .zero .zero = aesEnc .zero .zero := rfl

/-- The string of sixteen zero bytes is no padded string: the last byte of a padded string is 1 to 16. -/
theorem zeros_are_not_padded (P : Bytes) : blockBytes .zero ≠ pkcs7Pad P := by
  intro h
  have h1 : (pkcs7Pad P).getLast? = some (BitVec.ofNat 8 (padLength P.length)) := by
    have hp : padLength P.length ≠ 0 := by simp only [padLength]; omega
    simp only [pkcs7Pad, List.getLast?_append, List.getLast?_replicate, if_neg hp, Option.some_or]
  have h0 : (blockBytes .zero).getLast? = some 0#8 := rfl
  rw [← h, h0] at h1
  have h2 := congrArg BitVec.toNat (Option.some.inj h1)
  simp only [padLength, BitVec.toNat_ofNat] at h2
  omega

theorem witness_UnpadAcceptsExactlyPadded :
    (List.replicate 16 (0x10 : Byte) ≠ [] ∧ (List.replicate 16 (0x10 : Byte)).length % 16 = 0 ∧
      List.replicate 16 (0x10 : Byte) = pkcs7Pad []) ∧
    blockBytes .zero ≠ [] ∧ (blockBytes .zero).length % 16 = 0 ∧ ∀ P, blockBytes .zero ≠ pkcs7Pad P :=
  ⟨by decide, by decide, by decide, zeros_are_not_padded⟩

theorem witness_CbcDecryptInvertsEncrypt :
    (blockBytes .zero).length % 16 = 0 ∧ blockBytes .zero ≠ [] := by decide

/-- The smallest and the largest PT_LEN. -/
theorem witness_DecryptInvertsEncrypt : ∀ n ∈ [0, 63],
    ({ booted with ptLen := len n }).pending = none ∧ ({ booted with ptLen := len n }).lock = true ∧
    ({ booted with ptLen := len n }).cfg.wellFormed = true ∧ (len n).toNat ≤ booted.cfg.bufCap - 1 := by decide

theorem witness_EncryptWritesCiphertext : ∀ p ∈ [(0, 16), (15, 16), (16, 32), (63, 64)],
    ({ booted with ptLen := len p.1 }).inputs.lock = true ∧
    ({ booted with ptLen := len p.1 }).inputs.ptLen = len p.1 ∧
    (len p.1).toNat ≤ booted.cfg.bufCap ∧ p.2 = 16 * ((len p.1).toNat / 16 + 1) ∧ p.2 ≤ booted.cfg.bufCap ∧
    booted.cfg.wellFormed = true := by decide

/-- V-CBC-7, the last row: the padding of the empty plaintext. -/
theorem witness_DecryptWritesPlaintext :
    let s := withCipher (blockBytes (bigWords 0x0a940bb5 0x416ef045 0xf1c39458 0xc653ea5a)) booted
    s.inputs.lock = true ∧ s.inputs.ctLen.toNat = 16 ∧ 16 ≤ s.cfg.bufCap ∧
    cbcDecryptRaw (quadBlock s.inputs.key) (quadBlock s.inputs.iv) (s.inputs.mem.bufBytes .ct 16) =
      pkcs7Pad [] := by decide +kernel

/-- V-CBC-9, V-CBC-10, and the first row of V-CBC-7, whose padding is invalid. -/
theorem witness_DecryptDataErrors :
    (∀ n ∈ [1, 15, 17, 63], ({ booted with ctLen := len n }).inputs.ctLen.toNat % 16 ≠ 0 ∧
      ({ booted with ctLen := len n }).inputs.ctLen.toNat ≤ booted.cfg.bufCap) ∧
    booted.inputs.ctLen.toNat = 0 ∧
    ∀ P, cbcDecryptRaw (quadBlock key0) (quadBlock iv0)
      ((withCipher (blockBytes (bigWords 0x07feef74 0xe1d5036e 0x900eee11 0x8e949293)) booted).inputs.mem.bufBytes
        .ct 16) ≠ pkcs7Pad P := by
  refine ⟨by decide +kernel, by decide, fun P h => zeros_are_not_padded P ?_⟩
  rw [← h]
  decide +kernel

theorem witness_CmacIsChainUnderSubkeys :
    (([] : Bytes).length ≤ 16 ∧ (([] : Bytes) = [] → ([] : List Block) = [])) ∧
    (blockBytes .zero).length ≤ 16 ∧ (blockBytes .zero = [] → [Block.zero] = []) := by decide

/-- The smallest and the largest length that fits, for TAG_GEN and TAG_VERIFY. Of TAG_VERIFY's two ends
`test_tagVerify` and `test_tagVerify_of_changed_tag` show one each. -/
theorem witness_TagGenWritesTag_and_TagVerifyComparesTags : ∀ n ∈ [0, 64],
    ({ booted with ctLen := len n }).inputs.lock = true ∧ ({ booted with ctLen := len n }).inputs.ctLen = len n ∧
    (len n).toNat ≤ booted.cfg.bufCap := by decide

/-- V-CMAC-6. -/
theorem frame0_is_valid : cipher0 ++ blockBytes (cmac (quadBlock key0) cipher0) = frame0 := by
  decide +kernel

/-- A change in each block of a frame, at the first byte, at byte 16 and at the last byte. -/
theorem changed_frames_differ_in_one_block :
    ∀ f ∈ [frame0.set 0 0x83, frame0.set 16 0x5F, frame0.set 47 0x36], DifferInOneBlock frame0 f := by
  unfold DifferInOneBlock
  decide +kernel

theorem witness_TamperSensitivity :
    (cipher0.length = 32 ∧ (cipher0.set 0 0).length = 32 ∧ cipher0 ≠ cipher0.set 0 0 ∧
      (cipher0.take 16 = (cipher0.set 0 0).take 16 ∨ cipher0.drop 16 = (cipher0.set 0 0).drop 16)) ∧
    DifferInOneBlock (cipher0 ++ blockBytes (cmac (quadBlock key0) cipher0)) (frame0.set 47 0x36) := by
  refine ⟨by decide +kernel, ?_⟩
  rw [frame0_is_valid]
  exact changed_frames_differ_in_one_block _ (by simp)

theorem witness_ParseInvertsBuild :
    (List.replicate 15 (0 : Byte)).length < 16 ∧ 16 ≤ (blockBytes .zero).length := by decide

theorem witness_FrameBuildConcatenates : ∀ n ∈ [0, 48],
    ({ booted with ctLen := len n }).inputs.ctLen = len n ∧ (len n).toNat + 16 ≤ booted.cfg.bufCap ∧
    booted.cfg.wellFormed = true := by decide

theorem witness_FrameParseSplits :
    (∀ n ∈ [16, 64], ({ booted with frLen := len n }).inputs.frLen = len n ∧ (len n).toNat ≤ booted.cfg.bufCap ∧
      16 ≤ (len n).toNat) ∧
    (∀ n ∈ [0, 15], ({ booted with frLen := len n }).inputs.frLen = len n ∧ (len n).toNat < 16) := by decide

theorem witness_SendBuildsFrame :
    booted.cfg.wellFormed = true ∧ booted.inputs.lock = true ∧ loaded.inputs.lock = false ∧
    ∃ P C T, P = blockBytes (encodeReading booted.cfg.order booted.inputs.rd) ∧
      C = encryptString P (quadBlock booted.inputs.key) (quadBlock booted.inputs.iv) ∧
      T = cmac (quadBlock booted.inputs.key) C := ⟨by decide, by decide, by decide, _, _, _, rfl, rfl, rfl⟩

theorem witness_SendIsThePipeline :
    booted.pending = none ∧ booted.lock = true ∧ booted.cfg.wellFormed = true := by decide

theorem witness_ShortFrameIsRejected : ∀ n ∈ [0, 15],
    ({ booted with frLen := len n }).inputs.lock = true ∧ ({ booted with frLen := len n }).inputs.frLen.toNat < 16 ∧
    booted.cfg.wellFormed = true := by decide +kernel

/-- V-RX-4: sixteen zero bytes. -/
theorem witness_TamperedFrameIsRejected :
    (received (blockBytes .zero)).inputs.lock = true ∧
    (received (blockBytes .zero)).inputs.frLen.toNat ≤ (received (blockBytes .zero)).cfg.bufCap ∧
    (received (blockBytes .zero)).inputs.mem.bufBytes .fr (received (blockBytes .zero)).inputs.frLen.toNat =
      [] ++ blockBytes .zero ∧
    cmac (quadBlock (received (blockBytes .zero)).inputs.key) [] ≠ .zero := by decide +kernel

/-- The hypotheses that the statements on RECEIVE share, for a frame with a valid tag, and what its
ciphertext decrypts to. -/
def validFrame (c : Bytes) (t : Block) (d : Except ErrCode Bytes) : Bool :=
  let s := received (c ++ blockBytes t)
  s.inputs.lock && s.cfg.wellFormed && decide (s.inputs.frLen.toNat ≤ s.cfg.bufCap) &&
    s.inputs.mem.bufBytes .fr s.inputs.frLen.toNat == c ++ blockBytes t &&
    cmac (quadBlock s.inputs.key) c == t &&
    (match decryptString c (quadBlock s.inputs.key) (quadBlock s.inputs.iv), d with
      | .ok x, .ok y => x == y
      | .error x, .error y => x == y
      | .ok _, .error _ => false
      | .error _, .ok _ => false)

/-- V-RX-7 and V-RX-6: an empty ciphertext and one of 20 bytes. -/
theorem witness_UndecryptableFrameIsRejected :
    validFrame [] (bigWords 0x97dd6e5a 0x882cbd56 0x4c39ae7d 0x1c5a31aa) (.error .paddingError) = true ∧
    validFrame (cipher0.take 20) (bigWords 0xf1570918 0xc33314d8 0xb114ef0e 0x3bcf4d79)
      (.error .blockAlignmentError) = true := by decide +kernel

/-- V-RX-9: the ciphertext of the empty plaintext. -/
theorem witness_WrongSizeFrameIsRejected :
    validFrame (blockBytes (bigWords 0x0a940bb5 0x416ef045 0xf1c39458 0xc653ea5a))
      (bigWords 0x830e0c81 0x57769328 0x0cd4c316 0xe665fba5) (.ok []) = true ∧ ([] : Bytes).length ≠ 16 := by
  decide +kernel

/-- V-RX-1. -/
theorem witness_GoodFrameIsDelivered :
    validFrame cipher0 (quadBlock tag0) (.ok (blockBytes (quadBlock reading0))) = true ∧
    (blockBytes (quadBlock reading0)).length = 16 := by decide +kernel

theorem witness_OnlyFortyEightBytesAreDelivered :
    (∀ n ∈ [16, 64], ({ booted with frLen := len n }).inputs.lock = true ∧ 16 ≤ (len n).toNat ∧
      ({ booted with frLen := len n }).inputs.frLen = len n ∧ (len n).toNat ≤ booted.cfg.bufCap) ∧
    exec .receive (received frame0) = .next (after .receive (received frame0)) ∧
    (after .receive (received frame0)).rxState = .delivered :=
  ⟨by decide, exec_after _ _, by decide +kernel⟩

/-- The block of V-SCN-1 sends, and a booted block holds its frame (V-RX-1). -/
theorem witness_RoundTripDeliversTheReading :
    let s : State := { booted with rd := reading0 }
    let r := received frame0
    s.inputs.lock = true ∧ s.cfg.wellFormed = true ∧ exec .send s = .next (after .send s) ∧
    r.inputs.lock = true ∧ r.cfg.wellFormed = true ∧ r.cfg.order = s.cfg.order ∧
    r.inputs.key = s.inputs.key ∧ r.inputs.iv = s.inputs.iv ∧ r.inputs.frLen = 48#32 ∧
    r.inputs.mem.bufBytes .fr 48 = (after .send s).mem.bufBytes .fr 48 ∧ s.pending = none := by
  intro s r
  refine ⟨rfl, by decide, exec_after _ _, rfl, by decide, rfl, rfl, rfl, rfl, ?_, rfl⟩
  rw [test_send_frame]
  decide +kernel

/-- V-RX-2: the frame with its last byte changed. -/
theorem witness_ChangedFrameIsDetected :
    let s : State := { booted with rd := reading0 }
    let r := received (frame0.set 47 0x36)
    s.inputs.lock = true ∧ s.cfg.wellFormed = true ∧ exec .send s = .next (after .send s) ∧
    r.inputs.lock = true ∧ r.cfg.wellFormed = true ∧ r.inputs.key = s.inputs.key ∧
    r.inputs.frLen = 48#32 ∧
    DifferInOneBlock ((after .send s).mem.bufBytes .fr 48) (r.inputs.mem.bufBytes .fr 48) := by
  intro s r
  refine ⟨rfl, by decide, exec_after _ _, rfl, by decide, rfl, rfl, ?_⟩
  rw [test_send_frame, show r.inputs.mem.bufBytes .fr 48 = frame0.set 47 0x36 by decide +kernel]
  exact changed_frames_differ_in_one_block _ (by simp)

/-- Two blocks built alike with other earlier results. -/
theorem witness_NothingCarriesOver :
    let s := received frame0
    let r : State := { received frame0 with rd := key0, ptLen := 5, verifyOk := true, rxState := .delivered }
    r.cfg = s.cfg ∧ s.cfg.wellFormed = true ∧ r.inputs.lock = s.inputs.lock ∧ s.inputs.lock = true ∧
    r.inputs.key = s.inputs.key ∧ r.inputs.iv = s.inputs.iv ∧ r.inputs.frLen = s.inputs.frLen ∧
    r.inputs.mem.bufBytes .fr r.inputs.frLen.toNat = s.inputs.mem.bufBytes .fr s.inputs.frLen.toNat ∧
    ({ r with rd := s.rd }).inputs.rd = s.inputs.rd ∧
    exec .receive s = .next (after .receive s) ∧ exec .receive r = .next (after .receive r) ∧
    exec .send s = .next (after .send s) ∧
    exec .send { r with rd := s.rd } = .next (after .send { r with rd := s.rd }) := by
  intro s r
  exact ⟨rfl, by decide, rfl, rfl, rfl, rfl, rfl, rfl, rfl, exec_after _ _, exec_after _ _, exec_after _ _,
    exec_after _ _⟩

theorem witness_RejectCategoriesMapToCodes :
    exec .receive booted = .next (after .receive booted) := exec_after _ _

/-- A read of STATUS with a clock left and on the clock of completion, and a step that leaves the RECEIVE
running. -/
theorem witness_ReceiverStateReadsFollowThePath :
    (∀ n ∈ [0, 1], ∃ p, Inv (running .receive n [hostPoll] booted) ∧
      (running .receive n [hostPoll] booted).pending = some p ∧ decode p.word = .ok .receive ∧
      p.left = n ∧ (running .receive n [hostPoll] booted).bus = .read 4 0x008#12 :: []) ∧
    (∃ t p q, (running .receive 1 [.idle] booted).pending = some p ∧
      NoReset (running .receive 1 [.idle] booted) ∧ step (running .receive 1 [.idle] booted) = .next t ∧
      t.pending = some q) ∧
    exec .receive booted = .next (after .receive booted) :=
  ⟨fun _ _ => ⟨_, running_inv _ _ _, rfl, (by decide : decode (encode .receive) = .ok .receive), rfl, rfl⟩,
   ⟨_, _, _, rfl, by unfold NoReset; decide, rfl, rfl⟩, exec_after _ _⟩

theorem witness_StepKeepsInvariant :
    Inv (running .receive 1 [hostPoll] booted) ∧
    ∃ t, step (running .receive 1 [hostPoll] booted) = .next t :=
  ⟨running_inv _ _ _, _, rfl⟩

end Sys2Proof.Tests
end

section
/-! PROOFS. The opcode map (30_encoding.md, rules R111, R113, R114): which words decode to a command. A word
with MBZ = 0 is the zero extension of its OPC field, so the decoder is settled by the sixteen values of
that field, and the words of the ten commands are the numbers from 1 to 10. -/

namespace Sys2Proof

/-! ## The fields of a command word -/

theorem mbzField_eq_zero_iff (w : Word) : mbzField w = 0#28 ↔ w.toNat < 16 := by
  rw [← BitVec.toNat_inj, mbzField, BitVec.extractLsb'_toNat, Nat.shiftRight_eq_div_pow, BitVec.toNat_ofNat]
  omega

theorem setWidth_opcField_of_mbzField {w : Word} (hmbz : mbzField w = 0#28) :
    (opcField w).setWidth 32 = w := by
  have hsmall : w.toNat < 16 := (mbzField_eq_zero_iff w).mp hmbz
  apply BitVec.eq_of_toNat_eq
  rw [BitVec.toNat_setWidth, opcField, BitVec.extractLsb'_toNat, Nat.shiftRight_zero]
  omega

/-! ## The decoder on each side of the mask -/

theorem decode_of_mbzField_ne {w : Word} (hmbz : mbzField w ≠ 0#28) : decode w = .error .mustBeZero :=
  if_pos hmbz

theorem decode_setWidth_eq_ok_iff (opc : BitVec 4) (i : Instr) :
    decode (opc.setWidth 32) = .ok i ↔ opc = opcodeOf i := by
  cases i <;> revert opc <;> decide

@[simp] theorem decode_encode (i : Instr) : decode (encode i) = .ok i :=
  (decode_setWidth_eq_ok_iff (opcodeOf i) i).mpr rfl

/-- R113: the match of a command under the mask 0xFFFFFFFF is its one encoded word. -/
theorem decode_eq_ok_iff (w : Word) (i : Instr) : decode w = .ok i ↔ w = encode i := by
  constructor
  · intro hdec
    by_cases hmbz : mbzField w = 0#28
    · have hw : (opcField w).setWidth 32 = w := setWidth_opcField_of_mbzField hmbz
      have hopc : opcField w = opcodeOf i := (decode_setWidth_eq_ok_iff _ i).mp (hw.symm ▸ hdec)
      rw [← hw, hopc, encode]
    · rw [decode_of_mbzField_ne hmbz] at hdec
      cases hdec
  · rintro rfl
    exact decode_encode i

/-! ## The illegal words -/

theorem exists_decode_eq_error_iff_isOk (w : Word) : (∃ e, decode w = .error e) ↔ (decode w).isOk = false := by
  cases decode w <;> simp [Except.isOk, Except.toBool]

theorem isOk_decode_setWidth (opc : BitVec 4) :
    (decode (opc.setWidth 32)).isOk = false ↔ opc.setWidth 32 = 0#32 ∨ 0x0000000A#32 < opc.setWidth 32 := by
  revert opc
  decide

/-- R114: with MBZ = 0 the OPC field decides; with a bit of 31..4 set the word is illegal and above 10. -/
theorem exists_decode_eq_error_iff (w : Word) :
    (∃ e, decode w = .error e) ↔ w = 0#32 ∨ 0x0000000A#32 < w := by
  by_cases hmbz : mbzField w = 0#28
  · rw [exists_decode_eq_error_iff_isOk, ← setWidth_opcField_of_mbzField hmbz]
    exact isOk_decode_setWidth (opcField w)
  · have hlarge : ¬ w.toNat < 16 := mt (mbzField_eq_zero_iff w).mpr hmbz
    have habove : 0x0000000A#32 < w := by bv_omega
    exact iff_of_true ⟨_, decode_of_mbzField_ne hmbz⟩ (.inr habove)

/-! ## The opcode map -/

/-- Settles O1: each command's row is `decode_eq_ok_iff` at that command, whose encoded word evaluates to
the word of R113, and the last row is `exists_decode_eq_error_iff`. -/
theorem opcodeMapIsExact : Obligations.OpcodeMapIsExact := fun w =>
  ⟨decode_eq_ok_iff w .encode, decode_eq_ok_iff w .decode, decode_eq_ok_iff w .encrypt,
   decode_eq_ok_iff w .decrypt, decode_eq_ok_iff w .tagGen, decode_eq_ok_iff w .tagVerify,
   decode_eq_ok_iff w .frameBuild, decode_eq_ok_iff w .frameParse, decode_eq_ok_iff w .send,
   decode_eq_ok_iff w .receive, exists_decode_eq_error_iff w⟩

end Sys2Proof
end

section
/-! PROOFS. The PKCS7 padding (43_cbc_pkcs7.md, rule R170): how many bytes it adds and the length it
reaches. -/

namespace Sys2Proof.Machine

/-! ## The number of padding bytes -/

theorem one_le_padLength (n : Nat) : 1 ≤ padLength n := by
  have hrem : n % 16 < 16 := Nat.mod_lt n (by decide)
  exact Nat.sub_pos_of_lt hrem

theorem padLength_le (n : Nat) : padLength n ≤ 16 := Nat.sub_le 16 (n % 16)

/-- The padding fills the block after the last whole one; for `n % 16 = 0` that is a full block more. -/
theorem add_padLength (n : Nat) : n + padLength n = paddedLength n := by
  rw [padLength, paddedLength]
  omega

/-! ## The padded string -/

@[simp] theorem length_pkcs7Pad (P : Bytes) : (pkcs7Pad P).length = paddedLength P.length := by
  rw [pkcs7Pad, List.length_append, List.length_replicate, add_padLength]

/-- Settles O30: the count of padding bytes is `padLength`, within its bounds, and the padded length is
`paddedLength` by `length_pkcs7Pad`. -/
theorem paddingShape : Obligations.PaddingShape := fun P =>
  ⟨padLength P.length, one_le_padLength _, padLength_le _, rfl, rfl, length_pkcs7Pad P⟩

end Sys2Proof.Machine
end

section
/-! PROOFS. The FrameCodec (45_frame_codec.md, rules R210 and R211): the two branches of parse, and its
inverse relation to build. -/

namespace Sys2Proof.Machine

/-! ## Building -/

@[simp] theorem length_buildFrame (C : Bytes) (T : Block) : (buildFrame C T).length = C.length + 16 := by
  rw [buildFrame, List.length_append, blockBytes_length]

/-! ## Parsing -/

theorem parseFrame_of_length_lt {F : Bytes} (hshort : F.length < 16) :
    parseFrame F = .error .frameTooShort :=
  if_pos hshort

theorem parseFrame_of_le_length {F : Bytes} (hlen : 16 ≤ F.length) :
    parseFrame F = .ok (F.take (F.length - 16), blockOf (F.drop (F.length - 16))) :=
  if_neg (Nat.not_lt.mpr hlen)

/-- The part that parse takes as the tag is one whole block, so its bytes are those of the frame. -/
theorem blockBytes_blockOf_drop_length_sub {F : Bytes} (hlen : 16 ≤ F.length) :
    blockBytes (blockOf (F.drop (F.length - 16))) = F.drop (F.length - 16) :=
  blockBytes_blockOf _ (by rw [List.length_drop, Nat.sub_sub_self hlen])

/-- R211: the last 16 bytes of a built frame begin where its ciphertext ends. -/
@[simp] theorem parseFrame_buildFrame (C : Bytes) (T : Block) : parseFrame (buildFrame C T) = .ok (C, T) := by
  have hlen : 16 ≤ (buildFrame C T).length := by rw [length_buildFrame]; exact Nat.le_add_left 16 _
  have hsplit : (buildFrame C T).length - 16 = C.length := by rw [length_buildFrame, Nat.add_sub_cancel]
  rw [parseFrame_of_le_length hlen, hsplit, buildFrame, List.take_left, List.drop_left, blockOf_blockBytes]

/-- Settles O43: the two branches of parse split at 16 bytes, the tag it gives back is the block of the
last 16, and `parseFrame_buildFrame` is the inverse relation. -/
theorem parseInvertsBuild : Obligations.ParseInvertsBuild :=
  ⟨fun _ hshort => parseFrame_of_length_lt hshort,
   fun _ hlen => ⟨_, blockBytes_blockOf_drop_length_sub hlen, parseFrame_of_le_length hlen⟩,
   fun C T => ⟨parseFrame_buildFrame C T, rfl, length_buildFrame C T⟩⟩

end Sys2Proof.Machine
end

section
/-! PROOFS. What an end of a command and the record of an illegal word keep: frames compose along a chain
of updates, and each update that a failing command makes has its frame said once. -/

namespace Sys2Proof.Machine

/-! ## Frames -/

theorem sameItem_trans {item : Item} {s t u : State} (hst : sameItem item s t) (htu : sameItem item t u) :
    sameItem item s u := by
  cases item with
  | errRecord | receiver => exact ⟨htu.left.trans hst.left, htu.right.trans hst.right⟩
  | _ => exact Eq.trans htu hst

/-- Two updates in a row change no more than what the one or the other may change. -/
theorem KeepsAllBut.trans {xs ys : List Item} {s t u : State} (hst : KeepsAllBut xs s t)
    (htu : KeepsAllBut ys t u) : KeepsAllBut (ys ++ xs) s u := by
  intro item hunlisted
  rw [List.mem_append, not_or] at hunlisted
  obtain ⟨hys, hxs⟩ := hunlisted
  exact sameItem_trans (hst item hxs) (htu item hys)

theorem keepsAllBut_nil_refl (s : State) : KeepsAllBut [] s s := by
  intro item _
  cases item with
  | errRecord | receiver => exact ⟨rfl, rfl⟩
  | _ => rfl

theorem keepsBytesBut_of_mem_eq {spans : List (Buf × Nat)} {s t : State} (hmem : t.mem = s.mem) :
    KeepsBytesBut spans s t :=
  fun a _ => congrArg (·.read a) hmem

/-! ## The frame of each update -/

theorem keepsAllBut_setVerifyOk (b : Bool) (s : State) : KeepsAllBut [.verifyOk] s (s.setVerifyOk b) := by
  intro item hunlisted
  cases item with
  | verifyOk => simp at hunlisted
  | errRecord | receiver => exact ⟨rfl, rfl⟩
  | _ => rfl

theorem keepsAllBut_setReceiver (st : RxState) (cat : RxReject) (s : State) :
    KeepsAllBut [.receiver] s (s.setReceiver st cat) := by
  intro item hunlisted
  cases item with
  | receiver => simp at hunlisted
  | errRecord => exact ⟨rfl, rfl⟩
  | _ => rfl

theorem keepsAllBut_clearReceiver (s : State) : KeepsAllBut [.verifyOk, .receiver] s s.clearReceiver :=
  (keepsAllBut_setReceiver .awaitingFrame .none s).trans (keepsAllBut_setVerifyOk false _)

theorem keepsAllBut_popBus (rest : List BusOp) (s : State) : KeepsAllBut [.hostStream] s (s.popBus rest) := by
  intro item hunlisted
  cases item with
  | hostStream => simp at hunlisted
  | errRecord | receiver => exact ⟨rfl, rfl⟩
  | _ => rfl

theorem keepsAllBut_recordIllegal (s : State) : KeepsAllBut [.errRecord, .done] s s.recordIllegal := by
  intro item hunlisted
  cases item with
  | errRecord | done => simp at hunlisted
  | receiver => exact ⟨rfl, rfl⟩
  | _ => rfl

theorem keepsAllBut_raiseFail (code : ErrCode) (s : State) : KeepsAllBut ending s (s.raiseFail code) := by
  intro item hunlisted
  cases item with
  | errRecord | done | running => simp [ending] at hunlisted
  | receiver => exact ⟨rfl, rfl⟩
  | _ => rfl

/-! ## The end by `raise Fail(code)` -/

@[simp] theorem extractLsb'_statusWord_errCode (s : State) :
    s.statusWord.extractLsb' 4 4 = errCodeBits s.errCode :=
  packStatus_errCode ..

theorem endedWith_raiseFail (code : ErrCode) (s : State) : EndedWith code (s.raiseFail code) :=
  ⟨rfl, rfl, rfl, rfl⟩

/-- R255: the end as failed is the one thing it writes. -/
theorem failsCleanly_raiseFail (code : ErrCode) (s : State) : FailsCleanly code s (s.raiseFail code) :=
  ⟨endedWith_raiseFail code s, keepsAllBut_raiseFail code s, keepsBytesBut_of_mem_eq rfl⟩

end Sys2Proof.Machine
end

section
/-! PROOFS. An illegal word written to CMD (60_exceptions.md, rule R252). -/

namespace Sys2Proof.Machine

/-! ## A write with BUSY = 0 -/

theorem hostClock_of_write {s : State} {off : Offset} {v : Word} {rest : List BusOp}
    (hbus : s.bus = .write 4 off v :: rest) (hoff : accessWellFormed 4 off = true) :
    s.hostClock = .next ((s.popBus rest).hostWrite (regOf off) v) := by
  simp only [State.hostClock, hbus, hoff, if_true]

theorem hostWrite_of_idle {s : State} (hidle : s.pending = none) (r : Reg) (v : Word) :
    s.hostWrite r v = s.writeIdle r v := by
  simp only [State.hostWrite, State.busy, hidle, Option.isSome_none, Bool.false_eq_true, if_false]

/-- With no command running when the clock begins, the engine makes no move on it. -/
theorem step_of_idle {s t : State} (hidle : s.pending = none) (hclock : s.hostClock = .next t) :
    step s = .next t := by
  simp only [step, State.clock, hclock, State.busy, hidle, Option.isSome_none, Bool.false_eq_true, if_false]

theorem step_of_idle_command_write {s : State} {w : Word} {rest : List BusOp} (hidle : s.pending = none)
    (hbus : s.bus = .write 4 0x004#12 w :: rest) : step s = .next ((s.popBus rest).issue w) := by
  have hreg : regOf 0x004#12 = .cmd := regOf_cmd _ (by decide) (by decide)
  have hpopped : (s.popBus rest).pending = none := hidle
  rw [step_of_idle hidle (hostClock_of_write hbus (by decide)), hostWrite_of_idle hpopped, hreg,
    State.writeIdle]

/-! ## The record of an illegal word -/

theorem issue_of_decode_error {w : Word} {e : DecodeError} (hillegal : decode w = .error e) (s : State) :
    s.issue w = s.recordIllegal := by
  simp only [State.issue, hillegal]

/-- Settles O6: the step takes the access off the bus and records the illegal word, and the frames of these
two updates compose. BUSY stays 0 because `recordIllegal` holds no command. -/
theorem illegalWordIsRecorded : Obligations.IllegalWordIsRecorded := by
  intro s w e rest hidle hbus hillegal
  have hstep : step s = .next (s.popBus rest).recordIllegal := by
    rw [step_of_idle_command_write hidle hbus, issue_of_decode_error hillegal]
  have hnotBusy : (s.popBus rest).recordIllegal.busy = false := by simp [State.busy, hidle]
  have hirq : (s.popBus rest).recordIllegal.irq = s.ie := Bool.and_true s.ie
  exact ⟨_, hstep, rfl, extractLsb'_statusWord_errCode _, rfl, hnotBusy, hirq, rfl,
    (keepsAllBut_popBus rest s).trans (keepsAllBut_recordIllegal _), keepsBytesBut_of_mem_eq rfl⟩

end Sys2Proof.Machine
end

section
/-! PROOFS. The errors of a command found before it reads any data (60_exceptions.md, rules R253 and R254):
KeyNotLocked and LengthError. In each case the command's answer is its acceptance clears followed by
`raise Fail(code)`, and from that one shape the frames and the fields of STATUS follow. -/

namespace Sys2Proof.Machine

/-! ## The shape of the answer -/

/-- The command makes its acceptance clears, fails with this code, and does nothing else. -/
def FailsCheck (i : Instr) (code : ErrCode) (s : State) : Prop :=
  exec i s = .next ((s.acceptClears i).raiseFail code)

/-- What the acceptance clears of a command may change (R286). -/
def clearedItems (i : Instr) : List Item :=
  if i = .tagVerify then [.verifyOk] else if i = .receive then [.verifyOk, .receiver] else []

theorem keepsAllBut_acceptClears (i : Instr) (s : State) :
    KeepsAllBut (clearedItems i) s (s.acceptClears i) := by
  cases i with
  | tagVerify => exact keepsAllBut_setVerifyOk false s
  | receive => exact keepsAllBut_clearReceiver s
  | _ => exact keepsAllBut_nil_refl s

theorem keepsAllBut_acceptClears_raiseFail (i : Instr) (code : ErrCode) (s : State) :
    KeepsAllBut (ending ++ clearedItems i) s ((s.acceptClears i).raiseFail code) :=
  (keepsAllBut_acceptClears i s).trans (keepsAllBut_raiseFail code _)

theorem keepsBytesBut_acceptClears_raiseFail (i : Instr) (code : ErrCode) (s : State) :
    KeepsBytesBut [] s ((s.acceptClears i).raiseFail code) :=
  keepsBytesBut_of_mem_eq (by cases i <;> rfl)

theorem verifyOk_acceptClears {i : Instr} (hclears : i = .tagVerify ∨ i = .receive) (s : State) :
    (s.acceptClears i).verifyOk = false := by
  rcases hclears with rfl | rfl <;> rfl

/-- A command without acceptance clears that fails a check leaves everything but the end of the command. -/
theorem FailsCheck.failsCleanly {i : Instr} {code : ErrCode} {s : State} (hfails : FailsCheck i code s)
    (hclears : s.acceptClears i = s) :
    ∃ t, exec i s = .next t ∧ FailsCleanly code s t ∧ t.statusWord.extractLsb' 4 4 = errCodeBits code := by
  rw [FailsCheck, hclears] at hfails
  exact ⟨_, hfails, failsCleanly_raiseFail code s, extractLsb'_statusWord_errCode _⟩

/-- A RECEIVE that fails a check stays in AwaitingFrame with no reject category (R227, R233). -/
theorem statusShows_clearReceiver_raiseFail (code : ErrCode) (s : State) :
    StatusShows (s.clearReceiver.raiseFail code) (errCodeBits code) 0 0 :=
  (statusShows_iff ..).mpr ⟨rfl, rfl, rfl⟩

/-! ## A failed check is the command's answer -/

theorem failsCheck_tagVerify {e : ErrCode} {s : State} (herr : tagVerifyResult s.cfg s.inputs = .error e) :
    FailsCheck .tagVerify e s := by
  change execTagVerify s = _
  simp only [execTagVerify, herr, State.acceptClears]

theorem failsCheck_receive {e : ErrCode} {s : State}
    (herr : rxOutcome s.cfg s.inputs = .commandError e) : FailsCheck .receive e s := by
  change execReceive s = _
  simp only [execReceive, herr, State.applyRx, State.acceptClears]

/-! ## R253: the key is used only when it is locked -/

theorem failsCheck_of_lock_eq_false {i : Instr} {s : State} (hkey : usesKey i = true)
    (hlock : s.inputs.lock = false) : FailsCheck i .keyNotLocked s := by
  cases i with
  | encrypt => exact settle_of_error (if_pos hlock) ..
  | decrypt => exact settle_of_error (if_pos hlock) ..
  | tagGen => exact settle_of_error (if_pos hlock) ..
  | tagVerify => exact failsCheck_tagVerify (if_pos hlock)
  | send => exact settle_of_error (if_pos hlock) ..
  | receive => exact failsCheck_receive (if_pos hlock)
  | encode | decode | frameBuild | frameParse => cases hkey

/-- Settles O15: the answer of all six commands is `failsCheck_of_lock_eq_false`, and what it changes is
their acceptance clears and the end of the command. -/
theorem keyUseNeedsLock : Obligations.KeyUseNeedsLock := by
  intro i s hkey hlock
  refine ⟨_, failsCheck_of_lock_eq_false hkey hlock, endedWith_raiseFail _ _,
    extractLsb'_statusWord_errCode _, keepsAllBut_acceptClears_raiseFail i _ s,
    keepsBytesBut_acceptClears_raiseFail i _ s, fun hclears => verifyOk_acceptClears hclears s, ?_⟩
  rintro rfl
  exact ⟨rfl, rfl, statusShows_clearReceiver_raiseFail .keyNotLocked s⟩

/-! ## R254: the lengths are checked against BUF_CAP -/

theorem encryptResult_eq_lengthError {cfg : Params} {x : Inputs} (hlock : x.lock = true)
    (hlen : cfg.bufCap < x.ptLen.toNat ∨ cfg.bufCap < paddedLength x.ptLen.toNat) :
    encryptResult cfg x = .error .lengthError := by
  rcases hlen with hinput | hpadded
  · simp [encryptResult, hlock, hinput]
  · simp [encryptResult, hlock, hpadded]

theorem decryptResult_eq_lengthError {cfg : Params} {x : Inputs} (hlock : x.lock = true)
    (hlen : cfg.bufCap < x.ctLen.toNat) : decryptResult cfg x = .error .lengthError := by
  simp [decryptResult, hlock, hlen]

theorem tagGenResult_eq_lengthError {cfg : Params} {x : Inputs} (hlock : x.lock = true)
    (hlen : cfg.bufCap < x.ctLen.toNat) : tagGenResult cfg x = .error .lengthError := by
  simp [tagGenResult, hlock, hlen]

theorem tagVerifyResult_eq_lengthError {cfg : Params} {x : Inputs} (hlock : x.lock = true)
    (hlen : cfg.bufCap < x.ctLen.toNat) : tagVerifyResult cfg x = .error .lengthError := by
  simp [tagVerifyResult, hlock, hlen]

theorem frameBuildResult_eq_lengthError {cfg : Params} {x : Inputs}
    (hlen : cfg.bufCap < x.ctLen.toNat ∨ cfg.bufCap < x.ctLen.toNat + 16) :
    frameBuildResult cfg x = .error .lengthError := by
  rcases hlen with hinput | hframe
  · simp [frameBuildResult, hinput]
  · simp [frameBuildResult, hframe]

theorem frameParseResult_eq_lengthError {cfg : Params} {x : Inputs} (hlen : cfg.bufCap < x.frLen.toNat) :
    frameParseResult cfg x = .error .lengthError :=
  if_pos hlen

theorem rxOutcome_eq_lengthError {cfg : Params} {x : Inputs} (hlock : x.lock = true)
    (hlen : cfg.bufCap < x.frLen.toNat) : rxOutcome cfg x = .commandError .lengthError := by
  simp [rxOutcome, hlock, hlen]

/-- Settles O16, clause by clause: the check of each command fails with LengthError, and what that leaves
is `FailsCheck.failsCleanly`, or for TAG_VERIFY and RECEIVE the frame with their acceptance clears. -/
theorem lengthErrors : Obligations.LengthErrors := by
  intro s
  refine ⟨fun hlock hlen => ?encrypt, fun hlock hlen => ⟨?decrypt, ?tagGen, ?tagVerify⟩,
    fun hlen => ?frameBuild, fun hlen => ?frameParse, fun hlock hlen => ?receive⟩
  case encrypt =>
    exact FailsCheck.failsCleanly (settle_of_error (encryptResult_eq_lengthError hlock hlen) ..) rfl
  case decrypt =>
    exact FailsCheck.failsCleanly (settle_of_error (decryptResult_eq_lengthError hlock hlen) ..) rfl
  case tagGen =>
    exact FailsCheck.failsCleanly (settle_of_error (tagGenResult_eq_lengthError hlock hlen) ..) rfl
  case tagVerify =>
    exact ⟨_, failsCheck_tagVerify (tagVerifyResult_eq_lengthError hlock hlen), endedWith_raiseFail _ _,
      extractLsb'_statusWord_errCode _, rfl, keepsAllBut_acceptClears_raiseFail .tagVerify _ s,
      keepsBytesBut_acceptClears_raiseFail .tagVerify _ s⟩
  case frameBuild =>
    exact FailsCheck.failsCleanly (settle_of_error (frameBuildResult_eq_lengthError hlen) ..) rfl
  case frameParse =>
    exact FailsCheck.failsCleanly (settle_of_error (frameParseResult_eq_lengthError hlen) ..) rfl
  case receive =>
    exact ⟨_, failsCheck_receive (rxOutcome_eq_lengthError hlock hlen), endedWith_raiseFail _ _,
      statusShows_clearReceiver_raiseFail .lengthError s, rfl, rfl, rfl,
      keepsAllBut_acceptClears_raiseFail .receive _ s,
      keepsBytesBut_acceptClears_raiseFail .receive _ s⟩

end Sys2Proof.Machine
end

section
/-! PROOFS. Encoding and decoding of command words (30_encoding.md, rules R113, R114 and R117). -/

namespace Sys2Proof

/-- Settles O2: a word decodes to a command exactly when it is that command's encoding
(`decode_eq_ok_iff`), which gives both inverses and the injectivity. -/
theorem decodeAndEncodeAgree : Obligations.DecodeAndEncodeAgree :=
  ⟨fun i => ⟨rfl, decode_encode i⟩, fun w i => (decode_eq_ok_iff w i).mp,
   fun w v i hw hv => ((decode_eq_ok_iff w i).mp hw).trans ((decode_eq_ok_iff v i).mp hv).symm⟩

/-- Settles O3: the decoder evaluated on the eight words. -/
theorem sampleWordsDecode : Obligations.SampleWordsDecode :=
  ⟨rfl, rfl, rfl, rfl, rfl, rfl, rfl, rfl⟩

end Sys2Proof
end

section
/-! PROOFS. AES-128 (42_aes128.md, rules R141 to R151). The S-box facts are settled byte by byte; MixColumns
and its inverse are polynomials in `xtime`, which is additive, so their product is the identity by
cancellation in characteristic 2; and the rounds of the inverse cipher undo those of the cipher one by one,
from the last key inwards. -/

namespace Sys2Proof.Machine

/-! ## The S-box -/

theorem sbox_eq_affine_ginv (a : Byte) : sbox a = affine (ginv a) := by
  revert a
  decide +kernel

@[simp] theorem invSbox_sbox (a : Byte) : invSbox (sbox a) = a := by
  revert a
  decide +kernel

@[simp] theorem sbox_invSbox (a : Byte) : sbox (invSbox a) = a := by
  revert a
  decide +kernel

/-- The inverse of the affine map (R142). -/
def affineInverse (b : Byte) : Byte := b.rotateLeft 1 ^^^ b.rotateLeft 3 ^^^ b.rotateLeft 6 ^^^ 0x05

theorem affineInverse_affine (b : Byte) : affineInverse (affine b) = b := by
  revert b
  decide +kernel

theorem gmul_affineInverse_sbox (a : Byte) : a = 0 ∨ gmul a (affineInverse (sbox a)) = 1 := by
  revert a
  decide +kernel

/-- The field inverse read off the S-box, in which it is evaluated once already. -/
theorem gmul_ginv {a : Byte} (hne : a ≠ 0) : gmul a (ginv a) = 1 := by
  have hginv : ginv a = affineInverse (sbox a) := by rw [sbox_eq_affine_ginv, affineInverse_affine]
  rw [hginv]
  exact (gmul_affineInverse_sbox a).resolve_left hne

theorem ginv_zero : ginv 0 = 0 := by decide +kernel

/-- Settles O28: each row of the tables, and each non-zero byte with its inverse. -/
theorem sboxIsAffineOfInverse : Obligations.SboxIsAffineOfInverse :=
  ⟨fun a => ⟨sbox_eq_affine_ginv a, invSbox_sbox a, sbox_invSbox a⟩, ginv_zero, fun _ hne => gmul_ginv hne⟩

/-! ## SubBytes and ShiftRows -/

@[simp] theorem invSubBytes_subBytes (s : Block) : invSubBytes (subBytes s) = s := by
  simp [invSubBytes, subBytes, mapBlock, mapCol]

@[simp] theorem subBytes_invSubBytes (s : Block) : subBytes (invSubBytes s) = s := by
  simp [invSubBytes, subBytes, mapBlock, mapCol]

@[simp] theorem invShiftRows_shiftRows (s : Block) : invShiftRows (shiftRows s) = s := rfl

@[simp] theorem shiftRows_invShiftRows (s : Block) : shiftRows (invShiftRows s) = s := rfl

@[simp] theorem addRoundKey_addRoundKey (k s : Block) : addRoundKey k (addRoundKey k s) = s :=
  Block.xor_self_right s k

/-! ## Products by a constant -/

theorem byte_xor_left_comm (a b c : Byte) : a ^^^ (b ^^^ c) = b ^^^ (a ^^^ c) := by
  rw [← BitVec.xor_assoc, ← BitVec.xor_assoc, BitVec.xor_comm a]

theorem byte_xor_cancel_left (a b : Byte) : a ^^^ (a ^^^ b) = b := by
  rw [← BitVec.xor_assoc, BitVec.xor_self, BitVec.zero_xor]

theorem byte_xor_zero (a : Byte) : a ^^^ 0 = a := BitVec.xor_zero

theorem byte_zero_xor (a : Byte) : 0 ^^^ a = a := BitVec.zero_xor

theorem byte_xor_self (a : Byte) : a ^^^ a = 0 := BitVec.xor_self

theorem xtime_zero : xtime 0 = 0 := rfl

/-- `xtime` is additive, as multiplication by x is (R141). -/
theorem xtime_xor (a b : Byte) : xtime (a ^^^ b) = xtime a ^^^ xtime b := by
  simp only [xtime, BitVec.getLsbD_xor, BitVec.shiftLeft_xor_distrib]
  cases a.getLsbD 7 <;> cases b.getLsbD 7 <;>
    simp [BitVec.xor_assoc, BitVec.xor_comm, byte_xor_left_comm]

theorem gmul_two (a : Byte) : gmul 2 a = xtime a := by
  revert a
  decide +kernel

theorem gmul_three (a : Byte) : gmul 3 a = xtime a ^^^ a := by
  revert a
  decide +kernel

theorem gmul_nine (a : Byte) : gmul 0x09 a = xtime (xtime (xtime a)) ^^^ a := by
  revert a
  decide +kernel

theorem gmul_eleven (a : Byte) : gmul 0x0B a = xtime (xtime (xtime a)) ^^^ xtime a ^^^ a := by
  revert a
  decide +kernel

theorem gmul_thirteen (a : Byte) : gmul 0x0D a = xtime (xtime (xtime a)) ^^^ xtime (xtime a) ^^^ a := by
  revert a
  decide +kernel

theorem gmul_fourteen (a : Byte) :
    gmul 0x0E a = xtime (xtime (xtime a)) ^^^ xtime (xtime a) ^^^ xtime a := by
  revert a
  decide +kernel

/-! ## MixColumns -/

theorem mixCol_xor (x y : Col) : mixCol (x.xor y) = (mixCol x).xor (mixCol y) := by
  simp only [mixCol, Col.xor, gmul_two, gmul_three, xtime_xor, Col.mk.injEq]
  refine ⟨?_, ?_, ?_, ?_⟩ <;> ac_rfl

theorem invMixCol_xor (x y : Col) : invMixCol (x.xor y) = (invMixCol x).xor (invMixCol y) := by
  simp only [invMixCol, Col.xor, gmul_nine, gmul_eleven, gmul_thirteen, gmul_fourteen, xtime_xor, Col.mk.injEq]
  refine ⟨?_, ?_, ?_, ?_⟩ <;> ac_rfl

/-- A column is the sum of its four bytes, each in its place. -/
theorem col_eq_xor_bytes (a : Col) :
    a = ((⟨a.b0, 0, 0, 0⟩ : Col).xor ⟨0, a.b1, 0, 0⟩).xor ((⟨0, 0, a.b2, 0⟩ : Col).xor ⟨0, 0, 0, a.b3⟩) := by
  simp [Col.xor]

/-- Additive column maps that agree on the columns of one byte agree on every column. -/
theorem col_map_eq_self {f : Col → Col} (hadd : ∀ x y, f (x.xor y) = (f x).xor (f y))
    (h0 : ∀ b, f ⟨b, 0, 0, 0⟩ = ⟨b, 0, 0, 0⟩) (h1 : ∀ b, f ⟨0, b, 0, 0⟩ = ⟨0, b, 0, 0⟩)
    (h2 : ∀ b, f ⟨0, 0, b, 0⟩ = ⟨0, 0, b, 0⟩) (h3 : ∀ b, f ⟨0, 0, 0, b⟩ = ⟨0, 0, 0, b⟩) (a : Col) :
    f a = a := by
  rw [col_eq_xor_bytes a, hadd, hadd, hadd, h0, h1, h2, h3]

@[simp] theorem invMixCol_mixCol (a : Col) : invMixCol (mixCol a) = a := by
  refine col_map_eq_self (f := fun x => invMixCol (mixCol x)) (fun x y => ?_) ?_ ?_ ?_ ?_ a
  · rw [mixCol_xor, invMixCol_xor]
  all_goals
    intro b
    simp only [invMixCol, mixCol, gmul_two, gmul_three, gmul_nine, gmul_eleven, gmul_thirteen, gmul_fourteen,
      xtime_zero, byte_xor_zero, byte_zero_xor, xtime_xor]
    simp only [BitVec.xor_assoc, byte_xor_left_comm, byte_xor_cancel_left, byte_xor_self, byte_xor_zero]

@[simp] theorem mixCol_invMixCol (a : Col) : mixCol (invMixCol a) = a := by
  refine col_map_eq_self (f := fun x => mixCol (invMixCol x)) (fun x y => ?_) ?_ ?_ ?_ ?_ a
  · rw [invMixCol_xor, mixCol_xor]
  all_goals
    intro b
    simp only [invMixCol, mixCol, gmul_two, gmul_three, gmul_nine, gmul_eleven, gmul_thirteen, gmul_fourteen,
      xtime_zero, byte_xor_zero, byte_zero_xor, xtime_xor]
    simp only [BitVec.xor_assoc, byte_xor_left_comm, byte_xor_cancel_left, byte_xor_self, byte_xor_zero]

@[simp] theorem invMixColumns_mixColumns (s : Block) : invMixColumns (mixColumns s) = s := by
  simp [invMixColumns, mixColumns, mapBlock]

@[simp] theorem mixColumns_invMixColumns (s : Block) : mixColumns (invMixColumns s) = s := by
  simp [invMixColumns, mixColumns, mapBlock]

/-! ## The rounds -/

/-- A round of the cipher with MixColumns (R149). -/
def fullRound (s k : Block) : Block := addRoundKey k (mixColumns (shiftRows (subBytes s)))

/-- The cipher's rounds are the full rounds of all keys but the last, then the last round. -/
theorem encRounds_append_singleton (ks : List Block) (last s : Block) :
    encRounds (ks ++ [last]) s = addRoundKey last (shiftRows (subBytes (ks.foldl fullRound s))) := by
  induction ks generalizing s with
  | nil => rfl
  | cons k ks ih =>
    rw [List.foldl_cons, ← ih (fullRound s k)]
    cases ks <;> rfl

/-- The inverse rounds take the state before the last AddRoundKey back to the start. -/
theorem decRounds_reverse_foldl (k0 s : Block) (ks : List Block) :
    decRounds k0 ks.reverse (shiftRows (subBytes (ks.foldl fullRound s))) = addRoundKey k0 s := by
  induction ks using List.reverseRecOn with
  | nil => simp [decRounds]
  | append_singleton ks k ih => simp [decRounds, fullRound, ih]

/-- The full rounds take what the inverse rounds answer forward again. -/
theorem foldl_decRounds_reverse (k0 s : Block) (ks : List Block) :
    shiftRows (subBytes (ks.foldl fullRound (addRoundKey k0 (decRounds k0 ks.reverse s)))) = s := by
  induction ks using List.reverseRecOn generalizing s with
  | nil => simp [decRounds]
  | append_singleton ks k ih => simp [decRounds, fullRound, ih]

/-! ## The cipher and its inverse -/

theorem roundKeys_eq_append_singleton (K : Block) : ∃ ks last, roundKeys K = ks ++ [last] :=
  ⟨_, _, (List.dropLast_append_getLast (List.cons_ne_nil _ _)).symm⟩

theorem aesDec_of_roundKeys {K last : Block} {ks : List Block} (hkeys : roundKeys K = ks ++ [last]) (B : Block) :
    aesDec K B = decRounds K ks.reverse (addRoundKey last B) := by
  simp [aesDec, hkeys]

theorem aesEnc_of_roundKeys {K last : Block} {ks : List Block} (hkeys : roundKeys K = ks ++ [last]) (B : Block) :
    aesEnc K B = addRoundKey last (shiftRows (subBytes (ks.foldl fullRound (addRoundKey K B)))) := by
  rw [aesEnc, hkeys, encRounds_append_singleton]

@[simp] theorem aesDec_aesEnc (K B : Block) : aesDec K (aesEnc K B) = B := by
  obtain ⟨ks, last, hkeys⟩ := roundKeys_eq_append_singleton K
  rw [aesDec_of_roundKeys hkeys, aesEnc_of_roundKeys hkeys, addRoundKey_addRoundKey, decRounds_reverse_foldl,
    addRoundKey_addRoundKey]

@[simp] theorem aesEnc_aesDec (K B : Block) : aesEnc K (aesDec K B) = B := by
  obtain ⟨ks, last, hkeys⟩ := roundKeys_eq_append_singleton K
  rw [aesDec_of_roundKeys hkeys, aesEnc_of_roundKeys hkeys, foldl_decRounds_reverse, addRoundKey_addRoundKey]

theorem aesEnc_injective {K B B' : Block} (heq : aesEnc K B = aesEnc K B') : B = B' := by
  rw [← aesDec_aesEnc K B, heq, aesDec_aesEnc]

/-- Settles O29: the inverse rounds undo the rounds and the other way round, and a map with an inverse is
injective. -/
theorem aesDecInvertsEnc : Obligations.AesDecInvertsEnc :=
  ⟨fun K B => ⟨aesDec_aesEnc K B, aesEnc_aesDec K B⟩, fun _ _ _ => aesEnc_injective⟩

end Sys2Proof.Machine
end

section
/-! PROOFS. The pure functions on byte strings: the Reading codec (41_reading_codec.md), padding and CBC
(43_cbc_pkcs7.md), CMAC and the comparison of tags (44_cmac.md). Each pair of inverse functions is settled
on blocks or on lists of blocks, and strings follow by `ofBlocks_toBlocks`. -/

namespace Sys2Proof.Machine

/-! ## The Reading codec -/

@[simp] theorem fromOrd32_ord32 (o : ByteOrder) (w : Word) : fromOrd32 o (ord32 o w) = w := by
  cases o with
  | le => exact fromLe32_le32 w
  | be => exact fromBe32_be32 w

@[simp] theorem ord32_fromOrd32 (o : ByteOrder) (x : Col) : ord32 o (fromOrd32 o x) = x := by
  cases o with
  | le => exact le32_fromLe32 x
  | be => exact be32_fromBe32 x

@[simp] theorem decodeBlock_encodeReading (o : ByteOrder) (rd : Quad) :
    decodeBlock o (encodeReading o rd) = rd := by
  simp [decodeBlock, encodeReading]

@[simp] theorem encodeReading_decodeBlock (o : ByteOrder) (x : Block) :
    encodeReading o (decodeBlock o x) = x := by
  simp [decodeBlock, encodeReading]

theorem decodeReading_of_length_eq {o : ByteOrder} {s : Bytes} (hlen : s.length = 16) :
    decodeReading o s = .ok (decodeBlock o (blockOf s)) :=
  if_neg (not_not.mpr hlen)

theorem decodeReading_of_length_ne {o : ByteOrder} {s : Bytes} (hlen : s.length ≠ 16) :
    decodeReading o s = .error .sizeMismatch :=
  if_pos hlen

/-- The Reading decoded from a string encodes to that string (R134). -/
theorem blockBytes_encodeReading_decodeBlock {o : ByteOrder} {s : Bytes} (hlen : s.length = 16) :
    blockBytes (encodeReading o (decodeBlock o (blockOf s))) = s := by
  rw [encodeReading_decodeBlock, blockBytes_blockOf s hlen]

/-- Settles O27: the two directions are the inverses of one word, column by column. -/
theorem readingCodecIsBijective : Obligations.ReadingCodecIsBijective := by
  intro o
  refine ⟨fun rd => ?_, fun s hlen => ⟨_, decodeReading_of_length_eq hlen,
    blockBytes_encodeReading_decodeBlock hlen⟩⟩
  rw [decodeReading_of_length_eq (blockBytes_length _), blockOf_blockBytes, decodeBlock_encodeReading]

/-! ## PKCS7 -/

theorem pkcs7Unpad_eq_ok_iff (D P : Bytes) :
    pkcs7Unpad D = .ok P ↔
      (1 ≤ (D.getLastD 0).toNat ∧ (D.getLastD 0).toNat ≤ 16 ∧
        D.drop (D.length - (D.getLastD 0).toNat) = List.replicate (D.getLastD 0).toNat (D.getLastD 0)) ∧
      D.take (D.length - (D.getLastD 0).toNat) = P := by
  unfold pkcs7Unpad
  dsimp only
  split
  next hvalid => exact ⟨fun h => ⟨hvalid, Except.ok.inj h⟩, fun h => congrArg _ h.right⟩
  next hinvalid => exact ⟨nofun, fun h => absurd h.left hinvalid⟩

/-- What a successful unpadding removes is the padding of what it gives back (R171). -/
theorem eq_pkcs7Pad_of_pkcs7Unpad_eq_ok {D P : Bytes} (hwhole : D.length % 16 = 0)
    (hok : pkcs7Unpad D = .ok P) : D = pkcs7Pad P := by
  obtain ⟨⟨hmin, hmax, hdrop⟩, htake⟩ := (pkcs7Unpad_eq_ok_iff D P).mp hok
  generalize D.getLastD 0 = last at *
  have hdropLength := congrArg List.length hdrop
  have htakeLength := congrArg List.length htake
  rw [List.length_drop, List.length_replicate] at hdropLength
  rw [List.length_take] at htakeLength
  have hpad : padLength P.length = last.toNat := by
    rw [padLength]
    omega
  calc D = D.take (D.length - last.toNat) ++ D.drop (D.length - last.toNat) :=
        (List.take_append_drop ..).symm
    _ = pkcs7Pad P := by rw [htake, hdrop, pkcs7Pad, hpad, BitVec.ofNat_toNat, BitVec.setWidth_eq]

theorem getLastD_pkcs7Pad (P : Bytes) :
    (pkcs7Pad P).getLastD 0 = BitVec.ofNat 8 (padLength P.length) := by
  have hne : padLength P.length ≠ 0 := Nat.ne_of_gt (one_le_padLength _)
  simp [pkcs7Pad, List.getLastD_eq_getLast?, List.getLast?_append, List.getLast?_replicate, hne]

@[simp] theorem pkcs7Unpad_pkcs7Pad (P : Bytes) : pkcs7Unpad (pkcs7Pad P) = .ok P := by
  have hmin := one_le_padLength P.length
  have hmax := padLength_le P.length
  have hlast : (BitVec.ofNat 8 (padLength P.length)).toNat = padLength P.length := by
    rw [BitVec.toNat_ofNat]
    omega
  have hstart : (pkcs7Pad P).length - padLength P.length = P.length := by
    rw [length_pkcs7Pad, ← add_padLength, Nat.add_sub_cancel]
  rw [pkcs7Unpad_eq_ok_iff, getLastD_pkcs7Pad, hlast, hstart]
  exact ⟨⟨hmin, hmax, List.drop_left ..⟩, List.take_left ..⟩

/-- Settles O31: the two directions above; and where no string's padding is given, the answer is not `ok`,
so it is the one error unpadding has. -/
theorem unpadAcceptsExactlyPadded : Obligations.UnpadAcceptsExactlyPadded := by
  intro D _ hwhole
  refine ⟨fun P => ⟨eq_pkcs7Pad_of_pkcs7Unpad_eq_ok hwhole, ?_⟩, fun hnot => ?_⟩
  · rintro rfl
    exact pkcs7Unpad_pkcs7Pad P
  · cases hres : pkcs7Unpad D with
    | ok P => exact absurd (eq_pkcs7Pad_of_pkcs7Unpad_eq_ok hwhole hres) (hnot P)
    | error e => rw [pkcs7Unpad_error D e hres]

/-! ## CBC -/

@[simp] theorem cbcDecryptBlocks_cbcEncryptBlocks (K c : Block) (xs : List Block) :
    cbcDecryptBlocks K c (cbcEncryptBlocks K c xs) = xs := by
  induction xs generalizing c with
  | nil => rfl
  | cons x xs ih => simp [cbcEncryptBlocks, cbcDecryptBlocks, ih]

/-- R173: on whole blocks CBC decryption gives back what CBC encryption took. -/
theorem cbcDecryptRaw_cbcEncryptRaw (K IV : Block) {X : Bytes} (hwhole : X.length % 16 = 0) :
    cbcDecryptRaw K IV (cbcEncryptRaw K IV X) = X := by
  rw [cbcDecryptRaw, cbcEncryptRaw, toBlocks_ofBlocks, cbcDecryptBlocks_cbcEncryptBlocks,
    ofBlocks_toBlocks X hwhole]

/-- Settles O32. -/
theorem cbcDecryptInvertsEncrypt : Obligations.CbcDecryptInvertsEncrypt :=
  fun K IV _ hwhole _ => cbcDecryptRaw_cbcEncryptRaw K IV hwhole

@[simp] theorem length_encryptString (P : Bytes) (K IV : Block) :
    (encryptString P K IV).length = paddedLength P.length := by
  rw [encryptString, cbcEncryptRaw_length, length_pkcs7Pad, paddedLength]
  omega

/-- R178: the block that the padding of sixteen bytes adds. -/
def fullPadBlock : Block := ⟨⟨16, 16, 16, 16⟩, ⟨16, 16, 16, 16⟩, ⟨16, 16, 16, 16⟩, ⟨16, 16, 16, 16⟩⟩

theorem pkcs7Pad_blockBytes (P : Block) : pkcs7Pad (blockBytes P) = ofBlocks [P, fullPadBlock] := by
  rw [pkcs7Pad, blockBytes_length]
  rfl

theorem length_encryptString_blockBytes (P K IV : Block) : (encryptString (blockBytes P) K IV).length = 32 := by
  simp [paddedLength]

/-- Settles O33: the padded string is the two blocks P and `fullPadBlock`, and CBC chains them. -/
theorem sixteenBytesEncryptToTwoBlocks : Obligations.SixteenBytesEncryptToTwoBlocks := by
  intro K IV P
  refine ⟨_, _, rfl, rfl, ?_, length_encryptString_blockBytes P K IV⟩
  rw [encryptString, pkcs7Pad_blockBytes, cbcEncryptRaw, toBlocks_ofBlocks]
  rfl

theorem decryptString_of_whole_blocks {C : Bytes} (hwhole : C.length % 16 = 0) (hne : C.length ≠ 0)
    (K IV : Block) : decryptString C K IV = pkcs7Unpad (cbcDecryptRaw K IV C) := by
  rw [decryptString, if_neg (not_not.mpr hwhole), if_neg hne]

/-- R180: the ciphertext is a whole number of blocks and not empty, so decryption reaches the unpadding. -/
@[simp] theorem decryptString_encryptString (P : Bytes) (K IV : Block) :
    decryptString (encryptString P K IV) K IV = .ok P := by
  have hlen : (encryptString P K IV).length = 16 * (P.length / 16 + 1) := length_encryptString P K IV
  have hpadded : (pkcs7Pad P).length = 16 * (P.length / 16 + 1) := length_pkcs7Pad P
  rw [decryptString_of_whole_blocks (by omega) (by omega), encryptString,
    cbcDecryptRaw_cbcEncryptRaw K IV (by omega), pkcs7Unpad_pkcs7Pad]

/-! ## Comparing tags -/

theorem foldl_or_zipWith_xor_eq_zero_iff (xs ys : Bytes) (acc : Byte) (hlen : xs.length = ys.length) :
    (List.zipWith (· ^^^ ·) xs ys).foldl (· ||| ·) acc = 0 ↔ acc = 0 ∧ xs = ys := by
  induction xs generalizing ys acc with
  | nil =>
    cases ys with
    | nil => simp
    | cons y ys => cases hlen
  | cons x xs ih =>
    cases ys with
    | nil => cases hlen
    | cons y ys =>
      rw [List.zipWith_cons_cons, List.foldl_cons, ih ys _ (Nat.succ.inj hlen), List.cons.injEq]
      simp [BitVec.or_eq_zero_iff, BitVec.xor_eq_zero_iff, and_assoc]

theorem ctEqual_iff (a b : Block) : ctEqual a b = true ↔ a = b := by
  rw [ctEqual, beq_iff_eq, pairDifference, foldl_or_zipWith_xor_eq_zero_iff (blockBytes a) (blockBytes b) 0 rfl]
  exact ⟨fun h => blockBytes_injective a b h.right, fun h => ⟨rfl, congrArg blockBytes h⟩⟩

theorem verifyTag_iff (K : Block) (M : Bytes) (T : Block) : verifyTag K M T = true ↔ cmac K M = T :=
  ctEqual_iff _ _

theorem verifyTag_eq_false_iff (K : Block) (M : Bytes) (T : Block) : verifyTag K M T = false ↔ cmac K M ≠ T := by
  rw [← Bool.not_eq_true, verifyTag_iff]

/-- Settles O38: the accumulated difference is zero exactly when every pair is equal. -/
theorem ctEqualIsEquality : Obligations.CtEqualIsEquality := ⟨ctEqual_iff, verifyTag_iff⟩

/-! ## CMAC -/

/-- The last block of a message begins after the whole blocks before it (R192). -/
theorem beforeLast_append (Ms : List Block) (last : Bytes) (hlen : last.length ≤ 16)
    (hempty : last = [] → Ms = []) : beforeLast (ofBlocks Ms ++ last).length = (ofBlocks Ms).length := by
  rw [beforeLast, List.length_append, ofBlocks_length]
  by_cases hlast : last = []
  · simp [hlast, hempty hlast]
  · have hpos : 0 < last.length := List.length_pos_iff.mpr hlast
    omega

theorem cmac_append (K : Block) (Ms : List Block) (last : Bytes) (hlen : last.length ≤ 16)
    (hempty : last = [] → Ms = []) :
    cmac K (ofBlocks Ms ++ last) = aesEnc K ((macChain K Ms).xor (lastBlock K last)) := by
  rw [cmac, beforeLast_append Ms last hlen hempty, List.take_left, List.drop_left, toBlocks_ofBlocks]

/-- Settles O39: the message splits before its last part, whose block is complete or padded. -/
theorem cmacIsChainUnderSubkeys : Obligations.CmacIsChainUnderSubkeys := by
  intro K Ms last hlen hempty
  rw [cmac_append K Ms last hlen hempty, lastBlock, List.append_assoc]
  rfl

/-! ## Changed messages -/

theorem cmac_two_blocks (K A B : Block) :
    cmac K (blockBytes A ++ blockBytes B) =
      aesEnc K ((aesEnc K (Block.zero.xor A)).xor (B.xor (subkey1 K))) :=
  cmac_append K [A] (blockBytes B) (Nat.le_refl 16) (fun h => by cases h)

theorem Block.xor_comm (x y : Block) : x.xor y = y.xor x := by
  simp [Block.xor, Col.xor, BitVec.xor_comm]

theorem Block.xor_right_injective {x y z : Block} (heq : z.xor x = z.xor y) : x = y :=
  Block.xor_left_injective x y z (by rw [Block.xor_comm x, Block.xor_comm y, heq])

theorem eq_of_cmac_eq_same_first {K A B B' : Block}
    (heq : cmac K (blockBytes A ++ blockBytes B) = cmac K (blockBytes A ++ blockBytes B')) : B = B' := by
  rw [cmac_two_blocks, cmac_two_blocks] at heq
  exact Block.xor_left_injective _ _ _ (Block.xor_right_injective (aesEnc_injective heq))

theorem eq_of_cmac_eq_same_second {K A A' B : Block}
    (heq : cmac K (blockBytes A ++ blockBytes B) = cmac K (blockBytes A' ++ blockBytes B)) : A = A' := by
  rw [cmac_two_blocks, cmac_two_blocks] at heq
  exact Block.xor_right_injective (aesEnc_injective (Block.xor_left_injective _ _ _ (aesEnc_injective heq)))

/-- A 32-byte string is two blocks. -/
theorem exists_two_blocks {C : Bytes} (hlen : C.length = 32) :
    ∃ A B : Block, C.take 16 = blockBytes A ∧ C.drop 16 = blockBytes B ∧ C = blockBytes A ++ blockBytes B := by
  have hA : blockBytes (blockOf (C.take 16)) = C.take 16 := blockBytes_blockOf _ (by simp [hlen])
  have hB : blockBytes (blockOf (C.drop 16)) = C.drop 16 := blockBytes_blockOf _ (by simp [hlen])
  exact ⟨_, _, hA.symm, hB.symm, by rw [hA, hB, List.take_append_drop]⟩

/-- R199: two 32-byte strings with one block in common have one tag only if they are equal. -/
theorem eq_of_cmac_eq {K : Block} {C C' : Bytes} (hlen : C.length = 32) (hlen' : C'.length = 32)
    (hcommon : C.take 16 = C'.take 16 ∨ C.drop 16 = C'.drop 16) (heq : cmac K C' = cmac K C) : C = C' := by
  obtain ⟨A, B, hA, hB, hC⟩ := exists_two_blocks hlen
  obtain ⟨A', B', hA', hB', hC'⟩ := exists_two_blocks hlen'
  rw [hC, hC'] at heq
  rcases hcommon with htake | hdrop
  · obtain rfl : A = A' := blockBytes_injective _ _ (by rw [← hA, htake, hA'])
    rw [hC, hC', eq_of_cmac_eq_same_first heq]
  · obtain rfl : B = B' := blockBytes_injective _ _ (by rw [← hB, hdrop, hB'])
    rw [hC, hC', eq_of_cmac_eq_same_second heq]

/-- A frame `C ‖ cmac(C)` changed in one block fails the comparison: with the tag changed the ciphertext,
and so its tag, is as it was, and with the ciphertext changed the tag compared with is as it was. -/
theorem verifyTag_of_differInOneBlock {K : Block} {C F' : Bytes} (hlen : C.length = 32)
    (hdiffer : DifferInOneBlock (C ++ blockBytes (cmac K C)) F') :
    verifyTag K (F'.take 32) (blockOf (F'.drop 32)) = false := by
  obtain ⟨_, hlen', hne, hblocks⟩ := hdiffer
  have htake : (C ++ blockBytes (cmac K C)).take 32 = C := List.take_left' hlen
  have hdrop : (C ++ blockBytes (cmac K C)).drop 32 = blockBytes (cmac K C) := List.drop_left' hlen
  have hF' : F' = F'.take 32 ++ F'.drop 32 := (List.take_append_drop ..).symm
  have hTakeLength : (F'.take 32).length = 32 := by simp [hlen']
  rw [verifyTag_eq_false_iff]
  intro htag
  have hcipher : F'.drop 32 = blockBytes (cmac K C) → C.take 16 = (F'.take 32).take 16 ∨
      C.drop 16 = (F'.take 32).drop 16 → False := by
    intro htail hcommon
    rw [htail, blockOf_blockBytes] at htag
    have hsame : C = F'.take 32 := eq_of_cmac_eq hlen hTakeLength hcommon htag
    exact hne (by rw [hF', ← hsame, htail])
  rcases hblocks with hfirst | ⟨hhead, hthird⟩ | hlast
  · have htail : F'.drop 32 = blockBytes (cmac K C) := by
      have h := congrArg (List.drop 16) hfirst
      rw [List.drop_drop, List.drop_drop] at h
      rw [← hdrop]
      exact h.symm
    refine hcipher htail (.inr ?_)
    rw [List.drop_take, ← hfirst, ← htake, List.drop_take, htake]
  · refine hcipher (by rw [← hdrop, hthird]) (.inl ?_)
    rw [List.take_take, ← htake, List.take_take]
    exact hhead
  · have hsame : F'.take 32 = C := by rw [← hlast, htake]
    rw [hsame] at htag
    have htail : F'.drop 32 = blockBytes (cmac K C) := by
      rw [htag, blockBytes_blockOf _ (by simp [hlen'])]
    exact hne (by rw [hF', hsame, htail])

/-- Settles O42. -/
theorem tamperSensitivity : Obligations.TamperSensitivity :=
  ⟨fun _ _ _ hlen hlen' hne hcommon heq => hne (eq_of_cmac_eq hlen hlen' hcommon heq),
   fun _ _ _ hlen hdiffer => verifyTag_of_differInOneBlock hlen hdiffer⟩

end Sys2Proof.Machine
end

section
/-! PROOFS. What commands write (30_encoding.md, rule R120) and how they end (R39, R40, R45, R255). Each
update of the state has its frame said once; a command's frame is the chain of its updates' frames. -/

namespace Sys2Proof.Machine

/-! ## Frames -/

theorem KeepsAllBut.mono {xs ys : List Item} {s t : State} (hkeeps : KeepsAllBut xs s t)
    (hsub : ∀ item ∈ xs, item ∈ ys) : KeepsAllBut ys s t :=
  fun item hunlisted => hkeeps item (mt (hsub item) hunlisted)

theorem inSpans_append (ps qs : List (Buf × Nat)) (a : Nat) :
    inSpans (ps ++ qs) a ↔ inSpans ps a ∨ inSpans qs a := by
  simp only [inSpans, List.mem_append, or_and_right, exists_or]

theorem KeepsBytesBut.trans {ps qs : List (Buf × Nat)} {s t u : State} (hst : KeepsBytesBut ps s t)
    (htu : KeepsBytesBut qs t u) : KeepsBytesBut (ps ++ qs) s u := by
  intro a hunlisted
  rw [inSpans_append, not_or] at hunlisted
  obtain ⟨hps, hqs⟩ := hunlisted
  exact (htu a hqs).trans (hst a hps)

theorem KeepsBytesBut.mono {ps qs : List (Buf × Nat)} {s t : State} (hkeeps : KeepsBytesBut ps s t)
    (hsub : ∀ a, inSpans ps a → inSpans qs a) : KeepsBytesBut qs s t :=
  fun a hunlisted => hkeeps a (mt (hsub a) hunlisted)

/-- A stored string changes the bytes of its own stretch only. -/
theorem keepsBytesBut_of_write {b : Buf} {d : Bytes} {n : Nat} {s t : State}
    (hmem : t.mem = s.mem.writeBytes (bufBase b) d) (hlen : d.length = n) : KeepsBytesBut [(b, n)] s t := by
  intro a hunlisted
  rw [hmem]
  refine Memory.read_writeBytes_outside _ _ _ _ ?_
  by_contra hinside
  exact hunlisted ⟨(b, n), by simp, by simp only; omega, by simp only; omega⟩

theorem KeepsBytesBut.congr_right {ps : List (Buf × Nat)} {s t u : State} (hkeeps : KeepsBytesBut ps s t)
    (hmem : u.mem = t.mem) : KeepsBytesBut ps s u :=
  fun a hunlisted => (congrArg (·.read a) hmem).trans (hkeeps a hunlisted)

/-! ## The frame of each update -/

theorem keepsAllBut_storePlain (d : Bytes) (s : State) : KeepsAllBut [.ptLen] s (s.storePlain d) := by
  intro item hunlisted
  cases item with
  | ptLen => simp at hunlisted
  | errRecord | receiver => exact ⟨rfl, rfl⟩
  | resetCount => exact Memory.writeBytes_epoch ..
  | _ => rfl

theorem keepsAllBut_storeCipher (c : Bytes) (s : State) : KeepsAllBut [.ctLen] s (s.storeCipher c) := by
  intro item hunlisted
  cases item with
  | ctLen => simp at hunlisted
  | errRecord | receiver => exact ⟨rfl, rfl⟩
  | resetCount => exact Memory.writeBytes_epoch ..
  | _ => rfl

theorem keepsAllBut_storeFrame (f : Bytes) (s : State) : KeepsAllBut [.frLen] s (s.storeFrame f) := by
  intro item hunlisted
  cases item with
  | frLen => simp at hunlisted
  | errRecord | receiver => exact ⟨rfl, rfl⟩
  | resetCount => exact Memory.writeBytes_epoch ..
  | _ => rfl

theorem keepsAllBut_storeTag (T : Block) (s : State) : KeepsAllBut [.tag] s (s.storeTag T) := by
  intro item hunlisted
  cases item with
  | tag => simp at hunlisted
  | errRecord | receiver => exact ⟨rfl, rfl⟩
  | _ => rfl

theorem keepsAllBut_storeReading (rd : Quad) (s : State) : KeepsAllBut [.rd] s (s.storeReading rd) := by
  intro item hunlisted
  cases item with
  | rd => simp at hunlisted
  | errRecord | receiver => exact ⟨rfl, rfl⟩
  | _ => rfl

theorem keepsAllBut_setTxValid (b : Bool) (s : State) : KeepsAllBut [.txValid] s (s.setTxValid b) := by
  intro item hunlisted
  cases item with
  | txValid => simp at hunlisted
  | errRecord | receiver => exact ⟨rfl, rfl⟩
  | _ => rfl

theorem keepsAllBut_storeParsed (r : Bytes × Block) (s : State) :
    KeepsAllBut [.ctLen, .tag] s (s.storeParsed r) :=
  ((keepsAllBut_storeCipher r.1 s).trans (keepsAllBut_storeTag r.2 _)).mono (by decide)

theorem keepsAllBut_storeBuilt (f : Bytes) (s : State) : KeepsAllBut [.frLen, .txValid] s (s.storeBuilt f) :=
  ((keepsAllBut_storeFrame f s).trans (keepsAllBut_setTxValid false _)).mono (by decide)

theorem keepsAllBut_storeSent (r : SenderRun) (s : State) :
    KeepsAllBut [.ptLen, .ctLen, .tag, .frLen, .txValid] s (s.storeSent r) :=
  (((((keepsAllBut_storePlain r.plain s).trans (keepsAllBut_storeCipher r.cipher _)).trans
    (keepsAllBut_storeTag r.tag _)).trans (keepsAllBut_storeFrame r.frame _)).trans
    (keepsAllBut_setTxValid true _)).mono (by decide)

theorem keepsAllBut_complete (s : State) : KeepsAllBut ending s s.complete := by
  intro item hunlisted
  cases item with
  | errRecord | done | running => simp [ending] at hunlisted
  | receiver => exact ⟨rfl, rfl⟩
  | _ => rfl

theorem keepsAllBut_rejectFrame (cat : RxReject) (code : ErrCode) (s : State) :
    KeepsAllBut (ending ++ [.receiver]) s (s.rejectFrame cat code) :=
  (keepsAllBut_setReceiver .rejected cat s).trans (keepsAllBut_raiseFail code _)

theorem keepsBytesBut_storeSent {r : SenderRun} {m n k : Nat} (s : State) (hplain : r.plain.length = m)
    (hcipher : r.cipher.length = n) (hframe : r.frame.length = k) :
    KeepsBytesBut [(.pt, m), (.ct, n), (.fr, k)] s (s.storeSent r) :=
  ((keepsBytesBut_of_write (t := s.storePlain r.plain) rfl hplain).trans
    (keepsBytesBut_of_write (t := (s.storePlain r.plain).storeCipher r.cipher) rfl hcipher)).trans
    (keepsBytesBut_of_write rfl hframe)

/-! ## The frame of a RECEIVE's outcome -/

/-- What each outcome of a RECEIVE may change after its acceptance clears (R235). -/
def RxOutcome.changedItems : RxOutcome → List Item
  | .commandError _ => []
  | .tooShort => [.receiver]
  | .tampered _ _ => [.receiver, .ctLen, .tag]
  | .undecryptable _ _ _ => [.receiver, .verifyOk, .ctLen, .tag]
  | .badSize _ _ _ => [.receiver, .verifyOk, .ctLen, .tag, .ptLen]
  | .delivered _ _ _ _ => [.receiver, .verifyOk, .ctLen, .tag, .ptLen, .rd]

/-- The bytes each outcome of a RECEIVE writes (R235). -/
def RxOutcome.changedSpans : RxOutcome → List (Buf × Nat)
  | .commandError _ => []
  | .tooShort => []
  | .tampered c _ => [(.ct, c.length)]
  | .undecryptable c _ _ => [(.ct, c.length)]
  | .badSize c _ d => [(.ct, c.length), (.pt, d.length)]
  | .delivered c _ d _ => [(.ct, c.length), (.pt, d.length)]

theorem keepsAllBut_applyRx (o : RxOutcome) (s : State) :
    KeepsAllBut (ending ++ o.changedItems) s (s.applyRx o) := by
  cases o with
  | commandError e => exact keepsAllBut_raiseFail e s
  | tooShort => exact keepsAllBut_rejectFrame _ _ s
  | tampered c t =>
    exact ((keepsAllBut_storeParsed (c, t) s).trans (keepsAllBut_rejectFrame _ _ _)).mono
      (by simp [RxOutcome.changedItems, ending])
  | undecryptable c t e =>
    exact (((keepsAllBut_storeParsed (c, t) s).trans (keepsAllBut_setVerifyOk true _)).trans
      (keepsAllBut_rejectFrame _ _ _)).mono (by simp [RxOutcome.changedItems, ending])
  | badSize c t d =>
    exact ((((keepsAllBut_storeParsed (c, t) s).trans (keepsAllBut_setVerifyOk true _)).trans
      (keepsAllBut_storePlain d _)).trans (keepsAllBut_rejectFrame _ _ _)).mono
      (by simp [RxOutcome.changedItems, ending])
  | delivered c t d rd =>
    exact ((((((keepsAllBut_storeParsed (c, t) s).trans (keepsAllBut_setVerifyOk true _)).trans
      (keepsAllBut_storePlain d _)).trans (keepsAllBut_storeReading rd _)).trans
      (keepsAllBut_setReceiver .delivered .none _)).trans (keepsAllBut_complete _)).mono
      (by simp [RxOutcome.changedItems, ending])

/-- The memory after the stages that parse a frame and decrypt it. -/
theorem keepsBytesBut_of_parsed_plain {c d : Bytes} {s t : State}
    (hmem : t.mem = (s.mem.writeBytes (bufBase .ct) c).writeBytes (bufBase .pt) d) :
    KeepsBytesBut [(.ct, c.length), (.pt, d.length)] s t :=
  (keepsBytesBut_of_write (t := s.storeCipher c) rfl rfl).trans (keepsBytesBut_of_write hmem rfl)

theorem keepsBytesBut_applyRx (o : RxOutcome) (s : State) :
    KeepsBytesBut o.changedSpans s (s.applyRx o) := by
  cases o with
  | commandError e => exact keepsBytesBut_of_mem_eq rfl
  | tooShort => exact keepsBytesBut_of_mem_eq rfl
  | tampered c t => exact keepsBytesBut_of_write rfl rfl
  | undecryptable c t e => exact keepsBytesBut_of_write rfl rfl
  | badSize c t d => exact keepsBytesBut_of_parsed_plain rfl
  | delivered c t d rd => exact keepsBytesBut_of_parsed_plain rfl

/-! ## What a command's data is -/

theorem encryptResult_eq_ok_iff {cfg : Params} {x : Inputs} {c : Bytes} :
    encryptResult cfg x = .ok c ↔ x.lock = true ∧ x.ptLen.toNat ≤ cfg.bufCap ∧
      paddedLength x.ptLen.toNat ≤ cfg.bufCap ∧ encryptString x.plaintext x.keyBlock x.ivBlock = c := by
  unfold encryptResult
  split_ifs <;> simp_all

theorem decryptResult_eq_ok_iff {cfg : Params} {x : Inputs} {d : Bytes} :
    decryptResult cfg x = .ok d ↔ x.lock = true ∧ x.ctLen.toNat ≤ cfg.bufCap ∧
      decryptString x.ciphertext x.keyBlock x.ivBlock = .ok d := by
  unfold decryptResult
  split_ifs <;> simp_all

theorem tagGenResult_eq_ok_iff {cfg : Params} {x : Inputs} {T : Block} :
    tagGenResult cfg x = .ok T ↔ x.lock = true ∧ x.ctLen.toNat ≤ cfg.bufCap ∧
      cmac x.keyBlock x.ciphertext = T := by
  unfold tagGenResult
  split_ifs <;> simp_all

theorem frameBuildResult_eq_ok_iff {cfg : Params} {x : Inputs} {F : Bytes} :
    frameBuildResult cfg x = .ok F ↔ x.ctLen.toNat + 16 ≤ cfg.bufCap ∧
      buildFrame x.ciphertext x.tagBlock = F := by
  unfold frameBuildResult
  split_ifs
  · simp; omega
  · simp; omega
  · simp; omega

theorem frameParseResult_eq_ok_iff {cfg : Params} {x : Inputs} {r : Bytes × Block} :
    frameParseResult cfg x = .ok r ↔ x.frLen.toNat ≤ cfg.bufCap ∧ parseFrame x.frame = .ok r := by
  unfold frameParseResult
  split_ifs <;> simp_all

theorem sendResult_eq_ok_iff {cfg : Params} {x : Inputs} {r : SenderRun} :
    sendResult cfg x = .ok r ↔ x.lock = true ∧ senderRun cfg x = r := by
  unfold sendResult
  split_ifs <;> simp_all

theorem decodeResult_of_ptLen_eq {cfg : Params} {x : Inputs} (hlen : x.ptLen = 16#32) :
    decodeResult cfg x = .ok (decodeBlock cfg.order (blockOf (x.mem.bufBytes .pt 16))) := by
  rw [decodeResult, if_neg (not_not.mpr hlen), decodeReading_of_length_eq (Memory.bufBytes_length ..)]

theorem decodeResult_of_ptLen_ne {cfg : Params} {x : Inputs} (hlen : x.ptLen ≠ 16#32) :
    decodeResult cfg x = .error .sizeMismatch :=
  if_pos hlen

@[simp] theorem length_ciphertext (x : Inputs) : x.ciphertext.length = x.ctLen.toNat :=
  Memory.bufBytes_length ..

@[simp] theorem length_plaintext (x : Inputs) : x.plaintext.length = x.ptLen.toNat :=
  Memory.bufBytes_length ..

@[simp] theorem length_frame (x : Inputs) : x.frame.length = x.frLen.toNat :=
  Memory.bufBytes_length ..

@[simp] theorem length_senderRun_plain (cfg : Params) (x : Inputs) : (senderRun cfg x).plain.length = 16 := rfl

@[simp] theorem length_senderRun_cipher (cfg : Params) (x : Inputs) : (senderRun cfg x).cipher.length = 32 :=
  length_encryptString_blockBytes ..

@[simp] theorem length_senderRun_frame (cfg : Params) (x : Inputs) : (senderRun cfg x).frame.length = 48 :=
  (length_buildFrame ..).trans (congrArg (· + 16) (length_senderRun_cipher cfg x))

/-! ## What a command's data fits into -/

theorem bufCap_of_wellFormed {cfg : Params} (hwf : cfg.wellFormed = true) :
    cfg.bufCap % 16 = 0 ∧ 48 ≤ cfg.bufCap ∧ cfg.bufCap ≤ 256 := by
  simpa [Params.wellFormed] using hwf

theorem length_le_of_encryptResult_eq_ok {cfg : Params} {x : Inputs} {c : Bytes}
    (hok : encryptResult cfg x = .ok c) : c.length ≤ cfg.bufCap := by
  obtain ⟨-, -, hfits, rfl⟩ := encryptResult_eq_ok_iff.mp hok
  rwa [length_encryptString, length_plaintext]

theorem length_le_of_decryptResult_eq_ok {cfg : Params} {x : Inputs} {d : Bytes}
    (hok : decryptResult cfg x = .ok d) : d.length ≤ cfg.bufCap := by
  obtain ⟨-, hfits, hdec⟩ := decryptResult_eq_ok_iff.mp hok
  have hshorter := decryptString_ok_length _ _ _ _ hdec
  rw [length_ciphertext] at hshorter
  omega

theorem length_le_of_frameBuildResult_eq_ok {cfg : Params} {x : Inputs} {F : Bytes}
    (hok : frameBuildResult cfg x = .ok F) : F.length ≤ cfg.bufCap := by
  obtain ⟨hfits, rfl⟩ := frameBuildResult_eq_ok_iff.mp hok
  rwa [length_buildFrame, length_ciphertext]

theorem length_le_of_frameParseResult_eq_ok {cfg : Params} {x : Inputs} {r : Bytes × Block}
    (hok : frameParseResult cfg x = .ok r) : r.1.length ≤ cfg.bufCap := by
  obtain ⟨hfits, hparse⟩ := frameParseResult_eq_ok_iff.mp hok
  by_cases hshort : x.frame.length < 16
  · rw [parseFrame_of_length_lt hshort] at hparse
    cases hparse
  · rw [parseFrame_of_le_length (Nat.le_of_not_lt hshort)] at hparse
    cases hparse
    rw [List.length_take, length_frame]
    omega

/-- The strings that an outcome of a RECEIVE stores are no longer than `n`. -/
def RxOutcome.fits (n : Nat) : RxOutcome → Prop
  | .commandError _ => True
  | .tooShort => True
  | .tampered c _ => c.length ≤ n
  | .undecryptable c _ _ => c.length ≤ n
  | .badSize c _ d => c.length ≤ n ∧ d.length ≤ n
  | .delivered c _ d _ => c.length ≤ n ∧ d.length ≤ n

theorem rxOutcome_fits (cfg : Params) (x : Inputs) : (rxOutcome cfg x).fits cfg.bufCap := by
  rcases rxOutcome_cases cfg x with ⟨_, ho⟩ | ⟨_, _, ho⟩ | ⟨_, hcap, ⟨_, ho⟩ | ⟨hmin, c, t, hc, _, hrest⟩⟩
  · rw [ho]; trivial
  · rw [ho]; trivial
  · rw [ho]; trivial
  · have hcLength : c.length ≤ cfg.bufCap := by
      rw [hc, List.length_take, length_frame]
      omega
    rcases hrest with ⟨_, ho⟩ | ⟨_, ⟨e, _, ho⟩ | ⟨d, hd, hrest⟩⟩
    · rw [ho]; exact hcLength
    · rw [ho]; exact hcLength
    · have hdLength : d.length ≤ cfg.bufCap := by
        have hshorter := decryptString_ok_length _ _ _ _ hd
        omega
      rcases hrest with ⟨_, ho⟩ | ⟨_, ho⟩ <;> rw [ho] <;> exact ⟨hcLength, hdLength⟩

/-! ## The errors a command can end with -/

theorem encryptResult_error_mem {cfg : Params} {x : Inputs} {e : ErrCode}
    (herr : encryptResult cfg x = .error e) : e ∈ (possibleCodes .encrypt).tail := by
  unfold encryptResult at herr
  split_ifs at herr <;> cases herr <;> decide

theorem decryptResult_error_mem {cfg : Params} {x : Inputs} {e : ErrCode}
    (herr : decryptResult cfg x = .error e) : e ∈ (possibleCodes .decrypt).tail := by
  unfold decryptResult at herr
  split_ifs at herr
  · cases herr; decide
  · cases herr; decide
  · rcases decryptString_error _ _ _ _ herr with ⟨_, rfl⟩ | ⟨_, rfl⟩ <;> decide

theorem tagGenResult_error_mem {cfg : Params} {x : Inputs} {e : ErrCode}
    (herr : tagGenResult cfg x = .error e) : e ∈ (possibleCodes .tagGen).tail := by
  unfold tagGenResult at herr
  split_ifs at herr <;> cases herr <;> decide

theorem tagVerifyResult_error_mem {cfg : Params} {x : Inputs} {e : ErrCode}
    (herr : tagVerifyResult cfg x = .error e) : e ∈ (possibleCodes .tagVerify).tail := by
  unfold tagVerifyResult at herr
  split_ifs at herr <;> cases herr <;> decide

theorem frameBuildResult_error_mem {cfg : Params} {x : Inputs} {e : ErrCode}
    (herr : frameBuildResult cfg x = .error e) : e ∈ (possibleCodes .frameBuild).tail := by
  unfold frameBuildResult at herr
  split_ifs at herr <;> cases herr <;> decide

theorem frameParseResult_error_mem {cfg : Params} {x : Inputs} {e : ErrCode}
    (herr : frameParseResult cfg x = .error e) : e ∈ (possibleCodes .frameParse).tail := by
  unfold frameParseResult parseFrame at herr
  split_ifs at herr <;> cases herr <;> decide

theorem sendResult_error_mem {cfg : Params} {x : Inputs} {e : ErrCode}
    (herr : sendResult cfg x = .error e) : e ∈ (possibleCodes .send).tail := by
  unfold sendResult at herr
  split_ifs at herr
  cases herr
  decide

theorem decodeResult_error_mem {cfg : Params} {x : Inputs} {e : ErrCode}
    (herr : decodeResult cfg x = .error e) : e ∈ (possibleCodes .decode).tail := by
  unfold decodeResult decodeReading at herr
  split_ifs at herr <;> cases herr <;> decide

theorem none_mem_possibleCodes (i : Instr) : .none ∈ possibleCodes i := by
  cases i <;> decide

theorem ne_none_of_mem_tail_possibleCodes {i : Instr} {e : ErrCode} (hmem : e ∈ (possibleCodes i).tail) :
    e ≠ .none := by
  rintro rfl
  cases i <;> revert hmem <;> decide

/-- ERR shows the same as ERRCODE when a command has just ended (R40, R250). -/
theorem errCodeBits_ne_zero_iff (e : ErrCode) : errCodeBits e ≠ 0#4 ↔ e ≠ .none := by
  cases e <;> decide

/-! ## How a command ends -/

theorem exec_encode (s : State) :
    exec .encode s = .next (s.storePlain (blockBytes (encodeReading s.cfg.order s.inputs.rd))).complete := rfl

theorem exec_receive (s : State) :
    exec .receive s = .next (s.clearReceiver.applyRx (rxOutcome s.cfg s.inputs)) := rfl

theorem eq_of_exec_receive {s t : State} (hnext : exec .receive s = .next t) :
    t = s.clearReceiver.applyRx (rxOutcome s.cfg s.inputs) :=
  Host.Outcome.next.inj (hnext.symm.trans (exec_receive s))

theorem endedWell_complete (s : State) : EndedWell s.complete := ⟨rfl, rfl, rfl, rfl⟩

/-- What the end of command `i` leaves in STATUS, EVENTS and the interrupt, from a state with IE `ie`. -/
def EndsRecorded (i : Instr) (ie : Bool) (t : State) : Prop :=
  t.busy = false ∧ t.done = true ∧ t.irq = ie ∧ (t.err = true ↔ errCodeBits t.errCode ≠ 0#4) ∧
    t.errCode ∈ possibleCodes i

theorem endsRecorded_complete {i : Instr} {ie : Bool} {u : State} (hie : u.ie = ie) :
    EndsRecorded i ie u.complete :=
  ⟨rfl, rfl, (Bool.and_true _).trans hie, by simp [errCodeBits], none_mem_possibleCodes i⟩

theorem endsRecorded_raiseFail {i : Instr} {ie : Bool} {e : ErrCode} {u : State}
    (hmem : e ∈ (possibleCodes i).tail) (hie : u.ie = ie) : EndsRecorded i ie (u.raiseFail e) :=
  ⟨rfl, rfl, (Bool.and_true _).trans hie,
   iff_of_true rfl ((errCodeBits_ne_zero_iff e).mpr (ne_none_of_mem_tail_possibleCodes hmem)),
   List.mem_of_mem_tail hmem⟩

theorem endsRecorded_rejectFrame {ie : Bool} {cat : RxReject} {e : ErrCode} {u : State}
    (hmem : e ∈ (possibleCodes .receive).tail) (hie : u.ie = ie) :
    EndsRecorded .receive ie (u.rejectFrame cat e) :=
  endsRecorded_raiseFail hmem ((State.setReceiver_ie ..).trans hie)

theorem endsRecorded_settle {α : Type} {i : Instr} {r : Except ErrCode α} {commit : α → State → State}
    {s : State} (hie : ∀ a, (commit a s).ie = s.ie) (herr : ∀ {e}, r = .error e → e ∈ (possibleCodes i).tail) :
    ∃ t, settle r commit s = .next t ∧ EndsRecorded i s.ie t := by
  rcases settle_cases r commit s with ⟨a, _, hnext⟩ | ⟨e, hr, hnext⟩
  · exact ⟨_, hnext, endsRecorded_complete (hie a)⟩
  · exact ⟨_, hnext, endsRecorded_raiseFail (herr hr) rfl⟩

theorem endsRecorded_tagVerify (s : State) :
    ∃ t, exec .tagVerify s = .next t ∧ EndsRecorded .tagVerify s.ie t := by
  rcases execTagVerify_cases s with ⟨_, hnext⟩ | ⟨_, hnext⟩ | ⟨e, hr, hnext⟩
  · exact ⟨_, hnext, endsRecorded_complete (State.setVerifyOk_ie ..)⟩
  · exact ⟨_, hnext, endsRecorded_raiseFail (by decide) (State.setVerifyOk_ie ..)⟩
  · exact ⟨_, hnext, endsRecorded_raiseFail (tagVerifyResult_error_mem hr) (State.setVerifyOk_ie ..)⟩

/-- An outcome of a RECEIVE names an error of RECEIVE's list. -/
def RxOutcome.codesListed : RxOutcome → Prop
  | .commandError e => e = .keyNotLocked ∨ e = .lengthError
  | .undecryptable c _ e =>
    (c.length % 16 ≠ 0 ∧ e = .blockAlignmentError) ∨ (c.length % 16 = 0 ∧ e = .paddingError)
  | .tooShort => True
  | .tampered _ _ => True
  | .badSize _ _ _ => True
  | .delivered _ _ _ _ => True

theorem rxOutcome_codesListed (cfg : Params) (x : Inputs) : (rxOutcome cfg x).codesListed := by
  rcases rxOutcome_cases cfg x with ⟨_, ho⟩ | ⟨_, _, ho⟩ | ⟨_, _, ⟨_, ho⟩ | ⟨_, c, t, _, _,
    ⟨_, ho⟩ | ⟨_, ⟨e, he, ho⟩ | ⟨d, _, ⟨_, ho⟩ | ⟨_, ho⟩⟩⟩⟩⟩
  · rw [ho]; exact .inl rfl
  · rw [ho]; exact .inr rfl
  · rw [ho]; trivial
  · rw [ho]; trivial
  · rw [ho]; exact decryptString_error _ _ _ _ he
  · rw [ho]; trivial
  · rw [ho]; trivial

theorem endsRecorded_applyRx {o : RxOutcome} (hcodes : o.codesListed) (s : State) :
    EndsRecorded .receive s.ie (s.applyRx o) := by
  cases o with
  | commandError e =>
    refine endsRecorded_raiseFail ?_ rfl
    rcases hcodes with rfl | rfl <;> decide
  | undecryptable c t e =>
    refine endsRecorded_rejectFrame ?_ (by simp)
    rcases hcodes with ⟨_, rfl⟩ | ⟨_, rfl⟩ <;> decide
  | tooShort => exact endsRecorded_rejectFrame (by decide) rfl
  | tampered c t => exact endsRecorded_rejectFrame (by decide) (by simp)
  | badSize c t d => exact endsRecorded_rejectFrame (by decide) (by simp)
  | delivered c t d rd => exact endsRecorded_complete (by simp)

/-- Settles O13, command by command: the end is `complete` or `raiseFail` with a code of the command's list. -/
theorem everyCommandEndsRecorded : Obligations.EveryCommandEndsRecorded := by
  intro i s
  change ∃ t, exec i s = .next t ∧ EndsRecorded i s.ie t
  cases i with
  | encode => exact ⟨_, exec_encode s, endsRecorded_complete (State.storePlain_ie ..)⟩
  | decode => exact endsRecorded_settle (fun _ => State.storeReading_ie ..) decodeResult_error_mem
  | encrypt => exact endsRecorded_settle (fun _ => State.storeCipher_ie ..) encryptResult_error_mem
  | decrypt => exact endsRecorded_settle (fun _ => State.storePlain_ie ..) decryptResult_error_mem
  | tagGen => exact endsRecorded_settle (fun _ => State.storeTag_ie ..) tagGenResult_error_mem
  | tagVerify => exact endsRecorded_tagVerify s
  | frameBuild => exact endsRecorded_settle (fun _ => State.storeBuilt_ie ..) frameBuildResult_error_mem
  | frameParse => exact endsRecorded_settle (fun _ => State.storeParsed_ie ..) frameParseResult_error_mem
  | send => exact endsRecorded_settle (fun _ => State.storeSent_ie ..) sendResult_error_mem
  | receive =>
    exact ⟨_, exec_receive s, endsRecorded_applyRx (rxOutcome_codesListed s.cfg s.inputs) s.clearReceiver⟩

/-! ## What a command leaves alone -/

theorem keepsAllBut_settle {α : Type} {items : List Item} {r : Except ErrCode α} {commit : α → State → State}
    {s t : State} (hnext : settle r commit s = .next t) (hcommit : ∀ a, KeepsAllBut items s (commit a s)) :
    KeepsAllBut (ending ++ items) s t := by
  rcases settle_next hnext with ⟨a, _, rfl⟩ | ⟨e, _, rfl⟩
  · exact (hcommit a).trans (keepsAllBut_complete _)
  · exact (keepsAllBut_raiseFail e s).mono fun _ => List.mem_append_left _

theorem keepsAllBut_execTagVerify {s t : State} (hnext : exec .tagVerify s = .next t) :
    KeepsAllBut (ending ++ [.verifyOk]) s t := by
  rcases execTagVerify_cases s with ⟨_, h⟩ | ⟨_, h⟩ | ⟨e, _, h⟩ <;>
    obtain rfl := Host.Outcome.next.inj (h.symm.trans hnext)
  · exact (keepsAllBut_setVerifyOk true s).trans (keepsAllBut_complete _)
  · exact (keepsAllBut_setVerifyOk false s).trans (keepsAllBut_raiseFail _ _)
  · exact (keepsAllBut_setVerifyOk false s).trans (keepsAllBut_raiseFail _ _)

/-- R120: besides its end a command changes the registers and flags of its list only. -/
theorem keepsAllBut_exec {i : Instr} {s t : State} (hnext : exec i s = .next t) :
    KeepsAllBut (ending ++ writesItems i) s t := by
  cases i with
  | encode =>
    obtain rfl := Host.Outcome.next.inj ((exec_encode s).symm.trans hnext)
    exact (keepsAllBut_storePlain _ s).trans (keepsAllBut_complete _)
  | decode => exact keepsAllBut_settle hnext fun rd => keepsAllBut_storeReading rd s
  | encrypt => exact keepsAllBut_settle hnext fun c => keepsAllBut_storeCipher c s
  | decrypt => exact keepsAllBut_settle hnext fun d => keepsAllBut_storePlain d s
  | tagGen => exact keepsAllBut_settle hnext fun T => keepsAllBut_storeTag T s
  | tagVerify => exact keepsAllBut_execTagVerify hnext
  | frameBuild => exact keepsAllBut_settle hnext fun F => keepsAllBut_storeBuilt F s
  | frameParse => exact keepsAllBut_settle hnext fun r => keepsAllBut_storeParsed r s
  | send => exact keepsAllBut_settle hnext fun r => keepsAllBut_storeSent r s
  | receive =>
    obtain rfl := eq_of_exec_receive hnext
    refine ((keepsAllBut_clearReceiver s).trans (keepsAllBut_applyRx _ _)).mono ?_
    cases rxOutcome s.cfg s.inputs <;> simp [RxOutcome.changedItems, writesItems, ending]

theorem eq_raiseFail_of_settle {α : Type} {r : Except ErrCode α} {commit : α → State → State} {s t : State}
    (hnext : settle r commit s = .next t) (herr : t.err = true) : ∃ code, t = s.raiseFail code := by
  rcases settle_next hnext with ⟨a, _, rfl⟩ | ⟨e, _, rfl⟩
  · cases herr
  · exact ⟨e, rfl⟩

/-- R255: a command other than RECEIVE that fails makes its acceptance clears and its end, and nothing else. -/
theorem eq_raiseFail_of_failed {i : Instr} {s t : State} (hnext : exec i s = .next t) (herr : t.err = true)
    (hreceive : i ≠ .receive) : ∃ code, t = (s.acceptClears i).raiseFail code := by
  cases i with
  | receive => exact absurd rfl hreceive
  | encode =>
    obtain rfl := Host.Outcome.next.inj ((exec_encode s).symm.trans hnext)
    cases herr
  | tagVerify =>
    rcases execTagVerify_cases s with ⟨_, h⟩ | ⟨_, h⟩ | ⟨e, _, h⟩ <;>
      obtain rfl := Host.Outcome.next.inj (h.symm.trans hnext)
    · cases herr
    · exact ⟨_, rfl⟩
    · exact ⟨_, rfl⟩
  | decode | encrypt | decrypt | tagGen | frameBuild | frameParse | send =>
    exact eq_raiseFail_of_settle hnext herr

theorem rd_of_failed {i : Instr} {s t : State} (hnext : exec i s = .next t) (herr : t.err = true) :
    t.rd = s.rd := by
  by_cases hreceive : i = .receive
  · subst hreceive
    obtain rfl := eq_of_exec_receive hnext
    cases ho : rxOutcome s.cfg s.inputs with
    | delivered c t d rd =>
      rw [ho] at herr
      cases herr
    | _ => simp [State.applyRx]
  · obtain ⟨code, rfl⟩ := eq_raiseFail_of_failed hnext herr hreceive
    simp

/-! ## What a command stores in the buffers -/

/-- `m'` is `m` with strings of at most `cap` bytes stored at the starts of the listed buffers. -/
inductive StoresWithin (cap : Nat) (bufs : List Buf) (m : Memory) : Memory → Prop where
  | refl : StoresWithin cap bufs m m
  | store {b : Buf} {d : Bytes} {m' : Memory} (hprev : StoresWithin cap bufs m m') (hbuf : b ∈ bufs)
      (hlen : d.length ≤ cap) : StoresWithin cap bufs m (m'.writeBytes (bufBase b) d)

theorem StoresWithin.keepsBytesBut {cap : Nat} {bufs : List Buf} {s t : State}
    (hstores : StoresWithin cap bufs s.mem t.mem) : KeepsBytesBut (bufs.map fun b => (b, cap)) s t := by
  intro a hunlisted
  generalize t.mem = m at hstores ⊢
  induction hstores with
  | refl => rfl
  | @store b d m' _ hbuf hlen ih =>
    rw [Memory.read_writeBytes_outside _ _ _ _ ?_, ih]
    by_contra hinside
    exact hunlisted ⟨(b, cap), List.mem_map.mpr ⟨b, hbuf, rfl⟩, by simp only; omega, by simp only; omega⟩

theorem storesWithin_settle {α : Type} {cap : Nat} {bufs : List Buf} {r : Except ErrCode α}
    {commit : α → State → State} {s t : State} (hnext : settle r commit s = .next t)
    (hcommit : ∀ a, r = .ok a → StoresWithin cap bufs s.mem (commit a s).mem) :
    StoresWithin cap bufs s.mem t.mem := by
  rcases settle_next hnext with ⟨a, hr, rfl⟩ | ⟨e, _, rfl⟩
  · exact hcommit a hr
  · exact .refl

theorem storesWithin_applyRx {cap : Nat} {o : RxOutcome} (hfits : o.fits cap) (s : State) :
    StoresWithin cap (writesBufs .receive) s.mem (s.applyRx o).mem := by
  cases o with
  | commandError e => exact .refl
  | tooShort => exact .refl
  | tampered c t => exact .store .refl (by decide) hfits
  | undecryptable c t e => exact .store .refl (by decide) hfits
  | badSize c t d => exact .store (.store .refl (by decide) hfits.left) (by decide) hfits.right
  | delivered c t d rd => exact .store (.store .refl (by decide) hfits.left) (by decide) hfits.right

theorem storesWithin_storeSent {cap : Nat} {r : SenderRun} (hplain : r.plain.length ≤ cap)
    (hcipher : r.cipher.length ≤ cap) (hframe : r.frame.length ≤ cap) (s : State) :
    StoresWithin cap (writesBufs .send) s.mem (s.storeSent r).mem :=
  .store (.store (.store .refl (by decide) hplain) (by decide) hcipher) (by decide) hframe

/-- R120: a command stores strings that fit at the starts of the buffers of its list. -/
theorem storesWithin_exec {i : Instr} {s t : State} (hwf : s.cfg.wellFormed = true)
    (hnext : exec i s = .next t) : StoresWithin s.cfg.bufCap (writesBufs i) s.mem t.mem := by
  obtain ⟨-, hcap, -⟩ := bufCap_of_wellFormed hwf
  cases i with
  | encode =>
    obtain rfl := Host.Outcome.next.inj ((exec_encode s).symm.trans hnext)
    exact .store .refl (by decide) ((blockBytes_length _).trans_le (by omega))
  | decode => exact storesWithin_settle hnext fun _ _ => .refl
  | encrypt =>
    exact storesWithin_settle hnext fun _ hok =>
      .store .refl (by decide) (length_le_of_encryptResult_eq_ok hok)
  | decrypt =>
    exact storesWithin_settle hnext fun _ hok =>
      .store .refl (by decide) (length_le_of_decryptResult_eq_ok hok)
  | tagGen => exact storesWithin_settle hnext fun _ _ => .refl
  | tagVerify =>
    rcases execTagVerify_cases s with ⟨_, h⟩ | ⟨_, h⟩ | ⟨e, _, h⟩ <;>
      obtain rfl := Host.Outcome.next.inj (h.symm.trans hnext) <;> exact .refl
  | frameBuild =>
    exact storesWithin_settle hnext fun _ hok =>
      .store .refl (by decide) (length_le_of_frameBuildResult_eq_ok hok)
  | frameParse =>
    exact storesWithin_settle hnext fun _ hok =>
      .store .refl (by decide) (length_le_of_frameParseResult_eq_ok hok)
  | send =>
    refine storesWithin_settle hnext fun r hok => ?_
    obtain ⟨-, rfl⟩ := sendResult_eq_ok_iff.mp hok
    exact storesWithin_storeSent (by rw [length_senderRun_plain]; omega)
      (by rw [length_senderRun_cipher]; omega) (by rw [length_senderRun_frame]; exact hcap) s
  | receive =>
    obtain rfl := eq_of_exec_receive hnext
    exact storesWithin_applyRx (rxOutcome_fits s.cfg s.inputs) s.clearReceiver

/-- Settles O14: the registers by `keepsAllBut_exec`, the bytes by `storesWithin_exec`, and of a failure by
`eq_raiseFail_of_failed`. -/
theorem commandsWriteOnlyTheirList : Obligations.CommandsWriteOnlyTheirList := by
  intro i s t hwf hnext
  refine ⟨keepsAllBut_exec hnext, (storesWithin_exec hwf hnext).keepsBytesBut, fun herr hreceive => ?_,
    rd_of_failed hnext⟩
  obtain ⟨code, rfl⟩ := eq_raiseFail_of_failed hnext herr hreceive
  exact ⟨(keepsAllBut_acceptClears_raiseFail i code s).mono (by simp [clearedItems, hreceive]),
    keepsBytesBut_acceptClears_raiseFail i code s⟩

end Sys2Proof.Machine
end

section
/-! PROOFS. What each command but RECEIVE computes and stores (R132, R133, R176, R177, R195, R196, R212,
R213, R221). -/

namespace Sys2Proof.Machine

/-! ## Reading back what was stored -/

theorem Memory.bufBytes_writeBytes_same {b : Buf} {d : Bytes} {n : Nat} (m : Memory) (hlen : d.length = n) :
    (m.writeBytes (bufBase b) d).bufBytes b n = d := by
  subst hlen
  exact Memory.readBytes_writeBytes_same ..

/-- The buffers stand 256 bytes apart, so strings that fit do not meet. -/
theorem Memory.bufBytes_writeBytes_other {b b' : Buf} {d : Bytes} {n : Nat} (m : Memory) (hne : b ≠ b')
    (hn : n ≤ 256) (hd : d.length ≤ 256) : (m.writeBytes (bufBase b') d).bufBytes b n = m.bufBytes b n := by
  refine Memory.readBytes_writeBytes_outside _ _ _ _ _ ?_
  cases b <;> cases b' <;> simp only [bufBase, ne_eq, not_true_eq_false] at hne ⊢ <;> omega

theorem inputs_of_idle {s : State} (hidle : s.pending = none) : s.inputs = s.liveInputs := by
  simp only [State.inputs, hidle]

/-! ## The Reading codec -/

/-- Settles O25: ENCODE stores the encoded Reading and completes. -/
theorem encodeSerialisesReading : Obligations.EncodeSerialisesReading := by
  intro s
  refine ⟨_, exec_encode s, endedWell_complete _, ?_, rfl,
    (keepsAllBut_storePlain _ s).trans (keepsAllBut_complete _),
    (keepsBytesBut_of_write rfl (blockBytes_length _)).congr_right rfl⟩
  rw [State.complete_mem, State.storePlain_mem, Memory.bufBytes_writeBytes_same _ (blockBytes_length _)]
  cases s.cfg.order <;> rfl

/-- Settles O26. -/
theorem decodeDeserialisesReading : Obligations.DecodeDeserialisesReading := by
  intro s
  refine ⟨fun hlen => ?_, fun hlen =>
    ⟨_, settle_of_error (decodeResult_of_ptLen_ne hlen) .., failsCleanly_raiseFail _ s⟩⟩
  refine ⟨_, settle_of_ok (decodeResult_of_ptLen_eq hlen) .., endedWell_complete _, ?_,
    (keepsAllBut_storeReading _ s).trans (keepsAllBut_complete _), keepsBytesBut_of_mem_eq rfl⟩
  rintro o rfl
  exact blockBytes_encodeReading_decodeBlock (Memory.bufBytes_length ..)

/-! ## ENCRYPT and DECRYPT -/

theorem execEncrypt_of_fits {s : State} (hlock : s.inputs.lock = true)
    (hinput : s.inputs.ptLen.toNat ≤ s.cfg.bufCap) (hpadded : paddedLength s.inputs.ptLen.toNat ≤ s.cfg.bufCap) :
    exec .encrypt s = .next
      (s.storeCipher (encryptString s.inputs.plaintext s.inputs.keyBlock s.inputs.ivBlock)).complete :=
  settle_of_ok (encryptResult_eq_ok_iff.mpr ⟨hlock, hinput, hpadded, rfl⟩) ..

theorem execDecrypt_of_ok {s : State} {P : Bytes} (hlock : s.inputs.lock = true)
    (hinput : s.inputs.ctLen.toNat ≤ s.cfg.bufCap)
    (hok : decryptString s.inputs.ciphertext s.inputs.keyBlock s.inputs.ivBlock = .ok P) :
    exec .decrypt s = .next (s.storePlain P).complete :=
  settle_of_ok (decryptResult_eq_ok_iff.mpr ⟨hlock, hinput, hok⟩) ..

theorem execDecrypt_of_error {s : State} {e : ErrCode} (hlock : s.inputs.lock = true)
    (hinput : s.inputs.ctLen.toNat ≤ s.cfg.bufCap)
    (herr : decryptString s.inputs.ciphertext s.inputs.keyBlock s.inputs.ivBlock = .error e) :
    exec .decrypt s = .next (s.raiseFail e) := by
  refine settle_of_error (r := decryptResult s.cfg s.inputs) ?_ ..
  simp [decryptResult, hlock, Nat.not_lt.mpr hinput, herr]

/-- Settles O35. -/
theorem encryptWritesCiphertext : Obligations.EncryptWritesCiphertext := by
  rintro s L n hlock rfl hinput rfl hpadded -
  have hlen : (encryptString s.inputs.plaintext s.inputs.keyBlock s.inputs.ivBlock).length =
      16 * (s.inputs.ptLen.toNat / 16 + 1) := by
    rw [length_encryptString, length_plaintext, paddedLength]
  exact ⟨_, execEncrypt_of_fits hlock hinput hpadded, endedWell_complete _,
    Memory.bufBytes_writeBytes_same _ hlen, congrArg lenWord hlen,
    (keepsAllBut_storeCipher _ s).trans (keepsAllBut_complete _),
    (keepsBytesBut_of_write rfl hlen).congr_right rfl⟩

/-- Settles O36: unpadding gives back the string whose padding the ciphertext decrypts to. -/
theorem decryptWritesPlaintext : Obligations.DecryptWritesPlaintext := by
  rintro s L P hlock rfl hinput hwhole hne hcbc
  have hok : decryptString s.inputs.ciphertext s.inputs.keyBlock s.inputs.ivBlock = .ok P := by
    rw [decryptString_of_whole_blocks (by rwa [length_ciphertext]) (by rwa [length_ciphertext])]
    exact (congrArg pkcs7Unpad hcbc).trans (pkcs7Unpad_pkcs7Pad P)
  exact ⟨_, execDecrypt_of_ok hlock hinput hok, endedWell_complete _,
    Memory.bufBytes_writeBytes_same _ rfl, rfl,
    (keepsAllBut_storePlain _ s).trans (keepsAllBut_complete _),
    (keepsBytesBut_of_write rfl rfl).congr_right rfl⟩

/-- A string of whole blocks that decrypts to the padding of none does not unpad. -/
theorem decryptString_eq_paddingError {C : Bytes} {K IV : Block} (hwhole : C.length % 16 = 0)
    (hne : C.length ≠ 0) (hnot : ∀ P, cbcDecryptRaw K IV C ≠ pkcs7Pad P) :
    decryptString C K IV = .error .paddingError := by
  have hlen : (cbcDecryptRaw K IV C).length = 16 * (C.length / 16) := cbcDecryptRaw_length K IV C
  have hnonempty : cbcDecryptRaw K IV C ≠ [] := List.ne_nil_of_length_pos (by omega)
  rw [decryptString_of_whole_blocks hwhole hne]
  exact (unpadAcceptsExactlyPadded _ hnonempty (by omega)).right hnot

/-- Settles O37: the three errors of decryption in their order, each a clean failure. -/
theorem decryptDataErrors : Obligations.DecryptDataErrors := by
  rintro s L hlock rfl hinput
  have hlen : s.inputs.ciphertext.length = s.inputs.ctLen.toNat := length_ciphertext _
  refine ⟨fun hpartial => ⟨_, execDecrypt_of_error hlock hinput ?_, failsCleanly_raiseFail _ s⟩,
    fun hempty => ⟨_, execDecrypt_of_error hlock hinput ?_, failsCleanly_raiseFail _ s⟩,
    fun hwhole hne hnot => ⟨_, execDecrypt_of_error hlock hinput
      (decryptString_eq_paddingError (by rwa [hlen]) (by rwa [hlen]) hnot), failsCleanly_raiseFail _ s⟩⟩
  · rw [decryptString, hlen, if_pos hpartial]
  · rw [decryptString, hlen, hempty]
    rfl

theorem paddedLength_le_of_lt {cfg : Params} (hwf : cfg.wellFormed = true) {n : Nat} (hn : n ≤ cfg.bufCap - 1) :
    paddedLength n ≤ cfg.bufCap := by
  obtain ⟨hwhole, hmin, -⟩ := bufCap_of_wellFormed hwf
  rw [paddedLength]
  omega

theorem execEncrypt_of_live {u : State} {P C : Bytes} (hidle : u.pending = none) (hlock : u.lock = true)
    (hread : u.liveInputs.plaintext = P) (hfits : paddedLength P.length ≤ u.cfg.bufCap)
    (hC : encryptString P (quadBlock u.key) (quadBlock u.iv) = C) :
    exec .encrypt u = .next (u.storeCipher C).complete := by
  subst hread hC
  rw [length_plaintext] at hfits
  rw [← inputs_of_idle hidle] at hfits ⊢
  have hinput : u.inputs.ptLen.toNat ≤ paddedLength u.inputs.ptLen.toNat := by rw [paddedLength]; omega
  rw [execEncrypt_of_fits (by rw [inputs_of_idle hidle]; exact hlock) (hinput.trans hfits) hfits,
    inputs_of_idle hidle]
  rfl

theorem execDecrypt_of_live {u : State} {C P : Bytes} (hidle : u.pending = none) (hlock : u.lock = true)
    (hread : u.liveInputs.ciphertext = C) (hfits : C.length ≤ u.cfg.bufCap)
    (hok : decryptString C (quadBlock u.key) (quadBlock u.iv) = .ok P) :
    exec .decrypt u = .next (u.storePlain P).complete := by
  subst hread
  rw [length_ciphertext] at hfits
  rw [← inputs_of_idle hidle] at hfits hok
  refine execDecrypt_of_ok (by rw [inputs_of_idle hidle]; exact hlock) hfits ?_
  rw [← hok, inputs_of_idle hidle]
  rfl

/-- What a stage that stored a plaintext leaves for the next. -/
theorem plaintext_liveInputs_storePlain {P : Bytes} (s : State) (hlen : P.length ≤ 256) :
    (s.storePlain P).complete.liveInputs.plaintext = P := by
  refine Memory.bufBytes_writeBytes_same s.mem ?_
  exact (lenWord_toNat _ (by omega)).symm

/-- What a stage that stored a ciphertext leaves for the next. -/
theorem ciphertext_liveInputs_storeCipher {C : Bytes} (s : State) (hlen : C.length ≤ 256) :
    (s.storeCipher C).complete.liveInputs.ciphertext = C := by
  refine Memory.bufBytes_writeBytes_same s.mem ?_
  exact (lenWord_toNat _ (by omega)).symm

/-- Settles O34: on strings by `decryptString_encryptString`; and the ciphertext ENCRYPT stored is what
DECRYPT reads, under the same KEY and IV. -/
theorem decryptInvertsEncrypt : Obligations.DecryptInvertsEncrypt := by
  refine ⟨decryptString_encryptString, fun s hidle hlock hwf hlen => ?_⟩
  obtain ⟨-, hcapMin, hcapMax⟩ := bufCap_of_wellFormed hwf
  have hpadded : paddedLength s.ptLen.toNat ≤ s.cfg.bufCap := paddedLength_le_of_lt hwf hlen
  generalize hP : s.liveInputs.plaintext = P
  generalize hC : encryptString P (quadBlock s.key) (quadBlock s.iv) = C
  have hPlen : P.length = s.ptLen.toNat := by rw [← hP]; exact length_plaintext _
  have hClen : C.length = paddedLength s.ptLen.toNat := by rw [← hC, length_encryptString, hPlen]
  have henc := execEncrypt_of_live hidle hlock hP (by rwa [hPlen]) hC
  have hdec : exec .decrypt (s.storeCipher C).complete = .next ((s.storeCipher C).complete.storePlain P).complete :=
    execDecrypt_of_live rfl hlock (ciphertext_liveInputs_storeCipher s (by omega)) (hClen.trans_le hpadded)
      (by rw [← hC]; exact decryptString_encryptString ..)
  have hptLen : lenWord P.length = s.ptLen := by rw [hPlen, lenWord, BitVec.ofNat_toNat, BitVec.setWidth_eq]
  exact ⟨_, _, henc, endedWell_complete _, hdec, endedWell_complete _, hptLen,
    (Memory.bufBytes_writeBytes_same _ hPlen).trans hP.symm⟩

/-! ## TAG_GEN and TAG_VERIFY -/

theorem execTagGen_of_fits {s : State} (hlock : s.inputs.lock = true)
    (hinput : s.inputs.ctLen.toNat ≤ s.cfg.bufCap) :
    exec .tagGen s = .next (s.storeTag (cmac s.inputs.keyBlock s.inputs.ciphertext)).complete :=
  settle_of_ok (tagGenResult_eq_ok_iff.mpr ⟨hlock, hinput, rfl⟩) ..

theorem execTagGen_of_live {u : State} {C : Bytes} {T : Block} (hidle : u.pending = none)
    (hlock : u.lock = true) (hread : u.liveInputs.ciphertext = C) (hfits : C.length ≤ u.cfg.bufCap)
    (hT : cmac (quadBlock u.key) C = T) : exec .tagGen u = .next (u.storeTag T).complete := by
  subst hread hT
  rw [length_ciphertext, ← inputs_of_idle hidle] at hfits
  rw [execTagGen_of_fits (by rw [inputs_of_idle hidle]; exact hlock) hfits, inputs_of_idle hidle]
  rfl

/-- Settles O40. -/
theorem tagGenWritesTag : Obligations.TagGenWritesTag := by
  rintro s L hlock rfl hinput
  exact ⟨_, execTagGen_of_fits hlock hinput, endedWell_complete _, quadBlock_blockQuad _,
    (keepsAllBut_storeTag _ s).trans (keepsAllBut_complete _), keepsBytesBut_of_mem_eq rfl⟩

theorem tagVerifyResult_of_fits {cfg : Params} {x : Inputs} (hlock : x.lock = true)
    (hinput : x.ctLen.toNat ≤ cfg.bufCap) :
    tagVerifyResult cfg x = .ok (verifyTag x.keyBlock x.ciphertext x.tagBlock) := by
  simp [tagVerifyResult, hlock, Nat.not_lt.mpr hinput]

/-- Settles O41: the comparison's result is whether the tags are equal (`verifyTag_iff`). -/
theorem tagVerifyComparesTags : Obligations.TagVerifyComparesTags := by
  rintro s L hlock rfl hinput
  have hres := tagVerifyResult_of_fits hlock hinput
  have hiff : verifyTag s.inputs.keyBlock s.inputs.ciphertext s.inputs.tagBlock = true ↔
      cmac (quadBlock s.inputs.key) (s.inputs.mem.bufBytes .ct s.inputs.ctLen.toNat) = quadBlock s.inputs.tag :=
    verifyTag_iff ..
  rcases execTagVerify_cases s with ⟨htrue, hnext⟩ | ⟨hfalse, hnext⟩ | ⟨e, herr, -⟩
  · have hequal := hiff.mp (Except.ok.inj (hres.symm.trans htrue))
    refine ⟨_, hnext, ?_, (keepsAllBut_setVerifyOk true s).trans (keepsAllBut_complete _),
      keepsBytesBut_of_mem_eq rfl⟩
    rw [if_pos hequal]
    exact ⟨endedWell_complete _, rfl⟩
  · have hdiffer := mt hiff.mpr (Bool.not_eq_true _ ▸ Except.ok.inj (hres.symm.trans hfalse))
    refine ⟨_, hnext, ?_, (keepsAllBut_setVerifyOk false s).trans (keepsAllBut_raiseFail _ _),
      keepsBytesBut_of_mem_eq rfl⟩
    rw [if_neg hdiffer]
    exact ⟨endedWith_raiseFail _ _, rfl⟩
  · cases hres.symm.trans herr

/-! ## FRAME_BUILD and FRAME_PARSE -/

theorem execFrameBuild_of_fits {s : State} (hfits : s.inputs.ctLen.toNat + 16 ≤ s.cfg.bufCap) :
    exec .frameBuild s = .next (s.storeBuilt (buildFrame s.inputs.ciphertext s.inputs.tagBlock)).complete :=
  settle_of_ok (frameBuildResult_eq_ok_iff.mpr ⟨hfits, rfl⟩) ..

theorem execFrameBuild_of_live {u : State} {C : Bytes} {T : Block} (hidle : u.pending = none)
    (hread : u.liveInputs.ciphertext = C) (htag : quadBlock u.tag = T) (hfits : C.length + 16 ≤ u.cfg.bufCap) :
    exec .frameBuild u = .next (u.storeBuilt (buildFrame C T)).complete := by
  subst hread htag
  rw [length_ciphertext, ← inputs_of_idle hidle] at hfits
  rw [execFrameBuild_of_fits hfits, inputs_of_idle hidle]
  rfl

/-- Settles O44. -/
theorem frameBuildConcatenates : Obligations.FrameBuildConcatenates := by
  rintro s L rfl hfits -
  have hlen : (buildFrame s.inputs.ciphertext s.inputs.tagBlock).length = s.inputs.ctLen.toNat + 16 := by
    rw [length_buildFrame, length_ciphertext]
  exact ⟨_, execFrameBuild_of_fits hfits, endedWell_complete _, Memory.bufBytes_writeBytes_same _ hlen,
    congrArg lenWord hlen, rfl, (keepsAllBut_storeBuilt _ s).trans (keepsAllBut_complete _),
    (keepsBytesBut_of_write rfl hlen).congr_right rfl⟩

/-- Settles O45: parsing splits the frame sixteen bytes before its end. -/
theorem frameParseSplits : Obligations.FrameParseSplits := by
  rintro s L rfl hfits
  have hframe : s.inputs.frame.length = s.inputs.frLen.toNat := length_frame _
  refine ⟨fun hmin => ?_, fun hshort => ?_⟩
  · rw [← hframe] at hmin
    have hlen : (s.inputs.frame.take (s.inputs.frame.length - 16)).length = s.inputs.frLen.toNat - 16 := by
      rw [List.length_take, hframe]
      omega
    refine ⟨_, settle_of_ok (frameParseResult_eq_ok_iff.mpr ⟨hfits, parseFrame_of_le_length hmin⟩) ..,
      endedWell_complete _, ?_, congrArg lenWord hlen,
      (keepsAllBut_storeParsed _ s).trans (keepsAllBut_complete _),
      (keepsBytesBut_of_write rfl hlen).congr_right rfl⟩
    rw [State.complete_mem, State.storeParsed_mem, Memory.bufBytes_writeBytes_same _ hlen, State.complete_tag,
      State.storeParsed_tag, quadBlock_blockQuad, blockBytes_blockOf_drop_length_sub hmin,
      List.take_append_drop]
    rfl
  · refine ⟨_, settle_of_error (r := frameParseResult s.cfg s.inputs) (e := .frameTooShort) ?_ ..,
      failsCleanly_raiseFail _ s⟩
    rw [frameParseResult, if_neg (Nat.not_lt.mpr hfits), parseFrame_of_length_lt (by rwa [hframe])]

/-! ## SEND -/

theorem senderRun_plain (cfg : Params) (x : Inputs) :
    (senderRun cfg x).plain = blockBytes (encodeReading cfg.order x.rd) := rfl

theorem senderRun_cipher (cfg : Params) (x : Inputs) :
    (senderRun cfg x).cipher =
      encryptString (blockBytes (encodeReading cfg.order x.rd)) (quadBlock x.key) (quadBlock x.iv) := rfl

theorem senderRun_tag (cfg : Params) (x : Inputs) :
    (senderRun cfg x).tag = cmac (quadBlock x.key) (senderRun cfg x).cipher := rfl

theorem senderRun_frame (cfg : Params) (x : Inputs) :
    (senderRun cfg x).frame = (senderRun cfg x).cipher ++ blockBytes (senderRun cfg x).tag := rfl

theorem execSend_of_locked {s : State} (hlock : s.inputs.lock = true) :
    exec .send s = .next (s.storeSent (senderRun s.cfg s.inputs)).complete :=
  settle_of_ok (sendResult_eq_ok_iff.mpr ⟨hlock, rfl⟩) ..

/-- The three buffers after a SEND. -/
theorem bufBytes_storeSent {r : SenderRun} (s : State) (hplain : r.plain.length = 16)
    (hcipher : r.cipher.length = 32) (hframe : r.frame.length = 48) :
    (s.storeSent r).mem.bufBytes .pt 16 = r.plain ∧ (s.storeSent r).mem.bufBytes .ct 32 = r.cipher ∧
      (s.storeSent r).mem.bufBytes .fr 48 = r.frame := by
  rw [State.storeSent_mem]
  refine ⟨?_, ?_, Memory.bufBytes_writeBytes_same _ hframe⟩
  · rw [Memory.bufBytes_writeBytes_other _ (by decide) (by decide) (by omega),
      Memory.bufBytes_writeBytes_other _ (by decide) (by decide) (by omega),
      Memory.bufBytes_writeBytes_same _ hplain]
  · rw [Memory.bufBytes_writeBytes_other _ (by decide) (by decide) (by omega),
      Memory.bufBytes_writeBytes_same _ hcipher]

theorem lengths_storeSent {r : SenderRun} (s : State) (hplain : r.plain.length = 16)
    (hcipher : r.cipher.length = 32) (hframe : r.frame.length = 48) :
    (s.storeSent r).ptLen = 16#32 ∧ (s.storeSent r).ctLen = 32#32 ∧ (s.storeSent r).frLen = 48#32 := by
  simp [hplain, hcipher, hframe, lenWord]

theorem quadBlock_tag_storeSent (r : SenderRun) (s : State) : quadBlock (s.storeSent r).tag = r.tag := by
  simp

/-- What a locked SEND leaves, in terms of its run. -/
theorem execSend_writes {s : State} (hlock : s.inputs.lock = true) {r : SenderRun}
    (hrun : senderRun s.cfg s.inputs = r) :
    ∃ t, exec .send s = .next t ∧ EndedWell t ∧
      t.mem.bufBytes .pt 16 = r.plain ∧ t.ptLen = 16#32 ∧
      t.mem.bufBytes .ct 32 = r.cipher ∧ t.ctLen = 32#32 ∧ quadBlock t.tag = r.tag ∧
      t.mem.bufBytes .fr 48 = r.frame ∧ t.frLen = 48#32 ∧ t.txValid = true ∧
      KeepsAllBut (ending ++ [.ptLen, .ctLen, .tag, .frLen, .txValid]) s t ∧
      KeepsBytesBut [(.pt, 16), (.ct, 32), (.fr, 48)] s t := by
  have hplain : r.plain.length = 16 := hrun ▸ length_senderRun_plain s.cfg s.inputs
  have hcipher : r.cipher.length = 32 := hrun ▸ length_senderRun_cipher s.cfg s.inputs
  have hframe : r.frame.length = 48 := hrun ▸ length_senderRun_frame s.cfg s.inputs
  have hnext : exec .send s = .next (s.storeSent r).complete := hrun ▸ execSend_of_locked hlock
  obtain ⟨hpt, hct, hfr⟩ := bufBytes_storeSent s hplain hcipher hframe
  obtain ⟨hptLen, hctLen, hfrLen⟩ := lengths_storeSent s hplain hcipher hframe
  exact ⟨_, hnext, endedWell_complete _, hpt, hptLen, hct, hctLen, quadBlock_tag_storeSent r s, hfr, hfrLen,
    State.storeSent_txValid s r, (keepsAllBut_storeSent r s).trans (keepsAllBut_complete _),
    (keepsBytesBut_storeSent s hplain hcipher hframe).congr_right (State.complete_mem _)⟩

/-- Settles O46: SEND stores its four stages in one transition; without LOCK it fails cleanly. -/
theorem sendBuildsFrame : Obligations.SendBuildsFrame := by
  intro s P C T _ hP hC hT
  refine ⟨fun hlock => ?_, fun hlock => (failsCheck_of_lock_eq_false (i := .send) rfl hlock).failsCleanly rfl⟩
  have hcipher : (senderRun s.cfg s.inputs).cipher = C := by rw [hC, hP, senderRun_cipher]
  have htag : (senderRun s.cfg s.inputs).tag = T := by rw [hT, senderRun_tag, hcipher]
  have hwrites := execSend_writes hlock rfl
  rwa [senderRun_frame, htag, hcipher, senderRun_plain, ← hP] at hwrites

end Sys2Proof.Machine
end

section
/-! PROOFS. The Sender as a pipeline of commands (46_sender_receiver.md, rule R221). -/

namespace Sys2Proof.Machine

theorem storeSent_complete_eq (s : State) (P C F : Bytes) (T : Block) :
    (s.storeSent ⟨P, C, T, F⟩).complete =
      { (((((s.storePlain P).complete.storeCipher C).complete.storeTag T).complete.storeBuilt F).complete) with
        txValid := true } := rfl

/-- Settles O47: each stage reads from the live registers what the stage before it stored. -/
theorem sendIsThePipeline : Obligations.SendIsThePipeline := by
  intro s hidle hlock hwf
  obtain ⟨-, hcap, -⟩ := bufCap_of_wellFormed hwf
  have hinputs : s.inputs = s.liveInputs := inputs_of_idle hidle
  have hsend := execSend_of_locked (s := s) (by rw [hinputs]; exact hlock)
  have hencode := exec_encode s
  rw [hinputs] at hsend hencode
  generalize hP : blockBytes (encodeReading s.cfg.order s.liveInputs.rd) = P at hencode
  generalize hC : encryptString P (quadBlock s.key) (quadBlock s.iv) = C
  generalize hT : cmac (quadBlock s.key) C = T
  have hPlen : P.length = 16 := by rw [← hP]; exact blockBytes_length _
  have hClen : C.length = 32 := by rw [← hC, ← hP]; exact length_encryptString_blockBytes ..
  have hrun : senderRun s.cfg s.liveInputs = ⟨P, C, T, buildFrame C T⟩ := by
    rw [← hT, ← hC, ← hP]
    rfl
  have hpadded : paddedLength P.length ≤ s.cfg.bufCap := by
    rw [hPlen, paddedLength]
    omega
  have hencrypt : exec .encrypt (s.storePlain P).complete = _ :=
    execEncrypt_of_live rfl hlock (plaintext_liveInputs_storePlain s (by omega)) hpadded hC
  have hread := ciphertext_liveInputs_storeCipher (C := C) (s.storePlain P).complete (by omega)
  have htagGen := execTagGen_of_live (u := ((s.storePlain P).complete.storeCipher C).complete) rfl hlock hread
    (by rw [hClen]; exact (by decide : 32 ≤ 48).trans hcap) hT
  have hbuild := execFrameBuild_of_live (u := (((s.storePlain P).complete.storeCipher C).complete.storeTag T).complete)
    rfl hread (quadBlock_blockQuad T) (by rw [hClen]; exact hcap)
  rw [hrun] at hsend
  exact ⟨_, _, _, _, _, hencode, hencrypt, htagGen, hbuild, hsend, storeSent_complete_eq s P C _ T⟩

end Sys2Proof.Machine
end

section
/-! PROOFS. The Receiver (46_sender_receiver.md, rules R226 to R241). A RECEIVE is its outcome (`rxOutcome`)
applied after the acceptance clears, so each statement about it is first a fact about the outcome of a frame,
then about what that outcome stores and shows. -/

namespace Sys2Proof.Machine

/-! ## The outcome of a frame -/

theorem rxOutcome_of_frame {cfg : Params} {x : Inputs} {C : Bytes} {T : Block} (hlock : x.lock = true)
    (hfits : x.frLen.toNat ≤ cfg.bufCap) (hframe : x.frame = C ++ blockBytes T) :
    rxOutcome cfg x = rxVerify cfg x C T := by
  have hparse : parseFrame x.frame = .ok (C, T) := hframe ▸ parseFrame_buildFrame C T
  simp only [rxOutcome, hlock, Bool.true_eq_false, if_false, if_neg (Nat.not_lt.mpr hfits), hparse]

theorem rxVerify_of_ne {cfg : Params} {x : Inputs} {C : Bytes} {T : Block} (hne : cmac x.keyBlock C ≠ T) :
    rxVerify cfg x C T = .tampered C T := by
  rw [rxVerify, (verifyTag_eq_false_iff ..).mpr hne]
  rfl

theorem rxVerify_of_eq {cfg : Params} {x : Inputs} {C : Bytes} {T : Block} (heq : cmac x.keyBlock C = T) :
    rxVerify cfg x C T = rxDecrypt cfg x C T := by
  rw [rxVerify, if_pos ((verifyTag_iff ..).mpr heq)]

theorem rxDecrypt_of_error {cfg : Params} {x : Inputs} {C : Bytes} {e : ErrCode}
    (herr : decryptString C x.keyBlock x.ivBlock = .error e) (T : Block) :
    rxDecrypt cfg x C T = .undecryptable C T e := by
  simp only [rxDecrypt, herr]

theorem rxDecrypt_of_length_ne {cfg : Params} {x : Inputs} {C D : Bytes}
    (hok : decryptString C x.keyBlock x.ivBlock = .ok D) (hlen : D.length ≠ 16) (T : Block) :
    rxDecrypt cfg x C T = .badSize C T D := by
  simp only [rxDecrypt, hok, rxValidate, decodeReading_of_length_ne hlen]

theorem rxDecrypt_of_length_eq {cfg : Params} {x : Inputs} {C D : Bytes}
    (hok : decryptString C x.keyBlock x.ivBlock = .ok D) (hlen : D.length = 16) (T : Block) :
    rxDecrypt cfg x C T = .delivered C T D (decodeBlock cfg.order (blockOf D)) := by
  simp only [rxDecrypt, hok, rxValidate, decodeReading_of_length_eq hlen]

theorem rxOutcome_of_short {cfg : Params} {x : Inputs} (hlock : x.lock = true) (hfits : x.frLen.toNat ≤ cfg.bufCap)
    (hshort : x.frLen.toNat < 16) : rxOutcome cfg x = .tooShort := by
  have hparse : parseFrame x.frame = .error .frameTooShort :=
    parseFrame_of_length_lt (by rwa [length_frame])
  simp only [rxOutcome, hlock, Bool.true_eq_false, if_false, if_neg (Nat.not_lt.mpr hfits), hparse]

/-- R58: the outcome depends on the frame, KEY, IV, LOCK and the parameters only. -/
theorem rxOutcome_congr {cfg : Params} {x y : Inputs} (hlock : y.lock = x.lock) (hkey : y.key = x.key)
    (hiv : y.iv = x.iv) (hlen : y.frLen = x.frLen) (hframe : y.frame = x.frame) :
    rxOutcome cfg y = rxOutcome cfg x := by
  have hkeyBlock : y.keyBlock = x.keyBlock := congrArg quadBlock hkey
  have hivBlock : y.ivBlock = x.ivBlock := congrArg quadBlock hiv
  simp only [rxOutcome, rxVerify, rxDecrypt, hlock, hlen, hframe, hkeyBlock, hivBlock]

/-! ## What an outcome leaves -/

theorem exec_receive_of_outcome {s : State} {o : RxOutcome} (ho : rxOutcome s.cfg s.inputs = o) :
    exec .receive s = .next (s.clearReceiver.applyRx o) := by
  rw [exec_receive, ho]

/-- The record and the Receiver's fields that each outcome ends with (R226, R233, R270). -/
def RxOutcome.record : RxOutcome → ErrCode × RxState × RxReject
  | .commandError e => (e, .awaitingFrame, .none)
  | .tooShort => (.frameTooShort, .rejected, .frameTooShort)
  | .tampered _ _ => (.tamperDetected, .rejected, .tamperDetected)
  | .undecryptable _ _ e => (e, .rejected, .decryptionFailed)
  | .badSize _ _ _ => (.sizeMismatch, .rejected, .sizeMismatch)
  | .delivered _ _ _ _ => (.none, .delivered, .none)

theorem record_applyRx (o : RxOutcome) (s : State) :
    ((s.clearReceiver.applyRx o).errCode, (s.clearReceiver.applyRx o).rxState,
      (s.clearReceiver.applyRx o).rxReject) = o.record := by
  cases o <;> simp [State.applyRx, RxOutcome.record]

theorem errCode_applyRx (o : RxOutcome) (s : State) : (s.clearReceiver.applyRx o).errCode = o.record.1 :=
  congrArg (·.1) (record_applyRx o s)

theorem rxState_applyRx (o : RxOutcome) (s : State) : (s.clearReceiver.applyRx o).rxState = o.record.2.1 :=
  congrArg (·.2.1) (record_applyRx o s)

theorem rxReject_applyRx (o : RxOutcome) (s : State) : (s.clearReceiver.applyRx o).rxReject = o.record.2.2 :=
  congrArg (·.2.2) (record_applyRx o s)

/-- STATUS shows the codes of the outcome's record (R42, R43, R250). -/
theorem statusShows_applyRx (o : RxOutcome) (s : State) :
    StatusShows (s.clearReceiver.applyRx o) (errCodeBits o.record.1) (rxStateBits o.record.2.1)
      (rxRejectBits o.record.2.2) := by
  rw [statusShows_iff, errCode_applyRx, rxState_applyRx, rxReject_applyRx]
  exact ⟨rfl, rfl, rfl⟩

theorem keepsAllBut_receive (o : RxOutcome) (s : State) {items : List Item}
    (hitems : ∀ item ∈ (ending ++ o.changedItems) ++ [.verifyOk, .receiver], item ∈ items) :
    KeepsAllBut items s (s.clearReceiver.applyRx o) :=
  ((keepsAllBut_clearReceiver s).trans (keepsAllBut_applyRx o _)).mono hitems

theorem keepsBytesBut_receive (o : RxOutcome) (s : State) :
    KeepsBytesBut o.changedSpans s (s.clearReceiver.applyRx o) :=
  (keepsBytesBut_of_mem_eq (spans := []) rfl).trans (keepsBytesBut_applyRx o s.clearReceiver)

/-! ## R239: short frames -/

/-- Settles O48. -/
theorem shortFrameIsRejected : Obligations.ShortFrameIsRejected := by
  intro s hlock hshort hwf
  obtain ⟨-, hcap, -⟩ := bufCap_of_wellFormed hwf
  have ho : rxOutcome s.cfg s.inputs = .tooShort := rxOutcome_of_short hlock (by omega) hshort
  exact ⟨_, exec_receive_of_outcome ho, endedWith_raiseFail _ _, statusShows_applyRx .tooShort s, rfl, rfl, rfl,
    keepsAllBut_receive .tooShort s (by decide), keepsBytesBut_receive .tooShort s⟩

/-! ## R228 to R231: the stages of a frame -/

/-- CT, CT_LEN and TAGV hold the parsed frame. -/
def HoldsParsed (C : Bytes) (T : Block) (t : State) : Prop :=
  t.mem.bufBytes .ct C.length = C ∧ t.ctLen = BitVec.ofNat 32 C.length ∧ quadBlock t.tag = T

theorem holdsParsed_tampered (C : Bytes) (T : Block) (s : State) :
    HoldsParsed C T (s.applyRx (.tampered C T)) :=
  ⟨Memory.bufBytes_writeBytes_same _ rfl, rfl, quadBlock_blockQuad T⟩

theorem holdsParsed_undecryptable (C : Bytes) (T : Block) (e : ErrCode) (s : State) :
    HoldsParsed C T (s.applyRx (.undecryptable C T e)) :=
  ⟨Memory.bufBytes_writeBytes_same _ rfl, rfl, quadBlock_blockQuad T⟩

/-- The plaintext is stored in a buffer of its own, so the parsed frame stays. -/
theorem bufBytes_parsed_plain {C D : Bytes} {m m' : Memory} (hC : C.length ≤ 256) (hD : D.length ≤ 256)
    (hmem : m' = (m.writeBytes (bufBase .ct) C).writeBytes (bufBase .pt) D) :
    m'.bufBytes .ct C.length = C ∧ m'.bufBytes .pt D.length = D := by
  subst hmem
  exact ⟨by rw [Memory.bufBytes_writeBytes_other _ (by decide) hC hD, Memory.bufBytes_writeBytes_same _ rfl],
    Memory.bufBytes_writeBytes_same _ rfl⟩

theorem holdsParsed_badSize {C D : Bytes} {T : Block} (hC : C.length ≤ 256) (hD : D.length ≤ 256) (s : State) :
    HoldsParsed C T (s.applyRx (.badSize C T D)) ∧
      (s.applyRx (.badSize C T D)).mem.bufBytes .pt D.length = D ∧
      (s.applyRx (.badSize C T D)).ptLen = BitVec.ofNat 32 D.length := by
  obtain ⟨hct, hpt⟩ := bufBytes_parsed_plain (m' := (s.applyRx (.badSize C T D)).mem) hC hD rfl
  exact ⟨⟨hct, rfl, quadBlock_blockQuad T⟩, hpt, rfl⟩

theorem holdsParsed_delivered {C D : Bytes} {T : Block} (hC : C.length ≤ 256) (hD : D.length ≤ 256) (rd : Quad)
    (s : State) : HoldsParsed C T (s.applyRx (.delivered C T D rd)) ∧
      (s.applyRx (.delivered C T D rd)).mem.bufBytes .pt D.length = D ∧
      (s.applyRx (.delivered C T D rd)).ptLen = BitVec.ofNat 32 D.length := by
  obtain ⟨hct, hpt⟩ := bufBytes_parsed_plain (m' := (s.applyRx (.delivered C T D rd)).mem) hC hD rfl
  exact ⟨⟨hct, rfl, quadBlock_blockQuad T⟩, hpt, rfl⟩

theorem length_of_frame_eq {x : Inputs} {C : Bytes} {T : Block} (hframe : x.frame = C ++ blockBytes T) :
    C.length + 16 = x.frLen.toNat := by
  have hlen := congrArg List.length hframe
  rw [length_frame, List.length_append, blockBytes_length] at hlen
  exact hlen.symm

/-- The strings of a received frame fit their buffers. -/
theorem lengths_of_received {cfg : Params} {x : Inputs} {C D : Bytes} {T K IV : Block} (hwf : cfg.wellFormed = true)
    (hfits : x.frLen.toNat ≤ cfg.bufCap) (hframe : x.frame = C ++ blockBytes T)
    (hok : decryptString C K IV = .ok D) : C.length ≤ 256 ∧ D.length ≤ 256 := by
  obtain ⟨-, -, hcap⟩ := bufCap_of_wellFormed hwf
  have hC := length_of_frame_eq hframe
  obtain ⟨-, hD, -⟩ := decryptString_ok_length _ _ _ _ hok
  omega

/-- Settles O49. -/
theorem tamperedFrameIsRejected : Obligations.TamperedFrameIsRejected := by
  intro s C T hlock hfits hframe hne
  have ho : rxOutcome s.cfg s.inputs = .tampered C T :=
    (rxOutcome_of_frame hlock hfits hframe).trans (rxVerify_of_ne hne)
  obtain ⟨hct, hctLen, htag⟩ := holdsParsed_tampered C T s.clearReceiver
  exact ⟨_, exec_receive_of_outcome ho, endedWith_raiseFail _ _, statusShows_applyRx (.tampered C T) s,
    rxState_applyRx _ s, rxReject_applyRx _ s, rfl, hct, hctLen, htag,
    keepsAllBut_receive _ s (by simp [RxOutcome.changedItems, ending]), keepsBytesBut_receive (.tampered C T) s⟩

/-- Settles O50: the error is the CipherEngine's own, by whether C is whole blocks. -/
theorem undecryptableFrameIsRejected : Obligations.UndecryptableFrameIsRejected := by
  intro s C T e hlock hfits hframe htagEq herr
  have ho : rxOutcome s.cfg s.inputs = .undecryptable C T e :=
    (rxOutcome_of_frame hlock hfits hframe).trans ((rxVerify_of_eq htagEq).trans (rxDecrypt_of_error herr T))
  have hcode := decryptString_error _ _ _ _ herr
  obtain ⟨hct, hctLen, htag⟩ := holdsParsed_undecryptable C T e s.clearReceiver
  have hshows := statusShows_applyRx (.undecryptable C T e) s
  refine ⟨_, exec_receive_of_outcome ho, endedWith_raiseFail _ _, ?_, fun hpartial => ?_, fun hwhole => ?_,
    rxState_applyRx _ s, rxReject_applyRx _ s, rfl, hct, hctLen, htag,
    keepsAllBut_receive _ s (by simp [RxOutcome.changedItems, ending]),
    keepsBytesBut_receive (.undecryptable C T e) s⟩
  · rw [errCode_applyRx]
    rcases hcode with ⟨_, rfl⟩ | ⟨_, rfl⟩ <;> exact nofun
  · obtain ⟨_, rfl⟩ := hcode.resolve_right fun h => hpartial h.left
    exact hshows
  · obtain ⟨_, rfl⟩ := hcode.resolve_left fun h => h.left hwhole
    exact hshows

/-- Settles O51. -/
theorem wrongSizeFrameIsRejected : Obligations.WrongSizeFrameIsRejected := by
  intro s C D T hlock hfits hwf hframe htagEq hok hsize
  have ho : rxOutcome s.cfg s.inputs = .badSize C T D :=
    (rxOutcome_of_frame hlock hfits hframe).trans
      ((rxVerify_of_eq htagEq).trans (rxDecrypt_of_length_ne hok hsize T))
  obtain ⟨hC, hD⟩ := lengths_of_received hwf hfits hframe hok
  obtain ⟨⟨hct, hctLen, htag⟩, hpt, hptLen⟩ := holdsParsed_badSize (T := T) hC hD s.clearReceiver
  exact ⟨_, exec_receive_of_outcome ho, endedWith_raiseFail _ _, statusShows_applyRx (.badSize C T D) s,
    rxState_applyRx _ s, rxReject_applyRx _ s, rfl, hct, hctLen, htag, hpt, hptLen,
    keepsAllBut_receive _ s (by simp [RxOutcome.changedItems, ending]), keepsBytesBut_receive (.badSize C T D) s⟩

/-- Settles O52: RD is the Reading whose bytes were decrypted. -/
theorem goodFrameIsDelivered : Obligations.GoodFrameIsDelivered := by
  intro s C D T hlock hfits hwf hframe htagEq hok hsize
  generalize hrd : decodeBlock s.cfg.order (blockOf D) = rd
  have ho : rxOutcome s.cfg s.inputs = .delivered C T D rd := by
    rw [← hrd]
    exact (rxOutcome_of_frame hlock hfits hframe).trans
      ((rxVerify_of_eq htagEq).trans (rxDecrypt_of_length_eq hok hsize T))
  have hbytes : blockBytes (encodeReading s.cfg.order rd) = D := by
    rw [← hrd]
    exact blockBytes_encodeReading_decodeBlock hsize
  obtain ⟨hC, hD⟩ := lengths_of_received hwf hfits hframe hok
  obtain ⟨⟨hct, hctLen, htag⟩, hpt, hptLen⟩ := holdsParsed_delivered (T := T) hC hD rd s.clearReceiver
  have hspans := keepsBytesBut_receive (.delivered C T D rd) s
  rw [RxOutcome.changedSpans, hsize] at hspans
  rw [hsize] at hpt hptLen
  exact ⟨_, exec_receive_of_outcome ho, endedWell_complete _, statusShows_applyRx (.delivered C T D rd) s,
    rxState_applyRx _ s, rxReject_applyRx _ s, rfl, hbytes, hct, hctLen, htag, hpt, hptLen,
    keepsAllBut_receive _ s (by simp [RxOutcome.changedItems, ending]), hspans⟩

end Sys2Proof.Machine
end

section
/-! PROOFS. What a RECEIVE delivers and rejects in general (46_sender_receiver.md, rules R225, R237, R238 and
R270) and what it does not depend on (10_state.md, rule R58). -/

namespace Sys2Proof.Machine

/-! ## R237: every long frame is verified, only 48 bytes are delivered -/

theorem verifying_mem_rxPath {cfg : Params} {x : Inputs} (hlock : x.lock = true) (hmin : 16 ≤ x.frLen.toNat)
    (hfits : x.frLen.toNat ≤ cfg.bufCap) : .verifying ∈ rxPath (rxOutcome cfg x) := by
  rcases rxOutcome_cases cfg x with ⟨hunlocked, _⟩ | ⟨_, hlong, _⟩ | ⟨_, _, ⟨hshort, _⟩ | ⟨_, c, t, _, _,
    ⟨_, ho⟩ | ⟨_, ⟨e, _, ho⟩ | ⟨d, _, ⟨_, ho⟩ | ⟨_, ho⟩⟩⟩⟩⟩
  · rw [hlock] at hunlocked
    cases hunlocked
  · omega
  · omega
  all_goals
    rw [ho]
    simp [rxPath]

/-- R237: sixteen bytes of plaintext make two blocks of ciphertext, and with the tag 48 bytes. -/
theorem frLen_of_delivered {cfg : Params} {x : Inputs} {c d : Bytes} {t : Block} {rd : Quad}
    (ho : rxOutcome cfg x = .delivered c t d rd) : x.frLen = 48#32 := by
  rcases rxOutcome_cases cfg x with ⟨_, h⟩ | ⟨_, _, h⟩ | ⟨_, _, ⟨_, h⟩ | ⟨hmin, c', t', hc, _,
    ⟨_, h⟩ | ⟨_, ⟨e, _, h⟩ | ⟨d', hok, ⟨_, h⟩ | ⟨hsize, _⟩⟩⟩⟩⟩
  all_goals try cases ho.symm.trans h
  obtain ⟨hwhole, hshorter, hlonger⟩ := decryptString_ok_length _ _ _ _ hok
  have hlen : c'.length = x.frLen.toNat - 16 := by
    rw [hc, List.length_take, length_frame]
    omega
  apply BitVec.eq_of_toNat_eq
  change x.frLen.toNat = 48
  omega

/-- Settles O53. -/
theorem onlyFortyEightBytesAreDelivered : Obligations.OnlyFortyEightBytesAreDelivered := by
  refine ⟨fun s => verifying_mem_rxPath, fun s t hnext hdelivered => ?_⟩
  rw [eq_of_exec_receive hnext, rxState_applyRx] at hdelivered
  cases ho : rxOutcome s.cfg s.inputs with
  | delivered c t d rd => exact frLen_of_delivered ho
  | _ =>
    rw [ho] at hdelivered
    cases hdelivered

/-! ## R270: the record of every RECEIVE -/

/-- Settles O57, outcome by outcome: its record, and the codes STATUS shows for it. -/
theorem rejectCategoriesMapToCodes : Obligations.RejectCategoriesMapToCodes := by
  intro s t hnext
  have hcodes := rxOutcome_codesListed s.cfg s.inputs
  obtain rfl := eq_of_exec_receive hnext
  generalize rxOutcome s.cfg s.inputs = o at hcodes
  have hshows := statusShows_applyRx o s
  rw [rxState_applyRx, rxReject_applyRx, errCode_applyRx]
  cases o with
  | commandError e =>
    rcases hcodes with rfl | rfl
    · exact .inr (.inr ⟨rfl, rfl, .inl ⟨rfl, hshows⟩⟩)
    · exact .inr (.inr ⟨rfl, rfl, .inr ⟨rfl, hshows⟩⟩)
  | tooShort => exact .inl ⟨rfl, .inl ⟨rfl, rfl, hshows⟩⟩
  | tampered c u => exact .inl ⟨rfl, .inr (.inl ⟨rfl, rfl, hshows⟩)⟩
  | undecryptable c u e =>
    rcases hcodes with ⟨_, rfl⟩ | ⟨_, rfl⟩
    · exact .inl ⟨rfl, .inr (.inr (.inl ⟨rfl, .inr ⟨rfl, hshows⟩⟩))⟩
    · exact .inl ⟨rfl, .inr (.inr (.inl ⟨rfl, .inl ⟨rfl, hshows⟩⟩))⟩
  | badSize c u d => exact .inl ⟨rfl, .inr (.inr (.inr ⟨rfl, rfl, hshows⟩))⟩
  | delivered c u d rd => exact .inr (.inl ⟨rfl, rfl, rfl, hshows⟩)

/-! ## R58: nothing carries over -/

theorem rd_applyRx_delivered (c d : Bytes) (T : Block) (rd : Quad) (s : State) :
    (s.applyRx (.delivered c T d rd)).rd = rd := rfl

theorem senderRun_congr {cfg : Params} {x y : Inputs} (hkey : y.key = x.key) (hiv : y.iv = x.iv)
    (hrd : y.rd = x.rd) : senderRun cfg y = senderRun cfg x := by
  have hkeyBlock : y.keyBlock = x.keyBlock := congrArg quadBlock hkey
  have hivBlock : y.ivBlock = x.ivBlock := congrArg quadBlock hiv
  simp only [senderRun, hkeyBlock, hivBlock, hrd]

/-- Two SENDs of one run leave the same record, frame and tag. -/
theorem send_eq_of_senderRun_eq {s r t u : State} (hlock : s.inputs.lock = true) (hlock' : r.inputs.lock = true)
    (hrun : senderRun r.cfg r.inputs = senderRun s.cfg s.inputs) (hs : exec .send s = .next t)
    (hr : exec .send r = .next u) :
    u.errCode = t.errCode ∧ u.mem.bufBytes .fr 48 = t.mem.bufBytes .fr 48 ∧ u.frLen = t.frLen ∧ u.tag = t.tag := by
  obtain ⟨t', ht', ⟨_, _, htCode, _⟩, _, _, _, _, htTag, htFrame, htLen, _⟩ := execSend_writes hlock rfl
  obtain ⟨u', hu', ⟨_, _, huCode, _⟩, _, _, _, _, huTag, huFrame, huLen, _⟩ := execSend_writes hlock' hrun
  obtain rfl := Host.Outcome.next.inj (ht'.symm.trans hs)
  obtain rfl := Host.Outcome.next.inj (hu'.symm.trans hr)
  have htag : u'.tag = t'.tag := by
    rw [← blockQuad_quadBlock u'.tag, huTag, ← htTag, blockQuad_quadBlock]
  exact ⟨huCode.trans htCode.symm, huFrame.trans htFrame.symm, huLen.trans htLen.symm, htag⟩

theorem errCode_of_send_unlocked {s t : State} (hlock : s.inputs.lock = false) (hnext : exec .send s = .next t) :
    t.errCode = .keyNotLocked := by
  have hfails : exec .send s = .next (s.raiseFail .keyNotLocked) :=
    failsCheck_of_lock_eq_false (i := .send) rfl hlock
  obtain rfl := Host.Outcome.next.inj (hfails.symm.trans hnext)
  rfl

/-- Settles O56: equal inputs give an equal outcome, or an equal run, and what these leave is theirs alone. -/
theorem nothingCarriesOver : Obligations.NothingCarriesOver := by
  refine ⟨fun s r t u hcfg hlock hkey hiv hlen hframe hs hr => ?_,
    fun s r t u _ hcfg hlock hkey hiv hrd hs hr => ?_⟩
  · have ho : rxOutcome r.cfg r.inputs = rxOutcome s.cfg s.inputs := by
      rw [hcfg]
      exact rxOutcome_congr hlock hkey hiv hlen hframe
    obtain rfl := eq_of_exec_receive hs
    obtain rfl := eq_of_exec_receive hr
    rw [ho]
    generalize rxOutcome s.cfg s.inputs = o
    refine ⟨by rw [rxState_applyRx, rxState_applyRx], by rw [rxReject_applyRx, rxReject_applyRx],
      by rw [errCode_applyRx, errCode_applyRx], fun hdelivered => ?_⟩
    rw [rxState_applyRx] at hdelivered
    cases o with
    | delivered c T d rd => rw [rd_applyRx_delivered, rd_applyRx_delivered]
    | _ => cases hdelivered
  · have hrun : senderRun r.cfg r.inputs = senderRun s.cfg s.inputs := by
      rw [hcfg]
      exact senderRun_congr hkey hiv hrd
    cases hl : s.inputs.lock with
    | true =>
      obtain ⟨hcode, hwrites⟩ := send_eq_of_senderRun_eq hl (hlock.trans hl) hrun hs hr
      exact ⟨hcode, fun _ => hwrites⟩
    | false =>
      exact ⟨(errCode_of_send_unlocked (hlock.trans hl) hr).trans (errCode_of_send_unlocked hl hs).symm, nofun⟩

/-! ## R238 and R225: what the Sender built, delivered or detected -/

/-- The frame that a SEND left in FR: the ciphertext of the Reading and its tag. -/
theorem exists_sent_frame {s t : State} (hlock : s.inputs.lock = true) (hnext : exec .send s = .next t) :
    ∃ C : Bytes, C = encryptString (blockBytes (encodeReading s.cfg.order s.inputs.rd)) (quadBlock s.inputs.key)
        (quadBlock s.inputs.iv) ∧ C.length = 32 ∧
      t.mem.bufBytes .fr 48 = C ++ blockBytes (cmac (quadBlock s.inputs.key) C) := by
  obtain ⟨t', ht', _, _, _, _, _, _, hframe, _⟩ := execSend_writes hlock rfl
  obtain rfl := Host.Outcome.next.inj (ht'.symm.trans hnext)
  exact ⟨_, rfl, length_senderRun_cipher s.cfg s.inputs, hframe⟩

theorem frame_of_frLen_eq {x : Inputs} (hlen : x.frLen = 48#32) : x.frame = x.mem.bufBytes .fr 48 := by
  rw [Inputs.frame, hlen]
  rfl

theorem frLen_le_of_eq {cfg : Params} {x : Inputs} (hwf : cfg.wellFormed = true) (hlen : x.frLen = 48#32) :
    x.frLen.toNat ≤ cfg.bufCap := by
  obtain ⟨-, hcap, -⟩ := bufCap_of_wellFormed hwf
  rw [hlen]
  exact hcap

/-- R238: a RECEIVE of what a SEND of the Reading `rd` built delivers that Reading. -/
theorem receive_delivers_sent {r : State} {C : Bytes} {rd : Quad} (hlock : r.inputs.lock = true)
    (hwf : r.cfg.wellFormed = true) (hlen : r.inputs.frLen = 48#32)
    (hC : C = encryptString (blockBytes (encodeReading r.cfg.order rd)) (quadBlock r.inputs.key)
      (quadBlock r.inputs.iv))
    (hframe : r.inputs.mem.bufBytes .fr 48 = C ++ blockBytes (cmac (quadBlock r.inputs.key) C)) :
    ∃ u, exec .receive r = .next u ∧ EndedWell u ∧ u.rxState = .delivered ∧ u.rd = rd := by
  have hok : decryptString C r.inputs.keyBlock r.inputs.ivBlock =
      .ok (blockBytes (encodeReading r.cfg.order rd)) := by
    rw [hC]
    exact decryptString_encryptString ..
  have ho := (rxOutcome_of_frame hlock (frLen_le_of_eq hwf hlen) ((frame_of_frLen_eq hlen).trans hframe)).trans
    ((rxVerify_of_eq rfl).trans (rxDecrypt_of_length_eq hok (blockBytes_length _) _))
  rw [blockOf_blockBytes, decodeBlock_encodeReading] at ho
  exact ⟨_, exec_receive_of_outcome ho, endedWell_complete _, rxState_applyRx _ r, rd_applyRx_delivered ..⟩

/-- Settles O54. -/
theorem roundTripDeliversTheReading : Obligations.RoundTripDeliversTheReading := by
  intro s t r hlock hwf hsend
  obtain ⟨C, hC, -, hframe⟩ := exists_sent_frame hlock hsend
  refine ⟨fun hlock' hwf' horder hkey hiv hlen hsame => ?_, fun hidle => ?_⟩
  · exact receive_delivers_sent (C := C) hlock' hwf' hlen (by rw [hC, horder, hkey, hiv])
      (by rw [hsame, hframe, hkey])
  · obtain ⟨t', ht', ⟨hbusy, _⟩, _, _, _, _, _, _, hlen, _, hitems, _⟩ := execSend_writes hlock rfl
    obtain rfl := Host.Outcome.next.inj (ht'.symm.trans hsend)
    have hidle' : t'.pending = none := by simpa [State.busy] using hbusy
    have hcfg : t'.cfg = s.cfg := hitems .parameters (by decide)
    have hlock' : t'.lock = s.lock := hitems .lock (by decide)
    have hkey : t'.key = s.key := hitems .key (by decide)
    have hiv : t'.iv = s.iv := hitems .iv (by decide)
    rw [inputs_of_idle hidle] at hlock hC hframe
    refine receive_delivers_sent (C := C) ?_ (by rwa [hcfg]) ?_ ?_ ?_ <;> rw [inputs_of_idle hidle']
    · exact hlock'.trans hlock
    · exact hlen
    · rw [hC, hcfg, State.liveInputs, State.liveInputs, hkey, hiv]
    · rw [State.liveInputs, hkey]
      exact hframe

theorem blockBytes_blockOf_drop {F : Bytes} (hlen : F.length = 48) :
    blockBytes (blockOf (F.drop 32)) = F.drop 32 :=
  blockBytes_blockOf _ (by rw [List.length_drop, hlen])

/-- Settles O55: the changed frame fails the comparison (`verifyTag_of_differInOneBlock`). -/
theorem changedFrameIsDetected : Obligations.ChangedFrameIsDetected := by
  intro s t r hlock _ hsend hlock' hwf hkey hlen hdiffer
  obtain ⟨C, -, hClen, hframe⟩ := exists_sent_frame hlock hsend
  rw [hframe, ← hkey] at hdiffer
  have hverify := verifyTag_of_differInOneBlock hClen hdiffer
  have hlen48 : (r.inputs.mem.bufBytes .fr 48).length = 48 := Memory.bufBytes_length ..
  generalize hF : r.inputs.mem.bufBytes .fr 48 = F at hverify hlen48
  have hsplit : r.inputs.frame = F.take 32 ++ blockBytes (blockOf (F.drop 32)) := by
    rw [frame_of_frLen_eq hlen, hF, blockBytes_blockOf_drop hlen48, List.take_append_drop]
  have ho := (rxOutcome_of_frame hlock' (frLen_le_of_eq hwf hlen) hsplit).trans
    (rxVerify_of_ne ((verifyTag_eq_false_iff ..).mp hverify))
  exact ⟨_, exec_receive_of_outcome ho, endedWith_raiseFail _ _, rxState_applyRx _ r, rxReject_applyRx _ r, rfl⟩

end Sys2Proof.Machine
end

section
/-! PROOFS. The clock (70_reset_and_hazards.md): what the host's entry of a clock does, what the engine's move
does, and the step they make together; acceptance, latency, completion and reset. -/

namespace Sys2Proof.Machine

/-! ## The host's side of a clock -/

theorem hostClock_of_nil {s : State} (hbus : s.bus = []) : s.hostClock = .next s := by
  simp only [State.hostClock, hbus]

theorem hostClock_of_idle {s : State} {rest : List BusOp} (hbus : s.bus = .idle :: rest) :
    s.hostClock = .next (s.popBus rest) := by
  simp only [State.hostClock, hbus]

theorem hostClock_of_reset {s : State} {rest : List BusOp} (hbus : s.bus = .reset :: rest) :
    s.hostClock = .next (s.resetInput rest) := by
  simp only [State.hostClock, hbus]

theorem accessWellFormed_iff (width : Nat) (off : Offset) :
    accessWellFormed width off = true ↔ width = 4 ∧ off.toNat % 4 = 0 := by
  simp [accessWellFormed]

theorem hostClock_of_read {s : State} {off : Offset} {rest : List BusOp} (hbus : s.bus = .read 4 off :: rest)
    (hoff : accessWellFormed 4 off = true) :
    s.hostClock = .next ((s.popBus rest).hostRead (regOf off)) := by
  simp only [State.hostClock, hbus, hoff, if_true]

/-- R83: an access of another width or at an offset that is no multiple of 4. -/
theorem hostClock_of_bus_error {s : State} {width : Nat} {off : Offset} {v : Word} {rest : List BusOp}
    (hbad : width ≠ 4 ∨ off.toNat % 4 ≠ 0)
    (hbus : s.bus = .read width off :: rest ∨ s.bus = .write width off v :: rest) :
    s.hostClock = .refused .busError := by
  have hoff : ¬ accessWellFormed width off = true := by
    rw [accessWellFormed_iff]
    omega
  rcases hbus with hbus | hbus <;> simp only [State.hostClock, hbus, if_neg hoff]

theorem hostWrite_of_busy {s : State} {p : Pending} (hbusy : s.pending = some p) (r : Reg) (v : Word) :
    s.hostWrite r v = s.writeBusy r v := by
  simp only [State.hostWrite, State.busy, hbusy, Option.isSome_some, if_true]

theorem hostRead_bus (s : State) (r : Reg) : (s.hostRead r).bus = s.bus := by
  unfold State.hostRead
  split
  · rfl
  · split <;> rfl

theorem writeIdle_bus (s : State) (r : Reg) (v : Word) : (s.writeIdle r v).bus = s.bus := by
  cases r with
  | cmd =>
    simp only [State.writeIdle, State.issue]
    split <;> simp
  | key n => simp only [State.writeIdle]; split <;> rfl
  | iv n => simp only [State.writeIdle]; split <;> rfl
  | window b k => simp only [State.writeIdle, State.writeWindow]; split <;> rfl
  | _ => rfl

theorem writeBusy_bus (s : State) (r : Reg) (v : Word) : (s.writeBusy r v).bus = s.bus := by
  cases r <;> rfl

theorem hostWrite_bus (s : State) (r : Reg) (v : Word) : (s.hostWrite r v).bus = s.bus := by
  unfold State.hostWrite
  split
  · exact writeBusy_bus s r v
  · exact writeIdle_bus s r v

/-- R92: a clock takes one entry of the host's. -/
theorem hostClock_bus {s t : State} (hclock : s.hostClock = .next t) : t.bus = s.bus.tail := by
  rcases hostClock_cases s with ⟨hbus, h⟩ | ⟨rest, hbus, h⟩ | ⟨rest, hbus, h⟩ | ⟨w, off, rest, hbus, _, h⟩ |
      ⟨w, off, v, rest, hbus, _, h⟩ | ⟨_, h⟩ <;> rw [h] at hclock <;> cases hclock <;> rw [hbus]
  · rfl
  · rfl
  · rfl
  · exact hostRead_bus _ _
  · exact hostWrite_bus _ _ _

theorem hostClock_answers_next {s : State}
    (hok : ∀ op rest, s.bus = op :: rest → op = .reset ∨ op.harmless = true) : ∃ t, s.hostClock = .next t := by
  rcases hostClock_cases s with ⟨_, h⟩ | ⟨_, _, h⟩ | ⟨_, _, h⟩ | ⟨_, _, _, _, _, h⟩ | ⟨_, _, _, _, _, _, h⟩ |
      ⟨⟨w, off, rest, hbad, hbus⟩, _⟩
  · exact ⟨_, h⟩
  · exact ⟨_, h⟩
  · exact ⟨_, h⟩
  · exact ⟨_, h⟩
  · exact ⟨_, h⟩
  · rcases hbus with hbus | ⟨v, hbus⟩ <;> rcases hok _ _ hbus with h | h
    · cases h
    · exact absurd (hbad.symm.trans h) Bool.false_ne_true
    · cases h
    · exact absurd (hbad.symm.trans h) Bool.false_ne_true

/-! ## The engine's side of a clock -/

theorem engineClock_of_idle {s : State} (hidle : s.pending = none) : s.engineClock = .next s := by
  simp only [State.engineClock, hidle]

theorem engineClock_of_waiting {s : State} {p : Pending} {n : Nat} (hbusy : s.pending = some p)
    (hleft : p.left = n + 1) : s.engineClock = .next (s.setPending (some { p with left := n })) := by
  simp only [State.engineClock, hbusy, hleft]

theorem engineClock_of_due {s : State} {p : Pending} {i : Instr} (hbusy : s.pending = some p)
    (hleft : p.left = 0) (hdec : decode p.word = .ok i) : s.engineClock = exec i s := by
  simp only [State.engineClock, hbusy, hleft, State.finishHeld, hdec]

theorem engineClock_answers_next (s : State) : ∃ t, s.engineClock = .next t := by
  rcases engineClock_cases s with ⟨_, h⟩ | ⟨_, _, _, _, h⟩ | ⟨_, i, _, _, _, h⟩ | ⟨_, _, _, _, _, h⟩
  · exact ⟨_, h⟩
  · exact ⟨_, h⟩
  · rw [h]
    exact exec_answers_next i s
  · exact ⟨_, h⟩

/-! ## The step -/

theorem step_of_busy {s t : State} {p : Pending} (hbusy : s.pending = some p) (hclock : s.hostClock = .next t) :
    step s = t.engineClock := by
  simp only [step, State.clock, hclock, State.busy, hbusy, Option.isSome_some, if_true]

theorem step_of_refused {s : State} {r : Refusal} (hclock : s.hostClock = .refused r) : step s = .refused r := by
  simp only [step, State.clock, hclock]

/-- A clock of a running command with the access of the host that leaves `u`: the held word comes due. -/
theorem step_of_due {s u : State} {p : Pending} {i : Instr} (hbusy : s.pending = some p) (hleft : p.left = 0)
    (hdec : decode p.word = .ok i) (hreset : NoReset s) (hclock : s.hostClock = .next u) : step s = exec i u := by
  obtain ⟨q, hq, hword, _, hqleft, _⟩ := hostClock_keeps_running s u p hreset hbusy hclock
  rw [step_of_busy hbusy hclock, engineClock_of_due hq (hqleft.trans hleft) (hword.symm ▸ hdec)]

/-- Settles O4. -/
theorem stepRunsHeldCommand : Obligations.StepRunsHeldCommand := by
  refine ⟨fun s t p i hbusy hleft hdec hreset hclock => step_of_due hbusy hleft hdec hreset hclock,
    fun s p i hbusy hleft hdec hbus => step_of_due hbusy hleft hdec (by simp [NoReset, hbus])
      (hostClock_of_nil hbus), fun s nbits w i htable => ?_⟩
  have hword : decode (BitVec.ofNat 32 (w % 2 ^ nbits)) = .ok i := by
    unfold decodeTableWord tableWord at htable
    by_cases hbits : nbits ≤ 32 ∧ w < 2 ^ nbits
    · rw [if_pos hbits] at htable
      rw [Nat.mod_eq_of_lt hbits.right]
      cases hdec : decode (BitVec.ofNat 32 w) <;> simp_all
    · simp [if_neg hbits] at htable
  exact step_of_due rfl rfl hword (by simp [NoReset, State.withFetchWord]) (hostClock_of_nil rfl)

/-- Settles O9. -/
theorem onlyBusErrorsStopTheBlock : Obligations.OnlyBusErrorsStopTheBlock := by
  refine fun s => ⟨fun width off v rest hbad hbus => step_of_refused (hostClock_of_bus_error hbad hbus),
    fun hok => ?_⟩
  obtain ⟨t, hclock⟩ := hostClock_answers_next hok
  cases hpending : s.pending with
  | none => exact ⟨t, step_of_idle hpending hclock⟩
  | some p =>
    rw [step_of_busy hpending hclock]
    exact engineClock_answers_next t

/-! ## R286: acceptance -/

theorem keepsAllBut_startRunning (p : Pending) (s : State) :
    KeepsAllBut [.errRecord, .done, .running] s (s.startRunning p) := by
  intro item hunlisted
  cases item with
  | errRecord | done | running => simp at hunlisted
  | receiver => exact ⟨rfl, rfl⟩
  | _ => rfl

theorem keepsAllBut_accept (w : Word) (i : Instr) (s : State) :
    KeepsAllBut ([.errRecord, .done, .running] ++ clearedItems i) s (s.accept w i) :=
  (keepsAllBut_acceptClears i s).trans (keepsAllBut_startRunning _ _)

theorem issue_of_decode_ok {w : Word} {i : Instr} (hdec : decode w = .ok i) (s : State) :
    s.issue w = s.accept w i := by
  simp only [State.issue, hdec]

theorem acceptClears_verifyOk (i : Instr) (s : State) :
    (s.acceptClears i).verifyOk = (if i = .tagVerify ∨ i = .receive then false else s.verifyOk) := by
  cases i <;> rfl

theorem acceptClears_rxState (i : Instr) (s : State) :
    (s.acceptClears i).rxState = (if i = .receive then .awaitingFrame else s.rxState) := by
  cases i <;> rfl

theorem acceptClears_rxReject (i : Instr) (s : State) :
    (s.acceptClears i).rxReject = (if i = .receive then .none else s.rxReject) := by
  cases i <;> rfl

/-- Settles O5. -/
theorem legalWordIsAccepted : Obligations.LegalWordIsAccepted := by
  intro s w i rest hidle hbus hdec
  have hstep : step s = .next ((s.popBus rest).accept w i) := by
    rw [step_of_idle_command_write hidle hbus, issue_of_decode_ok hdec]
  refine ⟨_, _, hstep, rfl, rfl, rfl, rfl, Bool.and_false _, rfl, rfl, rfl, rfl, rfl,
    acceptClears_verifyOk i _, acceptClears_rxState i _, acceptClears_rxReject i _,
    State.accept_bus (s.popBus rest) w i, ?_, keepsBytesBut_of_mem_eq (State.accept_mem (s.popBus rest) w i)⟩
  refine ((keepsAllBut_popBus rest s).trans (keepsAllBut_accept w i _)).mono ?_
  cases i <;> decide

/-! ## R287, R288: writes while a command runs -/

/-- Settles O7. -/
theorem busyCommandWriteIsDropped : Obligations.BusyCommandWriteIsDropped := by
  intro s p w rest hbusy hbus
  have hreg : regOf 0x004#12 = .cmd := regOf_cmd _ (by decide) (by decide)
  have hpopped : (s.popBus rest).pending = some p := hbusy
  have hclock : s.hostClock = .next { s with bus := rest, overrun := true } := by
    rw [hostClock_of_write hbus (by decide), hostWrite_of_busy hpopped, hreg]
    rfl
  exact ⟨hclock, step_of_busy hbusy hclock⟩

/-- The offsets of the map (R32) at which a register lies. -/
def Reg.LiesAt (n : Nat) : Reg → Prop
  | .ctrl => n < 0x004
  | .cmd => 0x004 ≤ n ∧ n < 0x008
  | .status => 0x008 ≤ n ∧ n < 0x00C
  | .events => 0x00C ≤ n ∧ n < 0x010
  | .key _ => 0x010 ≤ n ∧ n < 0x020
  | .iv _ => 0x020 ≤ n ∧ n < 0x030
  | .rd _ => 0x030 ≤ n ∧ n < 0x040
  | .ptLen => 0x040 ≤ n ∧ n < 0x044
  | .ctLen => 0x044 ≤ n ∧ n < 0x048
  | .frLen => 0x048 ≤ n ∧ n < 0x04C
  | .cap => 0x04C ≤ n ∧ n < 0x050
  | .tag _ => 0x050 ≤ n ∧ n < 0x060
  | .reservedLow => 0x060 ≤ n ∧ n < 0x100
  | .window .. => 0x100 ≤ n ∧ n < 0x400
  | .reservedHigh => 0x400 ≤ n

theorem liesAt_regOf (off : Offset) : (regOf off).LiesAt off.toNat := by
  rcases regOf_cases off with ⟨_, h⟩ | ⟨_, _, h⟩ | ⟨_, _, h⟩ | ⟨_, _, h⟩ | ⟨_, _, h⟩ | ⟨_, _, h⟩ | ⟨_, _, h⟩ |
      ⟨_, _, h⟩ | ⟨_, _, h⟩ | ⟨_, _, h⟩ | ⟨_, _, h⟩ | ⟨_, _, h⟩ | ⟨_, _, h⟩ | ⟨_, _, h⟩ | ⟨_, _, h⟩ | ⟨_, _, h⟩ |
      ⟨_, h⟩ <;> rw [h, Reg.LiesAt] <;> omega

theorem regOf_ne_of_not_liesAt {off : Offset} {r : Reg} (hat : ¬ r.LiesAt off.toNat) : regOf off ≠ r :=
  fun h => hat (h ▸ liesAt_regOf off)

theorem writeBusy_of_dropped {r : Reg} (hctrl : r ≠ .ctrl) (hstatus : r ≠ .status) (hevents : r ≠ .events)
    (hhigh : r ≠ .reservedHigh) (s : State) (v : Word) : s.writeBusy r v = s.dropWrite := by
  cases r with
  | ctrl | status | events | reservedHigh => contradiction
  | _ => rfl

/-- R288: the offsets whose writes a running command drops. -/
theorem writeBusy_regOf_of_dropped {off : Offset} (hmod : off.toNat % 4 = 0) (hctrl : off.toNat ≠ 0x000)
    (hstatus : off.toNat ≠ 0x008) (hevents : off.toNat ≠ 0x00C) (hlow : off.toNat < 0x400) (s : State) (v : Word) :
    s.writeBusy (regOf off) v = s.dropWrite := by
  apply writeBusy_of_dropped <;> apply regOf_ne_of_not_liesAt <;> rw [Reg.LiesAt] <;> omega

/-- Settles O8, row by row of the table of R288. -/
theorem busyWritesByOffset : Obligations.BusyWritesByOffset := by
  refine ⟨fun s p off v rest hbusy hmod hbus => ?_, fun s p width off v rest _ hbad hbus =>
    step_of_refused (hostClock_of_bus_error hbad hbus)⟩
  have hpopped : (s.popBus rest).pending = some p := hbusy
  rw [hostClock_of_write hbus ((accessWellFormed_iff 4 off).mpr ⟨rfl, hmod⟩), hostWrite_of_busy hpopped]
  congr 1
  by_cases hctrl : off.toNat = 0x000
  · rw [if_pos hctrl, regOf_ctrl off (by omega)]
    rfl
  rw [if_neg hctrl]
  by_cases hstatus : off.toNat = 0x008
  · rw [if_pos hstatus, regOf_status off (by omega) (by omega)]
    rfl
  rw [if_neg hstatus]
  by_cases hevents : off.toNat = 0x00C
  · rw [if_pos hevents, regOf_events off (by omega) (by omega)]
    rfl
  rw [if_neg hevents]
  by_cases hlow : off.toNat < 0x400
  · rw [if_pos hlow, writeBusy_regOf_of_dropped hmod hctrl hstatus hevents hlow]
    rfl
  · rw [if_neg hlow, regOf_reservedHigh off (by omega)]
    rfl

/-! ## Latency and completion -/

/-- A clock that a running command waits out. -/
theorem step_of_waiting {s u : State} {p : Pending} {n : Nat} (hbusy : s.pending = some p)
    (hleft : p.left = n + 1) (hreset : NoReset s) (hclock : s.hostClock = .next u) :
    ∃ q, u.pending = some q ∧ q.word = p.word ∧ q.snap = p.snap ∧ q.left = n + 1 ∧
      step s = .next { u with pending := some { q with left := n } } := by
  obtain ⟨q, hq, hword, hsnap, hqleft, _⟩ := hostClock_keeps_running s u p hreset hbusy hclock
  refine ⟨q, hq, hword, hsnap, hqleft.trans hleft, ?_⟩
  rw [step_of_busy hbusy hclock, engineClock_of_waiting hq (hqleft.trans hleft)]
  rfl

theorem run_succ_of_step {s t : State} (hstep : step s = .next t) (k : Nat) :
    Host.Core.run Sys2Proof.core (k + 1) s = Host.Core.run Sys2Proof.core k t := by
  have hcore : Sys2Proof.core.step s = .next t := hstep
  simp only [Host.Core.run, hcore]

/-- A harmless entry is no reset and no bus error, so the host's side of the clock answers a next state. -/
theorem hostClock_of_harmless {s : State} {n : Nat}
    (hharmless : ∀ op ∈ s.bus.take (n + 1), BusOp.harmless op = true) :
    NoReset s ∧ ∃ u, s.hostClock = .next u ∧ ∀ op ∈ u.bus.take n, BusOp.harmless op = true := by
  have hhead : ∀ op rest, s.bus = op :: rest → op.harmless = true := fun op rest hbus =>
    hharmless op (by simp [hbus])
  obtain ⟨u, hclock⟩ := hostClock_answers_next fun op rest hbus => .inr (hhead op rest hbus)
  refine ⟨fun hreset => ?_, u, hclock, fun op hmem => hharmless op ?_⟩
  · obtain ⟨rest, hbus⟩ := List.head?_eq_some_iff.mp hreset
    cases hhead _ _ hbus
  · rw [hostClock_bus hclock] at hmem
    cases hbus : s.bus with
    | nil => simp [hbus] at hmem
    | cons o rest =>
      rw [hbus, List.tail_cons] at hmem
      exact List.mem_cons_of_mem o hmem

/-- R286, R294: the induction on the clocks left. -/
theorem run_until_completion {s : State} {p : Pending} {i : Instr} (n : Nat) (hbusy : s.pending = some p)
    (hleft : p.left = n) (hdec : decode p.word = .ok i)
    (hharmless : ∀ op ∈ s.bus.take (n + 1), BusOp.harmless op = true) :
    (∀ k, k ≤ n → ∃ t : State, Host.Core.run Sys2Proof.core k s = .next t ∧ t.busy = true) ∧
    ∃ t : State, Host.Core.run Sys2Proof.core (n + 1) s = .next t ∧ t.busy = false ∧ t.done = true := by
  have hnow : ∃ t : State, Host.Core.run Sys2Proof.core 0 s = .next t ∧ t.busy = true :=
    ⟨s, rfl, by simp [State.busy, hbusy]⟩
  obtain ⟨hreset, u, hclock, hlater⟩ := hostClock_of_harmless hharmless
  induction n generalizing s p u with
  | zero =>
    obtain ⟨t, hexec, hidle, hdone, _⟩ := everyCommandEndsRecorded i u
    have hstep : step s = .next t := (step_of_due hbusy hleft hdec hreset hclock).trans hexec
    refine ⟨fun k hk => ?_, t, run_succ_of_step hstep 0, hidle, hdone⟩
    rw [Nat.le_zero.mp hk]
    exact hnow
  | succ n ih =>
    obtain ⟨q, hq, hword, _, _, hstep⟩ := step_of_waiting hbusy hleft hreset hclock
    obtain ⟨hreset', u', hclock', hlater'⟩ :=
      hostClock_of_harmless (s := { u with pending := some { q with left := n } }) hlater
    obtain ⟨hrunning, t, hrun, hend⟩ := ih (s := { u with pending := some { q with left := n } })
      (p := { q with left := n }) rfl rfl (by rw [hword]; exact hdec) hlater ⟨_, rfl, rfl⟩ hreset' u' hclock' hlater'
    refine ⟨fun k hk => ?_, t, (run_succ_of_step hstep _).trans hrun, hend⟩
    cases k with
    | zero => exact hnow
    | succ k =>
      rw [run_succ_of_step hstep]
      exact hrunning k (Nat.le_of_succ_le_succ hk)

/-- Settles O10. -/
theorem acceptedCommandCompletes : Obligations.AcceptedCommandCompletes := by
  refine ⟨fun s p i hbusy hdec hharmless => run_until_completion p.left hbusy rfl hdec hharmless,
    fun s u p n hbusy hleft hreset hclock => step_of_waiting hbusy hleft hreset hclock,
    fun s p n hbusy hleft => ⟨fun hbus => ?_, fun rest hbus => ?_⟩,
    fun s hidle => ⟨fun hbus => step_of_idle hidle (hostClock_of_nil hbus),
      fun rest hbus => step_of_idle hidle (hostClock_of_idle hbus)⟩⟩
  · rw [step_of_busy hbusy (hostClock_of_nil hbus), engineClock_of_waiting hbusy hleft]
    rfl
  · rw [step_of_busy hbusy (hostClock_of_idle hbus), engineClock_of_waiting (s := s.popBus rest) hbusy hleft]
    rfl

theorem extraClocks_congr {i : Instr} {cfg : Params} {x y : Inputs} (hlens : lensRead i x = lensRead i y)
    (hstage : i = .receive → rejectingStage (rxOutcome cfg x) = rejectingStage (rxOutcome cfg y)) :
    extraClocks i cfg x = extraClocks i cfg y := by
  have hkey : latKeyOf i cfg x = latKeyOf i cfg y := by
    by_cases hreceive : i = .receive
    · simp only [latKeyOf, hlens, hstage hreceive]
    · simp only [latKeyOf, hlens, if_neg hreceive]
  simp only [extraClocks, hkey]

/-- Settles O11: the latency is looked up under a key of opcode, lengths and rejecting stage. -/
theorem latencyHidesContents : Obligations.LatencyHidesContents := by
  refine ⟨fun i cfg x y hreceive hlens => extraClocks_congr hlens fun h => absurd h hreceive,
    fun cfg x y hlen => extraClocks_congr (congrArg (fun w => [w]) hlen) nofun,
    fun cfg x y hlen hstage => extraClocks_congr (congrArg (fun w => [w]) hlen) fun _ => hstage,
    fun cfg x y c d t u hlen hx hy => extraClocks_congr (congrArg (fun w => [w]) hlen) fun _ => ?_⟩
  rw [hx, hy]
  rfl

theorem overrun_not_mem_writes (i : Instr) : .overrun ∉ ending ++ writesItems i := by
  cases i <;> decide

/-- Settles O12: the acknowledgement comes first on the clock, then the completion, which sets DONE and
leaves OVERRUN. -/
theorem doneSetWinsOverClear : Obligations.DoneSetWinsOverClear := by
  intro s p i v rest hbusy hleft hdec hbus
  have hreg : regOf 0x00C#12 = .events := regOf_events _ (by decide) (by decide)
  have hpopped : (s.popBus rest).pending = some p := hbusy
  have hclock : s.hostClock = .next ((s.popBus rest).ackEvents v) := by
    rw [hostClock_of_write hbus (by decide), hostWrite_of_busy hpopped, hreg, State.writeBusy]
  obtain ⟨t, hexec, hidle, hdone, _⟩ := everyCommandEndsRecorded i ((s.popBus rest).ackEvents v)
  have hstep := (step_of_due hbusy hleft hdec (by simp [NoReset, hbus]) hclock).trans hexec
  exact ⟨t, hstep, hdone, hidle, keepsAllBut_exec hexec .overrun (overrun_not_mem_writes i)⟩

/-! ## Reset -/

/-- Settles O17. -/
theorem resetValues : Obligations.ResetValues :=
  ⟨rfl, rfl, by decide, by decide, rfl, rfl, rfl, rfl, rfl, rfl, rfl, rfl, rfl, rfl, rfl, rfl, rfl, fun _ => rfl⟩

/-- The reset input leaves no command for the engine. -/
theorem step_of_reset {s : State} {rest : List BusOp} (hbus : s.bus = .reset :: rest) :
    step s = .next (s.resetInput rest) := by
  cases hpending : s.pending with
  | none => exact step_of_idle hpending (hostClock_of_reset hbus)
  | some p => rw [step_of_busy hpending (hostClock_of_reset hbus), engineClock_of_idle rfl]

/-- Settles O18. -/
theorem resetAbandonsTheCommand : Obligations.ResetAbandonsTheCommand := by
  intro s rest hbus
  have hstatus : (s.resetInput rest).statusWord = 0#32 :=
    (by decide : packStatus false false false .none .awaitingFrame .none = 0#32)
  have hevents : (s.resetInput rest).eventsWord = 0#32 := (by decide : packEvents false false false = 0#32)
  exact ⟨_, step_of_reset hbus, rfl, rfl, rfl, rfl, hstatus, rfl, hevents, rfl, rfl, rfl, rfl, rfl, rfl, rfl, rfl,
    rfl, rfl, rfl, fun _ => rfl⟩

end Sys2Proof.Machine
end

section
/-! PROOFS. Reads and writes of the register window with BUSY = 0 (10_state.md, 20_memory.md): registers,
buffer windows, and what LOCK protects. -/

namespace Sys2Proof.Machine

/-! ## The step of an access with BUSY = 0 -/

theorem hostRead_of_idle {s : State} (hidle : s.pending = none) (r : Reg) :
    s.hostRead r = { s with readData := some (s.heldWord r) } := by
  simp only [State.hostRead, hidle]

theorem heldWord_popBus (s : State) (rest : List BusOp) (r : Reg) : (s.popBus rest).heldWord r = s.heldWord r := by
  cases r <;> rfl

theorem step_of_idle_read {s : State} {off : Offset} {rest : List BusOp} (hidle : s.pending = none)
    (hmod : off.toNat % 4 = 0) (hbus : s.bus = .read 4 off :: rest) :
    step s = .next { s with bus := rest, readData := some (s.heldWord (regOf off)) } := by
  have hpopped : (s.popBus rest).pending = none := hidle
  rw [step_of_idle hidle (hostClock_of_read hbus ((accessWellFormed_iff 4 off).mpr ⟨rfl, hmod⟩)),
    hostRead_of_idle hpopped, heldWord_popBus]
  rfl

theorem step_of_idle_write {s : State} {off : Offset} {v : Word} {rest : List BusOp} (hidle : s.pending = none)
    (hmod : off.toNat % 4 = 0) (hbus : s.bus = .write 4 off v :: rest) :
    step s = .next ((s.popBus rest).writeIdle (regOf off) v) := by
  have hpopped : (s.popBus rest).pending = none := hidle
  rw [step_of_idle hidle (hostClock_of_write hbus ((accessWellFormed_iff 4 off).mpr ⟨rfl, hmod⟩)),
    hostWrite_of_idle hpopped]

/-! ## The words of the control registers -/

theorem ctrlWord_eq (s : State) :
    s.ctrlWord = (if s.ie then 2#32 else 0#32) ||| (if s.lock then 1#32 else 0#32) := by
  unfold State.ctrlWord
  cases s.ie <;> cases s.lock <;> rfl

theorem packStatus_flags (busy err verifyOk : Bool) (c : ErrCode) (x : RxState) (j : RxReject) :
    (packStatus busy err verifyOk c x j).getLsbD 0 = busy ∧
    (packStatus busy err verifyOk c x j).getLsbD 1 = err ∧
    (packStatus busy err verifyOk c x j).getLsbD 2 = verifyOk ∧
    (packStatus busy err verifyOk c x j).getLsbD 3 = false ∧
    (packStatus busy err verifyOk c x j).getLsbD 11 = false ∧
    (packStatus busy err verifyOk c x j).extractLsb' 15 17 = 0#17 := by
  simp only [packStatus, BitVec.getLsbD_append]
  refine ⟨by simp, by simp, by simp, by simp, by simp, ?_⟩
  ext k hk
  simp only [BitVec.getElem_extractLsb', BitVec.getLsbD_append]
  interval_cases k <;> simp

theorem packEvents_flags (done txValid overrun : Bool) :
    (packEvents done txValid overrun).getLsbD 0 = done ∧
    (packEvents done txValid overrun).getLsbD 1 = txValid ∧
    (packEvents done txValid overrun).getLsbD 2 = overrun ∧
    (packEvents done txValid overrun).extractLsb' 3 29 = 0#29 := by
  cases done <;> cases txValid <;> cases overrun <;> decide

/-! ## Reads -/

/-- Settles O19: the answer is the held word of the register at the offset. -/
theorem idleReads : Obligations.IdleReads := by
  intro s off rest hidle hmod hbus
  refine ⟨s.heldWord (regOf off), step_of_idle_read hidle hmod hbus, ?_⟩
  refine ⟨?ctrl, ?cmd, ?status, ?events, ?key, ?iv0, ?iv1, ?iv2, ?iv3, ?rd0, ?rd1, ?rd2, ?rd3, ?ptLen, ?ctLen,
    ?frLen, ?cap, ?tag0, ?tag1, ?tag2, ?tag3, ?low, ?high⟩
  case ctrl =>
    rintro rfl
    exact ctrlWord_eq s
  case status =>
    rintro rfl
    obtain ⟨hbusy, herr, hverify, h3, h11, htop⟩ :=
      packStatus_flags s.busy s.err s.verifyOk s.errCode s.rxState s.rxReject
    have hnot : s.busy = false := by simp [State.busy, hidle]
    exact ⟨hbusy.trans hnot, herr, hverify, h3, h11, htop,
      (packStatus_errCode ..).trans (by cases s.errCode <;> rfl),
      (packStatus_rxState ..).trans (by cases s.rxState <;> rfl),
      (packStatus_rxReject ..).trans (by cases s.rxReject <;> rfl)⟩
  case events =>
    rintro rfl
    exact packEvents_flags s.done s.txValid s.overrun
  case key =>
    rintro ⟨hmin, hmax⟩
    rw [regOf_key off hmin hmax, State.heldWord]
  case low =>
    rintro ⟨hmin, hmax⟩
    rw [regOf_reservedLow off hmin hmax, State.heldWord]
  case high =>
    intro hmin
    rw [regOf_reservedHigh off hmin, State.heldWord]
  all_goals
    rintro rfl
    rfl

/-! ## Writes -/

theorem writeIdle_key_of_unlocked {s : State} (hlock : s.lock = false) (n : Fin 4) (v : Word) :
    s.writeIdle (.key n) v = { s with key := quadSet s.key n v } := by
  simp [State.writeIdle, hlock]

theorem writeIdle_iv_of_unlocked {s : State} (hlock : s.lock = false) (n : Fin 4) (v : Word) :
    s.writeIdle (.iv n) v = { s with iv := quadSet s.iv n v } := by
  simp [State.writeIdle, hlock]

/-- R34: a locked key or IV is left as it is. -/
theorem writeIdle_of_locked {s : State} (hlock : s.lock = true) {off : Offset} (hmin : 0x010 ≤ off.toNat)
    (hmax : off.toNat < 0x030) (v : Word) : s.writeIdle (regOf off) v = s := by
  by_cases hkey : off.toNat < 0x020
  · rw [regOf_key off hmin hkey, State.writeIdle, if_pos hlock]
  · rw [regOf_iv off (by omega) hmax, State.writeIdle, if_pos hlock]

/-- Settles O20. -/
theorem idleWrites : Obligations.IdleWrites := by
  intro s off v rest hidle hmod hbus
  rw [step_of_idle_write hidle hmod hbus]
  refine ⟨?ctrl, ?status, ?events, fun hrange hlock => ?locked, fun hlock => ⟨?k0, ?k1, ?k2, ?k3, ?i0, ?i1, ?i2, ?i3⟩,
    ?rd0, ?rd1, ?rd2, ?rd3, ?ptLen, ?ctLen, ?frLen, ?cap, ?tag0, ?tag1, ?tag2, ?tag3, ?low, ?high⟩
  case locked => rw [writeIdle_of_locked (s := s.popBus rest) hlock hrange.left hrange.right]; rfl
  case low =>
    rintro ⟨hmin, hmax⟩
    rw [regOf_reservedLow off hmin hmax]
    rfl
  case high =>
    intro hmin
    rw [regOf_reservedHigh off hmin]
    rfl
  case k0 => rintro rfl; exact congrArg _ (writeIdle_key_of_unlocked (s := s.popBus rest) hlock 0 v)
  case k1 => rintro rfl; exact congrArg _ (writeIdle_key_of_unlocked (s := s.popBus rest) hlock 1 v)
  case k2 => rintro rfl; exact congrArg _ (writeIdle_key_of_unlocked (s := s.popBus rest) hlock 2 v)
  case k3 => rintro rfl; exact congrArg _ (writeIdle_key_of_unlocked (s := s.popBus rest) hlock 3 v)
  case i0 => rintro rfl; exact congrArg _ (writeIdle_iv_of_unlocked (s := s.popBus rest) hlock 0 v)
  case i1 => rintro rfl; exact congrArg _ (writeIdle_iv_of_unlocked (s := s.popBus rest) hlock 1 v)
  case i2 => rintro rfl; exact congrArg _ (writeIdle_iv_of_unlocked (s := s.popBus rest) hlock 2 v)
  case i3 => rintro rfl; exact congrArg _ (writeIdle_iv_of_unlocked (s := s.popBus rest) hlock 3 v)
  all_goals
    rintro rfl
    rfl

/-! ## The buffer windows -/

theorem toNat_windowOffset (b : Buf) (k : Fin 64) :
    (BitVec.ofNat 12 (bufBase b + 4 * k.val)).toNat = bufBase b + 4 * k.val := by
  have hk := k.isLt
  rw [BitVec.toNat_ofNat]
  cases b <;> simp only [bufBase] <;> omega

theorem regOf_window (b : Buf) (k : Fin 64) : regOf (BitVec.ofNat 12 (bufBase b + 4 * k.val)) = .window b k := by
  have hk := k.isLt
  have hoff := toNat_windowOffset b k
  have hindex : ∀ base, base % 256 = 0 → Fin.ofNat 64 ((base + 4 * k.val) / 4) = k := by
    intro base hbase
    apply Fin.ext
    rw [Fin.val_ofNat]
    omega
  cases b <;> simp only [bufBase] at hoff ⊢
  · rw [regOf_windowPt _ (by omega) (by omega), hoff, hindex _ (by decide)]
  · rw [regOf_windowCt _ (by omega) (by omega), hoff, hindex _ (by decide)]
  · rw [regOf_windowFr _ (by omega) (by omega), hoff, hindex _ (by decide)]

/-- The bytes of a little-endian word (R10). -/
theorem extractLsb'_fromLe32 (x : Col) :
    (fromLe32 x).extractLsb' 0 8 = x.b0 ∧ (fromLe32 x).extractLsb' 8 8 = x.b1 ∧
      (fromLe32 x).extractLsb' 16 8 = x.b2 ∧ (fromLe32 x).extractLsb' 24 8 = x.b3 := by
  have hbytes := le32_fromLe32 x
  exact ⟨congrArg Col.b0 hbytes, congrArg Col.b1 hbytes, congrArg Col.b2 hbytes, congrArg Col.b3 hbytes⟩

/-- A word below BUF_CAP reads as its four bytes (R86). -/
theorem extractLsb'_windowWord {s : State} {b : Buf} {k : Fin 64} (hcap : 4 * k.val < s.cfg.bufCap) {j : Nat}
    (hj : j < 4) : (s.windowWord b k).extractLsb' (8 * j) 8 = s.mem.read (bufBase b + 4 * k.val + j) := by
  rw [State.windowWord, if_neg (Nat.not_le.mpr hcap)]
  obtain ⟨h0, h1, h2, h3⟩ := extractLsb'_fromLe32 (colOf (s.mem.readBytes (bufBase b + 4 * k.val) 4))
  match j, hj with
  | 0, _ => exact h0
  | 1, _ => exact h1
  | 2, _ => exact h2
  | 3, _ => exact h3

theorem getElem_colBytes_le32 (v : Word) {j : Nat} (hj : j < (colBytes (le32 v)).length) :
    (colBytes (le32 v))[j] = v.extractLsb' (8 * j) 8 := by
  match j, hj with
  | 0, _ => rfl
  | 1, _ => rfl
  | 2, _ => rfl
  | 3, _ => rfl

theorem keepsAllBut_writeWindow (b : Buf) (k : Fin 64) (v : Word) (s : State) :
    KeepsAllBut [.txValid] s (s.writeWindow b k v) := by
  unfold State.writeWindow
  split
  · exact (keepsAllBut_nil_refl s).mono nofun
  · intro item hunlisted
    cases item with
    | txValid => simp at hunlisted
    | errRecord | receiver => exact ⟨rfl, rfl⟩
    | resetCount => exact Memory.writeBytes_epoch ..
    | _ => rfl

theorem writeWindow_of_lt {s : State} {b : Buf} {k : Fin 64} (hcap : 4 * k.val < s.cfg.bufCap) (v : Word) :
    s.writeWindow b k v =
      { s with
        mem := s.mem.writeBytes (bufBase b + 4 * k.val) (colBytes (le32 v))
        txValid := s.txValid && b != .fr } :=
  if_neg (Nat.not_le.mpr hcap)

/-- Settles O21. -/
theorem bufferWindows : Obligations.BufferWindows := by
  rintro s b k off v rest hidle rfl
  have hmod : (BitVec.ofNat 12 (bufBase b + 4 * k.val)).toNat % 4 = 0 := by
    rw [toNat_windowOffset]
    cases b <;> simp only [bufBase] <;> omega
  refine ⟨fun hbus => ⟨_, step_of_idle_read hidle hmod hbus, ?_⟩,
    fun hbus => ⟨_, step_of_idle_write hidle hmod hbus, writeIdle_bus _ _ _, ?_⟩⟩
  · rw [regOf_window]
    exact ⟨fun hpast => if_pos hpast, fun hcap j hj => extractLsb'_windowWord hcap hj⟩
  · rw [regOf_window, State.writeIdle]
    refine ⟨fun hpast => if_pos hpast, fun hcap => ?_⟩
    have hkeeps := (keepsAllBut_popBus rest s).trans (keepsAllBut_writeWindow b k v (s.popBus rest))
    have hpopped : 4 * k.val < (s.popBus rest).cfg.bufCap := hcap
    rw [writeWindow_of_lt hpopped] at hkeeps ⊢
    refine ⟨fun j hj => ?_, fun a hout => Memory.read_writeBytes_outside _ _ _ _ hout,
      hkeeps.mono (by decide), ?_⟩
    · exact (Memory.read_writeBytes_inside _ _ _ _ hj).trans (getElem_colBytes_le32 v hj)
    · cases b
      · exact Bool.and_true _
      · exact Bool.and_true _
      · exact Bool.and_false _

/-! ## LOCK -/

/-- LOCK is 1 and KEY and IV are those of `s`. -/
def KeepsLockedKey (s t : State) : Prop := t.lock = true ∧ t.key = s.key ∧ t.iv = s.iv

theorem KeepsLockedKey.trans {s t u : State} (hst : KeepsLockedKey s t) (htu : KeepsLockedKey t u) :
    KeepsLockedKey s u := by
  obtain ⟨_, hkey, hiv⟩ := hst
  obtain ⟨hlock, hkey', hiv'⟩ := htu
  exact ⟨hlock, hkey'.trans hkey, hiv'.trans hiv⟩

theorem keepsLockedKey_of_keepsAllBut {items : List Item} {s t : State} (hlock : s.lock = true)
    (hkeeps : KeepsAllBut items s t) (hlisted : .lock ∉ items ∧ .key ∉ items ∧ .iv ∉ items) :
    KeepsLockedKey s t := by
  obtain ⟨h1, h2, h3⟩ := hlisted
  exact ⟨(hkeeps .lock h1).trans hlock, hkeeps .key h2, hkeeps .iv h3⟩

theorem keepsLockedKey_hostRead {s : State} (hlock : s.lock = true) (r : Reg) :
    KeepsLockedKey s (s.hostRead r) := by
  unfold State.hostRead
  split
  · exact ⟨hlock, rfl, rfl⟩
  · split <;> exact ⟨hlock, rfl, rfl⟩

theorem keepsLockedKey_issue {s : State} (hlock : s.lock = true) (w : Word) : KeepsLockedKey s (s.issue w) := by
  unfold State.issue
  split
  · exact ⟨(State.accept_lock ..).trans hlock, State.accept_key .., State.accept_iv ..⟩
  · exact ⟨hlock, rfl, rfl⟩

theorem keepsLockedKey_writeIdle {s : State} (hlock : s.lock = true) (r : Reg) (v : Word) :
    KeepsLockedKey s (s.writeIdle r v) := by
  cases r with
  | cmd => exact keepsLockedKey_issue hlock v
  | ctrl => exact ⟨Bool.or_eq_true_iff.mpr (.inl hlock), rfl, rfl⟩
  | key n | iv n => simp only [State.writeIdle, hlock, if_true]; exact ⟨hlock, rfl, rfl⟩
  | window b k => exact keepsLockedKey_of_keepsAllBut hlock (keepsAllBut_writeWindow b k v s) (by decide)
  | _ => exact ⟨hlock, rfl, rfl⟩

theorem keepsLockedKey_writeBusy {s : State} (hlock : s.lock = true) (r : Reg) (v : Word) :
    KeepsLockedKey s (s.writeBusy r v) := by
  cases r with
  | ctrl => exact ⟨Bool.or_eq_true_iff.mpr (.inl hlock), rfl, rfl⟩
  | _ => exact ⟨hlock, rfl, rfl⟩

theorem keepsLockedKey_hostClock {s t : State} (hlock : s.lock = true) (hreset : NoReset s)
    (hclock : s.hostClock = .next t) : KeepsLockedKey s t := by
  rcases hostClock_cases s with ⟨_, h⟩ | ⟨rest, _, h⟩ | ⟨rest, hbus, _⟩ | ⟨w, off, rest, _, _, h⟩ |
      ⟨w, off, v, rest, _, _, h⟩ | ⟨_, h⟩
  · cases h.symm.trans hclock
    exact ⟨hlock, rfl, rfl⟩
  · cases h.symm.trans hclock
    exact ⟨hlock, rfl, rfl⟩
  · exact absurd (by rw [hbus]; rfl) hreset
  · cases h.symm.trans hclock
    exact keepsLockedKey_hostRead (s := s.popBus rest) hlock _
  · cases h.symm.trans hclock
    unfold State.hostWrite
    split
    · exact keepsLockedKey_writeBusy (s := s.popBus rest) hlock _ v
    · exact keepsLockedKey_writeIdle (s := s.popBus rest) hlock _ v
  · cases h.symm.trans hclock

theorem keepsLockedKey_exec {i : Instr} {s t : State} (hlock : s.lock = true) (hnext : exec i s = .next t) :
    KeepsLockedKey s t :=
  keepsLockedKey_of_keepsAllBut hlock (keepsAllBut_exec hnext) (by cases i <;> decide)

theorem keepsLockedKey_engineClock {s t : State} (hlock : s.lock = true) (hclock : s.engineClock = .next t) :
    KeepsLockedKey s t := by
  rcases engineClock_cases s with ⟨_, h⟩ | ⟨_, _, _, _, h⟩ | ⟨_, i, _, _, _, h⟩ | ⟨_, _, _, _, _, h⟩
  · cases h.symm.trans hclock
    exact ⟨hlock, rfl, rfl⟩
  · cases h.symm.trans hclock
    exact ⟨hlock, rfl, rfl⟩
  · exact keepsLockedKey_exec hlock (h.symm.trans hclock)
  · cases h.symm.trans hclock
    exact ⟨hlock, rfl, rfl⟩

/-- Settles O22: neither side of a clock changes them. -/
theorem lockedKeyMaterialIsConstant : Obligations.LockedKeyMaterialIsConstant := by
  intro s u hlock hreset hstep
  obtain ⟨t, hclock, hmove⟩ := step_next hstep
  have hhost := keepsLockedKey_hostClock hlock hreset hclock
  rcases hmove with ⟨_, hengine⟩ | ⟨_, rfl⟩
  · exact hhost.trans (keepsLockedKey_engineClock hhost.left hengine)
  · exact hhost

theorem heldWord_of_key (s : State) (key' : Quad) (r : Reg) :
    ({ s with key := key' } : State).heldWord r = s.heldWord r := by
  cases r <;> rfl

/-- Settles O23: no register's held word mentions KEY. -/
theorem keyCannotBeReadBack : Obligations.KeyCannotBeReadBack := by
  intro s key' off rest hidle hmod hbus
  refine ⟨_, _, step_of_idle_read hidle hmod hbus, step_of_idle_read hidle hmod hbus, ?_⟩
  exact congrArg some (heldWord_of_key s key' (regOf off)).symm

end Sys2Proof.Machine
end

section
/-! PROOFS. The block's invariant (10_state.md, R40, R42, R43, R55; 70_reset_and_hazards.md, R286, R288): it
holds after reset, each entry of the host keeps it, and so does each move of the engine. A state without a
running command is judged by its registers and memory only (`inv_of_idle`), and an update beside a running
command by what it keeps (`Inv.of_running`). -/

namespace Sys2Proof.Machine

/-! ## Memory inside the buffers -/

/-- Memory in canonical form, with bytes of buffers of `cap` bytes only (R55, R86). -/
def MemFits (cap : Nat) (m : Memory) : Prop := m.wf = true ∧ ∀ c ∈ m.cells, bufferAddress cap c.1

/-- A string stored inside a buffer keeps memory inside the buffers. -/
theorem MemFits.writeBytes {cap a : Nat} {m : Memory} {d : Bytes} (hfits : MemFits cap m) (b : Buf)
    (hcap : cap ≤ 256) (hmin : bufBase b ≤ a) (hmax : a + d.length ≤ bufBase b + cap) :
    MemFits cap (m.writeBytes a d) := by
  obtain ⟨hwf, hplace⟩ := hfits
  have hbase : 0x100 ≤ bufBase b ∧ bufBase b ≤ 0x300 := by cases b <;> decide
  refine ⟨m.writeBytes_wf a d hwf (by omega) (by omega), fun c hc => ?_⟩
  rcases m.mem_cells_writeBytes a d c hc with hinside | hbefore
  · exact ⟨b, by omega, by omega⟩
  · exact hplace c hbefore

theorem StoresWithin.memFits {cap : Nat} {bufs : List Buf} {m m' : Memory} (hstores : StoresWithin cap bufs m m')
    (hcap : cap ≤ 256) (hfits : MemFits cap m) : MemFits cap m' := by
  induction hstores with
  | refl => exact hfits
  | @store b d _ _ _ hlen ih => exact ih.writeBytes b hcap (Nat.le_refl _) (Nat.add_le_add_left hlen _)

theorem Inv.memFits {s : State} (hinv : Inv s) : MemFits s.cfg.bufCap s.mem := ⟨hinv.memForm, hinv.memPlace⟩

theorem memFits_writeWindow {s : State} (hwf : s.cfg.wellFormed = true) (hfits : MemFits s.cfg.bufCap s.mem)
    (b : Buf) (k : Fin 64) (v : Word) : MemFits s.cfg.bufCap (s.writeWindow b k v).mem := by
  obtain ⟨hwhole, -, hcap⟩ := bufCap_of_wellFormed hwf
  by_cases hpast : s.cfg.bufCap ≤ 4 * k.val
  · rw [State.writeWindow, if_pos hpast]
    exact hfits
  · rw [writeWindow_of_lt (Nat.not_le.mp hpast)]
    exact hfits.writeBytes b hcap (by omega) (by simp only [colBytes_length]; omega)

/-! ## States with no command running -/

theorem inv_of_idle {s : State} (hidle : s.pending = none) (hwf : s.cfg.wellFormed = true)
    (hfits : MemFits s.cfg.bufCap s.mem) (herr : s.err = true ↔ s.errCode ≠ .none)
    (hreject : s.rxReject ≠ .none ↔ s.rxState = .rejected)
    (hrest : s.rxState = .awaitingFrame ∨ s.rxState = .delivered ∨ s.rxState = .rejected) : Inv s where
  params := hwf
  memForm := hfits.left
  memPlace := hfits.right
  errIff := herr
  rejectIff := hreject
  atRest := hrest
  heldLegal p hp := by cases hidle.symm.trans hp
  busyClear hbusy := by simp [State.busy, hidle] at hbusy
  heldClears p hp := by cases hidle.symm.trans hp
  heldLive p hp := by cases hidle.symm.trans hp
  heldPlace p hp := by cases hidle.symm.trans hp

theorem inv_afterReset {cfg : Params} (hwf : cfg.wellFormed = true) (epoch : Nat) (bus : List BusOp) (draws : Nat) :
    Inv (.afterReset cfg epoch bus draws) :=
  inv_of_idle rfl hwf ⟨rfl, nofun⟩ (by simp) (by simp) (.inl rfl)

/-- Settles O59. -/
theorem invariantHoldsAtReset : Obligations.InvariantHoldsAtReset := inv_afterReset (by decide) 0 [] 0

/-! ## Updates beside a running command -/

/-- What the host's access may change while a command runs. -/
def besideRunning : List Item := [.lock, .ie, .done, .txValid, .overrun, .running, .hostStream, .readData, .draws]

theorem SnapshotIsLive.of_keeps {x : Inputs} {s t : State} (hlive : SnapshotIsLive x s)
    (hkeeps : KeepsAllBut besideRunning s t) (hmem : t.mem = s.mem) (hlock : s.lock = true → t.lock = true) :
    SnapshotIsLive x t := by
  obtain ⟨hx, hset⟩ := hlive
  have hkey : t.key = s.key := hkeeps .key (by decide)
  have hiv : t.iv = s.iv := hkeeps .iv (by decide)
  have hrd : t.rd = s.rd := hkeeps .rd (by decide)
  have htag : t.tag = s.tag := hkeeps .tag (by decide)
  have hptLen : t.ptLen = s.ptLen := hkeeps .ptLen (by decide)
  have hctLen : t.ctLen = s.ctLen := hkeeps .ctLen (by decide)
  have hfrLen : t.frLen = s.frLen := hkeeps .frLen (by decide)
  refine ⟨hx.trans ?_, fun h => hlock (hset h)⟩
  simp only [State.liveInputs, hkey, hiv, hrd, htag, hptLen, hctLen, hfrLen, hmem]

/-- An update that keeps the running command's word and snapshot and what these are judged by. -/
theorem Inv.of_running {s t : State} {p q : Pending} (hinv : Inv s) (hp : s.pending = some p)
    (hq : t.pending = some q) (hword : q.word = p.word) (hsnap : q.snap = p.snap)
    (hplace : decode p.word = .ok .receive → q.rxSeen < (rxPath (rxOutcome s.cfg p.snap)).length)
    (hkeeps : KeepsAllBut besideRunning s t) (hmem : t.mem = s.mem) (hlock : s.lock = true → t.lock = true)
    (hdone : s.done = false → t.done = false) : Inv t := by
  have hcfg : t.cfg = s.cfg := hkeeps .parameters (by decide)
  obtain ⟨herr, hcode⟩ := hkeeps .errRecord (by decide)
  obtain ⟨hstate, hreject⟩ := hkeeps .receiver (by decide)
  have hverify : t.verifyOk = s.verifyOk := hkeeps .verifyOk (by decide)
  obtain ⟨herrClear, hcodeClear, hdoneClear⟩ := hinv.busyClear (by simp [State.busy, hp])
  have hget : ∀ p', t.pending = some p' → p' = q := fun p' hp' => Option.some.inj (hp'.symm.trans hq)
  constructor
  case params => rw [hcfg]; exact hinv.params
  case memForm => rw [hmem]; exact hinv.memForm
  case memPlace => rw [hmem, hcfg]; exact hinv.memPlace
  case errIff => rw [herr, hcode]; exact hinv.errIff
  case rejectIff => rw [hstate, hreject]; exact hinv.rejectIff
  case atRest => rw [hstate]; exact hinv.atRest
  case heldLegal =>
    intro p' hp'
    rw [hget p' hp', hword]
    exact hinv.heldLegal p hp
  case busyClear => exact fun _ => ⟨herr.trans herrClear, hcode.trans hcodeClear, hdone hdoneClear⟩
  case heldClears =>
    intro p' hp'
    rw [hget p' hp', hword, hverify, hstate, hreject]
    exact hinv.heldClears p hp
  case heldLive =>
    intro p' hp'
    rw [hget p' hp', hsnap]
    exact (hinv.heldLive p hp).of_keeps hkeeps hmem hlock
  case heldPlace =>
    intro p' hp'
    rw [hget p' hp', hword, hsnap, hcfg]
    exact hplace

theorem keepsAllBut_setPending (p : Option Pending) (s : State) : KeepsAllBut [.running] s (s.setPending p) := by
  intro item hunlisted
  cases item with
  | running => simp at hunlisted
  | errRecord | receiver => exact ⟨rfl, rfl⟩
  | _ => rfl

/-- R90: a host read changes no state of the block. -/
theorem keepsAllBut_hostRead (s : State) (r : Reg) :
    KeepsAllBut [.readData, .draws, .running] s (s.hostRead r) := by
  intro item hunlisted
  unfold State.hostRead
  split
  · cases item with
    | readData | draws | running => simp at hunlisted
    | errRecord | receiver => exact ⟨rfl, rfl⟩
    | _ => rfl
  · split <;>
    · cases item with
      | readData | draws | running => simp at hunlisted
      | errRecord | receiver => exact ⟨rfl, rfl⟩
      | _ => rfl

theorem hostRead_mem (s : State) (r : Reg) : (s.hostRead r).mem = s.mem := by
  unfold State.hostRead
  split
  · rfl
  · split <;> rfl

theorem hostRead_of_running {s : State} {p : Pending} {i : Instr} (hp : s.pending = some p)
    (hdec : decode p.word = .ok i) (r : Reg) :
    s.hostRead r =
      { s with
        readData := some (s.busyWord i p (s.shownPlace i p r) r)
        draws := s.draws + 1
        pending := some { p with rxSeen := s.shownPlace i p r } } := by
  simp only [State.hostRead, hp, hdec]

/-- R241: the place a read shows is on the path. -/
theorem shownPlace_lt {s : State} {p : Pending} {i : Instr}
    (hseen : p.rxSeen < (rxPath (rxOutcome s.cfg p.snap)).length) (r : Reg) :
    s.shownPlace i p r < (rxPath (rxOutcome s.cfg p.snap)).length := by
  unfold State.shownPlace pathPlace
  split
  · have hadvance := Nat.mod_lt (Config.freeAdvance s.draws)
      (Nat.sub_pos_of_lt hseen : (rxPath (rxOutcome s.cfg p.snap)).length - p.rxSeen > 0)
    omega
  · exact hseen

theorem keepsAllBut_writeBusy (r : Reg) (v : Word) (s : State) :
    KeepsAllBut [.lock, .ie, .done, .txValid, .overrun] s (s.writeBusy r v) := by
  intro item hunlisted
  cases item with
  | lock | ie | done | txValid | overrun => simp at hunlisted
  | errRecord | receiver => cases r <;> exact ⟨rfl, rfl⟩
  | _ => cases r <;> rfl

theorem writeBusy_mem (r : Reg) (v : Word) (s : State) : (s.writeBusy r v).mem = s.mem := by
  cases r <;> rfl

theorem writeBusy_lock {s : State} (hlock : s.lock = true) (r : Reg) (v : Word) : (s.writeBusy r v).lock = true := by
  obtain ⟨h, _⟩ := keepsLockedKey_writeBusy hlock r v
  exact h

theorem writeBusy_done {s : State} (hdone : s.done = false) (r : Reg) (v : Word) :
    (s.writeBusy r v).done = false := by
  cases r with
  | events => simp [State.writeBusy, hdone]
  | _ => exact hdone

/-! ## The host's side -/

theorem Inv.popBus {s : State} (hinv : Inv s) (rest : List BusOp) : Inv (s.popBus rest) :=
  ⟨hinv.params, hinv.memForm, hinv.memPlace, hinv.errIff, hinv.rejectIff, hinv.atRest, hinv.heldLegal,
   hinv.busyClear, hinv.heldClears, hinv.heldLive, hinv.heldPlace⟩

theorem Inv.hostRead {s : State} (hinv : Inv s) (r : Reg) : Inv (s.hostRead r) := by
  cases hp : s.pending with
  | none =>
    rw [hostRead_of_idle hp]
    exact inv_of_idle hp hinv.params hinv.memFits hinv.errIff hinv.rejectIff hinv.atRest
  | some p =>
    obtain ⟨i, hdec⟩ := hinv.heldLegal p hp
    have hkeeps := (keepsAllBut_hostRead s r).mono (ys := besideRunning) (by decide)
    have hmem := hostRead_mem s r
    rw [hostRead_of_running hp hdec] at hkeeps hmem ⊢
    exact hinv.of_running hp rfl rfl rfl (fun hrx => shownPlace_lt (hinv.heldPlace p hp hrx) r) hkeeps hmem id id

theorem Inv.writeBusy {s : State} {p : Pending} (hinv : Inv s) (hp : s.pending = some p) (r : Reg) (v : Word) :
    Inv (s.writeBusy r v) :=
  hinv.of_running hp ((writeBusy_pending s r v).trans hp) rfl rfl (hinv.heldPlace p hp)
    ((keepsAllBut_writeBusy r v s).mono (by decide)) (writeBusy_mem r v s) (fun hlock => writeBusy_lock hlock r v)
    fun hdone => writeBusy_done hdone r v

theorem rxPath_length_pos (o : RxOutcome) : 0 < (rxPath o).length := by
  cases o <;> exact Nat.succ_pos _

/-- The snapshot taken at acceptance is live: acceptance changes no input. -/
theorem snapshotIsLive_accept (w : Word) (i : Instr) (s : State) : SnapshotIsLive s.liveInputs (s.accept w i) :=
  ⟨by simp [State.liveInputs], fun h => (State.accept_lock s w i).trans h⟩

/-- R286: acceptance starts a command whose word is legal and whose record and clears stand. -/
theorem Inv.accept {s : State} {w : Word} {i : Instr} (hinv : Inv s) (hdec : decode w = .ok i) :
    Inv (s.accept w i) := by
  have hget : ∀ p, (s.accept w i).pending = some p → p = s.pendingOf w i := fun p hp =>
    Option.some.inj (hp.symm.trans (State.accept_pending s w i))
  have hof : ∀ j, decode w = .ok j → i = j := fun j hj => Except.ok.inj (hdec.symm.trans hj)
  constructor
  case params => rw [State.accept_cfg]; exact hinv.params
  case memForm => rw [State.accept_mem]; exact hinv.memForm
  case memPlace => rw [State.accept_mem, State.accept_cfg]; exact hinv.memPlace
  case errIff => simp
  case rejectIff =>
    rw [State.accept_rxReject, State.accept_rxState]
    cases i with
    | receive => simp [State.acceptClears]
    | _ => exact hinv.rejectIff
  case atRest =>
    rw [State.accept_rxState]
    cases i with
    | receive => exact .inl rfl
    | _ => exact hinv.atRest
  case busyClear => exact fun _ => ⟨rfl, rfl, rfl⟩
  case heldLegal =>
    intro p hp
    rw [hget p hp]
    exact ⟨i, hdec⟩
  case heldClears =>
    intro p hp
    rw [hget p hp]
    refine ⟨fun htag => ?_, fun hrx => ?_⟩
    · obtain rfl := hof _ htag
      rfl
    · obtain rfl := hof _ hrx
      exact ⟨rfl, rfl, rfl⟩
  case heldLive =>
    intro p hp
    rw [hget p hp]
    exact snapshotIsLive_accept w i s
  case heldPlace =>
    intro p hp _
    rw [hget p hp]
    exact rxPath_length_pos _

theorem Inv.writeIdle {s : State} (hinv : Inv s) (hidle : s.pending = none) (r : Reg) (v : Word) :
    Inv (s.writeIdle r v) := by
  cases r with
  | cmd =>
    simp only [State.writeIdle, State.issue]
    split
    next i hdec => exact hinv.accept hdec
    next => exact inv_of_idle hidle hinv.params hinv.memFits (by simp) hinv.rejectIff hinv.atRest
  | key n | iv n =>
    simp only [State.writeIdle]
    split
    · exact hinv
    · exact inv_of_idle hidle hinv.params hinv.memFits hinv.errIff hinv.rejectIff hinv.atRest
  | window b k =>
    have hkeeps := keepsAllBut_writeWindow b k v s
    have hcfg : (s.writeWindow b k v).cfg = s.cfg := hkeeps .parameters (by decide)
    obtain ⟨herr, hcode⟩ := hkeeps .errRecord (by decide)
    obtain ⟨hstate, hreject⟩ := hkeeps .receiver (by decide)
    refine inv_of_idle (s := s.writeWindow b k v) ((hkeeps .running (by decide)).trans hidle) ?_ ?_ ?_ ?_ ?_
    · rw [hcfg]; exact hinv.params
    · rw [hcfg]; exact memFits_writeWindow hinv.params hinv.memFits b k v
    · rw [herr, hcode]; exact hinv.errIff
    · rw [hstate, hreject]; exact hinv.rejectIff
    · rw [hstate]; exact hinv.atRest
  | _ => exact inv_of_idle hidle hinv.params hinv.memFits hinv.errIff hinv.rejectIff hinv.atRest

theorem Inv.hostWrite {s : State} (hinv : Inv s) (r : Reg) (v : Word) : Inv (s.hostWrite r v) := by
  cases hp : s.pending with
  | none =>
    rw [hostWrite_of_idle hp]
    exact hinv.writeIdle hp r v
  | some p =>
    rw [hostWrite_of_busy hp]
    exact hinv.writeBusy hp r v

theorem Inv.hostClock {s t : State} (hinv : Inv s) (hclock : s.hostClock = .next t) : Inv t := by
  rcases hostClock_cases s with ⟨_, h⟩ | ⟨rest, _, h⟩ | ⟨rest, _, h⟩ | ⟨w, off, rest, _, _, h⟩ |
      ⟨w, off, v, rest, _, _, h⟩ | ⟨_, h⟩ <;> cases h.symm.trans hclock
  · exact hinv
  · exact hinv.popBus rest
  · exact inv_afterReset hinv.params _ _ _
  · exact (hinv.popBus rest).hostRead _
  · exact (hinv.popBus rest).hostWrite _ v

/-! ## The engine's side -/

theorem record_receiver (o : RxOutcome) :
    (o.record.2.2 ≠ .none ↔ o.record.2.1 = .rejected) ∧
    (o.record.2.1 = .awaitingFrame ∨ o.record.2.1 = .delivered ∨ o.record.2.1 = .rejected) := by
  cases o <;> simp [RxOutcome.record]

/-- R42, R43: the Receiver's fields agree at the end of every command. -/
theorem receiver_of_exec {i : Instr} {s t : State} (hinv : Inv s) (hnext : exec i s = .next t) :
    (t.rxReject ≠ .none ↔ t.rxState = .rejected) ∧
    (t.rxState = .awaitingFrame ∨ t.rxState = .delivered ∨ t.rxState = .rejected) := by
  by_cases hreceive : i = .receive
  · subst hreceive
    rw [eq_of_exec_receive hnext, rxReject_applyRx, rxState_applyRx]
    exact record_receiver _
  · have hlisted : .receiver ∉ ending ++ writesItems i := by
      revert hreceive
      cases i <;> decide
    obtain ⟨hstate, hreject⟩ := keepsAllBut_exec hnext .receiver hlisted
    rw [hstate, hreject]
    exact ⟨hinv.rejectIff, hinv.atRest⟩

theorem parameters_not_mem_writes (i : Instr) : .parameters ∉ ending ++ writesItems i := by
  cases i <;> decide

theorem endsRecorded_of_exec {i : Instr} {s t : State} (hnext : exec i s = .next t) : EndsRecorded i s.ie t := by
  obtain ⟨t', hnext', hends⟩ := everyCommandEndsRecorded i s
  obtain rfl := Host.Outcome.next.inj (hnext'.symm.trans hnext)
  exact hends

theorem pending_of_exec {i : Instr} {s t : State} (hnext : exec i s = .next t) : t.pending = none := by
  obtain ⟨hbusy, _⟩ := endsRecorded_of_exec hnext
  simpa [State.busy] using hbusy

theorem Inv.exec {i : Instr} {s t : State} (hinv : Inv s) (hnext : exec i s = .next t) : Inv t := by
  obtain ⟨-, -, hcap⟩ := bufCap_of_wellFormed hinv.params
  obtain ⟨_, _, _, herr, _⟩ := endsRecorded_of_exec hnext
  obtain ⟨hreject, hrest⟩ := receiver_of_exec hinv hnext
  have hcfg : t.cfg = s.cfg := keepsAllBut_exec hnext .parameters (parameters_not_mem_writes i)
  refine inv_of_idle (pending_of_exec hnext) ?_ ?_ (herr.trans (errCodeBits_ne_zero_iff _)) hreject hrest
  · rw [hcfg]
    exact hinv.params
  · rw [hcfg]
    exact (storesWithin_exec hinv.params hnext).memFits hcap hinv.memFits

theorem Inv.engineClock {s t : State} (hinv : Inv s) (hclock : s.engineClock = .next t) : Inv t := by
  rcases engineClock_cases s with ⟨_, h⟩ | ⟨p, n, hp, _, h⟩ | ⟨_, i, _, _, _, h⟩ | ⟨_, _, _, _, _, h⟩
  · cases h.symm.trans hclock
    exact hinv
  · cases h.symm.trans hclock
    exact hinv.of_running hp rfl rfl rfl (hinv.heldPlace p hp)
      ((keepsAllBut_setPending _ s).mono (by decide)) rfl id id
  · exact hinv.exec (h.symm.trans hclock)
  · cases h.symm.trans hclock
    exact inv_of_idle rfl hinv.params hinv.memFits (by simp) hinv.rejectIff hinv.atRest

/-- Settles O60: the host's side of the clock keeps the invariant, and then the engine's does. -/
theorem stepKeepsInvariant : Obligations.StepKeepsInvariant := by
  intro s u hinv hstep
  obtain ⟨t, hclock, hmove⟩ := step_next hstep
  rcases hmove with ⟨_, hengine⟩ | ⟨_, rfl⟩
  · exact (hinv.hostClock hclock).engineClock hengine
  · exact hinv.hostClock hclock

end Sys2Proof.Machine
end

section
/-! PROOFS. What a host read shows while a command runs (70_reset_and_hazards.md, rule R289) and how the reads
of STATUS follow a RECEIVE along its path (46_sender_receiver.md, rule R241). -/

namespace Sys2Proof.Machine

/-! ## R241: the path of a RECEIVE -/

/-- A place on the path shows the code of its state. -/
theorem rxPathCodes_getElem? {o : RxOutcome} {n : Nat} (hn : n < (rxPath o).length) :
    (rxPathCodes o)[n]? = some (rxStateBits ((rxPath o).getD n .awaitingFrame)) := by
  rw [rxPathCodes_eq_map, List.getElem?_map, List.getElem?_eq_getElem hn, List.getD_eq_getElem _ _ hn]
  rfl

theorem getLast?_rxPath (o : RxOutcome) : (rxPath o).getLast? = some o.record.2.1 := by
  cases o <;> rfl

theorem getLast?_rxPathCodes (o : RxOutcome) : (rxPathCodes o).getLast? = some (rxStateBits o.record.2.1) := by
  rw [rxPathCodes_eq_map, List.getLast?_map, getLast?_rxPath]
  rfl

@[simp] theorem extractLsb'_statusWord_rxState (s : State) :
    s.statusWord.extractLsb' 8 3 = rxStateBits s.rxState :=
  packStatus_rxState ..

/-- R288, R289: while a command runs, a clock of the host without reset changes only these. -/
theorem keepsAllBut_hostClock_of_running {s t : State} {p : Pending} (hp : s.pending = some p) (hreset : NoReset s)
    (hclock : s.hostClock = .next t) : KeepsAllBut besideRunning s t := by
  rcases hostClock_cases s with ⟨_, h⟩ | ⟨rest, _, h⟩ | ⟨rest, hbus, _⟩ | ⟨w, off, rest, _, _, h⟩ |
      ⟨w, off, v, rest, _, _, h⟩ | ⟨_, h⟩
  · cases h.symm.trans hclock
    exact (keepsAllBut_nil_refl s).mono nofun
  · cases h.symm.trans hclock
    exact (keepsAllBut_popBus rest s).mono (by decide)
  · exact absurd (by rw [hbus]; rfl) hreset
  · cases h.symm.trans hclock
    exact ((keepsAllBut_popBus rest s).trans (keepsAllBut_hostRead _ _)).mono (by decide)
  · cases h.symm.trans hclock
    rw [hostWrite_of_busy (s := s.popBus rest) hp]
    exact ((keepsAllBut_popBus rest s).trans (keepsAllBut_writeBusy _ v _)).mono (by decide)
  · cases h.symm.trans hclock

/-- An engine's move that leaves a command running counts a clock down and does nothing else. -/
theorem engineClock_of_still_running {s t : State} {q : Pending} (hclock : s.engineClock = .next t)
    (hq : t.pending = some q) (hbusy : s.pending ≠ none) :
    ∃ p n, s.pending = some p ∧ q = { p with left := n } ∧ t.cfg = s.cfg := by
  rcases engineClock_cases s with ⟨hidle, _⟩ | ⟨p, n, hp, _, h⟩ | ⟨_, i, _, _, _, h⟩ | ⟨_, _, _, _, _, h⟩
  · exact absurd hidle hbusy
  · cases h.symm.trans hclock
    exact ⟨p, n, hp, (Option.some.inj hq).symm, rfl⟩
  · cases (pending_of_exec (h.symm.trans hclock)).symm.trans hq
  · cases h.symm.trans hclock
    cases hq

theorem step_of_still_running {s t : State} {p q : Pending} (hp : s.pending = some p) (hreset : NoReset s)
    (hstep : step s = .next t) (hq : t.pending = some q) :
    q.word = p.word ∧ q.snap = p.snap ∧ t.cfg = s.cfg ∧ p.rxSeen ≤ q.rxSeen := by
  obtain ⟨u, hclock, hmove⟩ := step_next hstep
  obtain ⟨r, hr, hword, hsnap, _, hseen⟩ := hostClock_keeps_running s u p hreset hp hclock
  have hcfg : u.cfg = s.cfg := keepsAllBut_hostClock_of_running hp hreset hclock .parameters (by decide)
  rcases hmove with ⟨_, hengine⟩ | ⟨hidle, _⟩
  · obtain ⟨r', n, hr', rfl, hcfg'⟩ := engineClock_of_still_running hengine hq (by simp [hr])
    obtain rfl := Option.some.inj (hr.symm.trans hr')
    exact ⟨hword, hsnap, hcfg'.trans hcfg, hseen⟩
  · simp [State.busy, hp] at hidle

theorem readData_not_mem_writes (i : Instr) : .readData ∉ ending ++ writesItems i := by
  cases i <;> decide

/-- The read of a clock on which a command runs, with the step that the clock makes. -/
theorem step_of_running_read {s u : State} {p q : Pending} {i : Instr} {w : Word} (hp : s.pending = some p)
    (hclock : s.hostClock = .next u) (hq : u.pending = some q) (hdec : decode q.word = .ok i)
    (hread : u.readData = some w) :
    ∃ t, step s = .next t ∧ t.readData = some w ∧
      (∀ n, q.left = n + 1 → t.pending = some { q with left := n }) ∧
      (q.left = 0 → t.pending = none ∧ exec i u = .next t) := by
  rw [step_of_busy hp hclock]
  cases hleft : q.left with
  | zero =>
    obtain ⟨t, hexec⟩ := exec_answers_next i u
    refine ⟨t, (engineClock_of_due hq hleft hdec).trans hexec, ?_, nofun, fun _ => ⟨pending_of_exec hexec, hexec⟩⟩
    exact (keepsAllBut_exec hexec .readData (readData_not_mem_writes i)).trans hread
  | succ n =>
    refine ⟨_, engineClock_of_waiting hq hleft, hread, fun m hm => ?_, nofun⟩
    cases hm
    rfl

/-- Settles O58: a read shows the place it moves to, and completion the path's last state. -/
theorem receiverStateReadsFollowThePath : Obligations.ReceiverStateReadsFollowThePath := by
  refine ⟨fun s p rest hinv hp hdec hbus => ?_, fun s t p q hp hreset hstep hq =>
    step_of_still_running hp hreset hstep hq, fun s t hnext => ?_⟩
  · have hpopped : (s.popBus rest).pending = some p := hp
    have hclock := hostClock_of_read hbus (by decide)
    rw [show regOf 0x008#12 = .status from rfl, hostRead_of_running hpopped hdec] at hclock
    obtain ⟨t, hstep, hread, hwaiting, hdue⟩ := step_of_running_read hp hclock rfl hdec rfl
    refine ⟨_, _, _, t, hclock, rfl, rfl, rfl, shownPlace_ge (s.popBus rest) .receive p .status, rfl, ?_,
      hstep, hread, hwaiting, hdue⟩
    have hplace := shownPlace_lt (s := s.popBus rest) (i := .receive) (hinv.heldPlace p hp hdec) .status
    exact (rxPathCodes_getElem? hplace).trans (congrArg some (packStatus_rxState ..).symm)
  · rw [eq_of_exec_receive hnext, extractLsb'_statusWord_rxState, rxState_applyRx]
    exact ⟨getLast?_rxPath _, getLast?_rxPathCodes _⟩

/-! ## R289: the words of STATUS and EVENTS -/

/-- Two words of STATUS agree on the bits of the fields that agree. -/
theorem packStatus_getLsbD_congr (busy err : Bool) (code : ErrCode) {v v' : Bool} {x x' : RxState}
    {j j' : RxReject} {k : Nat} (hv : k = 2 → v = v') (hx : 8 ≤ k ∧ k < 11 → x = x')
    (hj : 12 ≤ k ∧ k < 15 → j = j') :
    (packStatus busy err v code x j).getLsbD k = (packStatus busy err v' code x' j').getLsbD k := by
  simp only [packStatus, BitVec.getLsbD_append]
  split_ifs
  · rfl
  · rfl
  · rw [hv (by omega)]
  · rfl
  · rfl
  · rw [hx (by omega)]
  · rfl
  · rw [hj (by omega)]
  · rfl

theorem packEvents_getLsbD_congr (done overrun : Bool) {v v' : Bool} {k : Nat} (hv : k = 1 → v = v') :
    (packEvents done v overrun).getLsbD k = (packEvents done v' overrun).getLsbD k := by
  simp only [packEvents, BitVec.getLsbD_append]
  split_ifs
  · rfl
  · rw [hv (by omega)]
  · rfl
  · rfl

/-- R289: STATUS as a read shows it while a command runs. -/
theorem busyStatus_spec {s : State} {p : Pending} {i : Instr} (hinv : Inv s) (hp : s.pending = some p)
    (place : Nat) {w : Word} (hw : s.busyStatus i p place = w) :
    w.getLsbD 0 = true ∧ w.getLsbD 1 = false ∧ w.extractLsb' 4 4 = 0#4 ∧
      (i ≠ .tagVerify → i ≠ .receive → w = s.statusWord) ∧
      ∀ k, w.getLsbD k = s.statusWord.getLsbD k ∨ (k = 2 ∧ (i = .tagVerify ∨ i = .receive)) ∨
        (i = .receive ∧ (8 ≤ k ∧ k < 11 ∨ 12 ≤ k ∧ k < 15)) := by
  have hbusy : s.busy = true := by simp [State.busy, hp]
  obtain ⟨herr, hcode, _⟩ := hinv.busyClear hbusy
  subst hw
  obtain ⟨hbit0, hbit1, _⟩ := packStatus_flags true s.err
    (if i = .tagVerify ∨ i = .receive then Config.freeBit s.draws else s.verifyOk) s.errCode
    (if i = .receive then (rxPath (rxOutcome s.cfg p.snap)).getD place .awaitingFrame else s.rxState)
    (if i = .receive then rxRejectOf (Config.freeCategory s.draws) else s.rxReject)
  refine ⟨hbit0, hbit1.trans herr, (packStatus_errCode ..).trans (by rw [hcode]; rfl), fun htag hrx => ?_,
    fun k => ?_⟩
  · rw [State.busyStatus, State.statusWord, if_neg (by simp [htag, hrx]), if_neg hrx, if_neg hrx, hbusy]
  · rw [or_iff_not_imp_right, not_or]
    rintro ⟨hnotVerify, hnotReceiver⟩
    rw [State.busyStatus, State.statusWord, hbusy]
    refine packStatus_getLsbD_congr true s.err s.errCode (fun hk => if_neg fun h => hnotVerify ⟨hk, h⟩)
      (fun hk => if_neg fun h => hnotReceiver ⟨h, .inl hk⟩) (fun hk => if_neg fun h => hnotReceiver ⟨h, .inr hk⟩)

/-- R289: EVENTS as a read shows it while a command runs. -/
theorem busyEvents_spec {s : State} {p : Pending} (hinv : Inv s) (hp : s.pending = some p) (i : Instr) {w : Word}
    (hw : s.busyEvents i = w) :
    w.getLsbD 0 = false ∧ w.getLsbD 2 = s.overrun ∧ (i ≠ .send → i ≠ .frameBuild → w = s.eventsWord) ∧
      ∀ k, w.getLsbD k = s.eventsWord.getLsbD k ∨ (k = 1 ∧ (i = .send ∨ i = .frameBuild)) := by
  obtain ⟨_, _, hdone⟩ := hinv.busyClear (by simp [State.busy, hp])
  subst hw
  obtain ⟨hbit0, _, hbit2, _⟩ := packEvents_flags s.done
    (if i = .send ∨ i = .frameBuild then Config.freeBit s.draws else s.txValid) s.overrun
  refine ⟨hbit0.trans hdone, hbit2, fun hsend hbuild => ?_, fun k => ?_⟩
  · rw [State.busyEvents, State.eventsWord, if_neg (by simp [hsend, hbuild])]
  · rw [or_iff_not_imp_right]
    intro hnot
    exact packEvents_getLsbD_congr s.done s.overrun fun hk => if_neg fun h => hnot ⟨hk, h⟩

/-! ## R120, R289: the words on a command's list -/

theorem mem_listedRegs_rd {o : Nat} (hmin : 0x030 ≤ o) (hmax : o < 0x040) (hmod : o % 4 = 0) (i : Instr) :
    o ∈ listedRegs i ↔ i = .decode ∨ i = .receive := by
  cases i <;> simp [listedRegs] <;> omega

theorem mem_listedRegs_tag {o : Nat} (hmin : 0x050 ≤ o) (hmax : o < 0x060) (hmod : o % 4 = 0) (i : Instr) :
    o ∈ listedRegs i ↔ i = .tagGen ∨ i = .frameParse ∨ i = .send ∨ i = .receive := by
  cases i <;> simp [listedRegs] <;> omega

theorem mem_listedRegs_ptLen (i : Instr) :
    0x040 ∈ listedRegs i ↔ i = .encode ∨ i = .decrypt ∨ i = .send ∨ i = .receive := by
  cases i <;> decide

theorem mem_listedRegs_ctLen (i : Instr) :
    0x044 ∈ listedRegs i ↔ i = .encrypt ∨ i = .frameParse ∨ i = .send ∨ i = .receive := by
  cases i <;> decide

theorem mem_listedRegs_frLen (i : Instr) : 0x048 ∈ listedRegs i ↔ i = .frameBuild ∨ i = .send := by
  cases i <;> decide

/-- Registers elsewhere are on no command's list. -/
theorem not_mem_listedRegs {o : Nat} (hout : o < 0x030 ∨ (0x04C ≤ o ∧ o < 0x050) ∨ 0x060 ≤ o) (i : Instr) :
    o ∉ listedRegs i := by
  cases i <;> simp [listedRegs] <;> omega

theorem decryptedLength_eq (cfg : Params) (x : Inputs) : decryptedLength cfg x = decryptSpan cfg x := by
  unfold decryptedLength decryptSpan
  cases decryptResult cfg x <;> rfl

theorem receivedLength_eq (cfg : Params) (x : Inputs) : receivedLength cfg x = receiveSpan (rxOutcome cfg x) x := by
  unfold receivedLength receiveSpan
  cases rxOutcome cfg x <;> rfl

/-- The bytes on a command's list are the stretches that it counts as writing (R120, log 15). -/
theorem lt_writtenSpan_iff (i : Instr) (cfg : Params) (x : Inputs) (b : Buf) (n : Nat) :
    n < writtenSpan i cfg x b ↔ ∃ m, (b, m) ∈ listedBytes i cfg x ∧ n < m := by
  cases i <;> cases b <;>
    simp [writtenSpan, listedBytes, paddedLength, decryptedLength_eq, receivedLength_eq]

theorem onWritesList_of_register {i : Instr} {cfg : Params} {x : Inputs} {o : Nat} (hlow : o < 0x100) :
    OnWritesList i cfg x o ↔ o ∈ listedRegs i := by
  refine ⟨fun h => h.resolve_right ?_, .inl⟩
  rintro ⟨⟨b, n⟩, _, hmin, _⟩
  cases b <;> simp only [bufBase] at hmin <;> omega

theorem onWritesList_of_reservedHigh {i : Instr} {cfg : Params} {x : Inputs} {o : Nat} (hhigh : 0x400 ≤ o)
    (hcap : cfg.bufCap ≤ 256) : ¬ OnWritesList i cfg x o := by
  rintro (hreg | ⟨⟨b, n⟩, _, _, _, hmax⟩)
  · exact not_mem_listedRegs (.inr (.inr (by omega))) i hreg
  · cases b <;> simp only [bufBase] at hmax <;> omega

/-- The buffers stand 256 bytes apart, so a window's word is in the stretch of its own buffer only. -/
theorem onWritesList_of_window {i : Instr} {cfg : Params} {x : Inputs} (hcap : cfg.bufCap ≤ 256) (b : Buf)
    (k : Fin 64) : OnWritesList i cfg x (bufBase b + 4 * k.val) ↔
      4 * k.val < cfg.bufCap ∧ 4 * k.val < writtenSpan i cfg x b := by
  have hk := k.isLt
  have hbase : 0x100 ≤ bufBase b := by cases b <;> decide
  rw [lt_writtenSpan_iff]
  constructor
  · rintro (hreg | ⟨⟨b', n⟩, hlisted, hmin, hmax, hfits⟩)
    · exact absurd hreg (not_mem_listedRegs (.inr (.inr (by omega))) i)
    · have hsame : b' = b := by
        cases b <;> cases b' <;> simp only [bufBase, reduceCtorEq] at hmin hfits ⊢ <;> omega
      subst hsame
      simp only at hmin hmax hfits
      exact ⟨by omega, n, hlisted, by omega⟩
  · rintro ⟨hfits, n, hlisted, hmax⟩
    exact .inr ⟨(b, n), hlisted, by simp only; omega, by simp only; omega, by simp only; omega⟩

theorem exists_windowOffset {off : Offset} (hmod : off.toNat % 4 = 0) (hmin : 0x100 ≤ off.toNat)
    (hmax : off.toNat < 0x400) : ∃ b k, off = BitVec.ofNat 12 (bufBase b + 4 * (k : Fin 64).val) := by
  have hof : ∀ (b : Buf) (_ : bufBase b ≤ off.toNat) (_ : off.toNat < bufBase b + 256),
      off = BitVec.ofNat 12 (bufBase b + 4 * (⟨(off.toNat - bufBase b) / 4, by omega⟩ : Fin 64).val) := by
    intro b hlow hhigh
    have hbase : bufBase b % 4 = 0 := by cases b <;> decide
    apply BitVec.eq_of_toNat_eq
    rw [toNat_windowOffset]
    simp only
    omega
  by_cases hpt : off.toNat < 0x200
  · exact ⟨.pt, _, hof .pt hmin hpt⟩
  by_cases hct : off.toNat < 0x300
  · exact ⟨.ct, _, hof .ct (Nat.le_of_not_lt hpt) hct⟩
  · exact ⟨.fr, _, hof .fr (Nat.le_of_not_lt hct) hmax⟩

theorem commandWrites_regOf_elsewhere {off : Offset} (hlow : off.toNat < 0x100)
    (hout : off.toNat < 0x030 ∨ (0x04C ≤ off.toNat ∧ off.toNat < 0x050) ∨ 0x060 ≤ off.toNat) (i : Instr)
    (cfg : Params) (x : Inputs) : commandWrites i cfg x (regOf off) = false := by
  have hat := liesAt_regOf off
  cases hr : regOf off with rw [hr, Reg.LiesAt] at hat
  | rd _ | tag _ | ptLen | ctLen | frLen | window _ _ => omega
  | _ => rfl

/-- The model's list of registers is the spec's (R120). -/
theorem commandWrites_register_iff {off : Offset} (hmod : off.toNat % 4 = 0) (hlow : off.toNat < 0x100)
    (i : Instr) (cfg : Params) (x : Inputs) :
    commandWrites i cfg x (regOf off) = true ↔ off.toNat ∈ listedRegs i := by
  by_cases hrd : 0x030 ≤ off.toNat ∧ off.toNat < 0x040
  · rw [regOf_rd off hrd.left hrd.right, mem_listedRegs_rd hrd.left hrd.right hmod]
    exact decide_eq_true_iff
  by_cases htag : 0x050 ≤ off.toNat ∧ off.toNat < 0x060
  · rw [regOf_tag off htag.left htag.right, mem_listedRegs_tag htag.left htag.right hmod]
    exact decide_eq_true_iff
  by_cases hptLen : off.toNat = 0x040
  · rw [regOf_ptLen off (by omega) (by omega), hptLen, mem_listedRegs_ptLen]
    exact decide_eq_true_iff
  by_cases hctLen : off.toNat = 0x044
  · rw [regOf_ctLen off (by omega) (by omega), hctLen, mem_listedRegs_ctLen]
    exact decide_eq_true_iff
  by_cases hfrLen : off.toNat = 0x048
  · rw [regOf_frLen off (by omega) (by omega), hfrLen, mem_listedRegs_frLen]
    exact decide_eq_true_iff
  · rw [commandWrites_regOf_elsewhere hlow (by omega)]
    exact iff_of_false nofun (not_mem_listedRegs (by omega) i)

/-- The model's list of writes is the spec's, register by register and word by word (R120). -/
theorem commandWrites_regOf_iff {cfg : Params} (hcap : cfg.bufCap ≤ 256) (i : Instr) (x : Inputs) {off : Offset}
    (hmod : off.toNat % 4 = 0) :
    commandWrites i cfg x (regOf off) = true ↔ OnWritesList i cfg x off.toNat := by
  rcases Nat.lt_or_ge off.toNat 0x100 with hlow | hmin
  · rw [onWritesList_of_register hlow]
    exact commandWrites_register_iff hmod hlow i cfg x
  · rcases Nat.lt_or_ge off.toNat 0x400 with hmax | hhigh
    · obtain ⟨b, k, rfl⟩ := exists_windowOffset hmod hmin hmax
      rw [toNat_windowOffset, onWritesList_of_window hcap, regOf_window]
      exact decide_eq_true_iff
    · rw [regOf_reservedHigh off hhigh]
      exact iff_of_false nofun (onWritesList_of_reservedHigh hhigh hcap)

/-! ## R289: the other words -/

/-- STATUS apart, the held words do not show whether a command runs. -/
theorem heldWord_of_pending (s : State) (q : Option Pending) {r : Reg} (hr : r ≠ .status) :
    ({ s with pending := q } : State).heldWord r = s.heldWord r := by
  cases r with
  | status => exact absurd rfl hr
  | _ => rfl

theorem regOf_ne_status_and_events {off : Offset} (hmod : off.toNat % 4 = 0) (hstatus : off ≠ 0x008#12)
    (hevents : off ≠ 0x00C#12) : regOf off ≠ .status ∧ regOf off ≠ .events := by
  have hstatus' : off.toNat ≠ 0x008 := fun h => hstatus (BitVec.eq_of_toNat_eq h)
  have hevents' : off.toNat ≠ 0x00C := fun h => hevents (BitVec.eq_of_toNat_eq h)
  constructor <;> apply regOf_ne_of_not_liesAt <;> rw [Reg.LiesAt] <;> omega

theorem busyWord_of_ne {s : State} {r : Reg} (hstatus : r ≠ .status) (hevents : r ≠ .events) (i : Instr)
    (p : Pending) (place : Nat) :
    s.busyWord i p place r = (if commandWrites i s.cfg p.snap r then Config.freeWord s.draws else s.heldWord r) := by
  rw [State.busyWord, if_neg hstatus, if_neg hevents]

/-- Settles O24: STATUS and EVENTS by their words, and every other word by whether it is on the list. -/
theorem busyReads : Obligations.BusyReads := by
  intro s p i off rest hinv hp hdec hmod hbus
  obtain ⟨-, -, hcap⟩ := bufCap_of_wellFormed hinv.params
  have hpopped : (s.popBus rest).pending = some p := hp
  have hclock := hostClock_of_read hbus ((accessWellFormed_iff 4 off).mpr ⟨rfl, hmod⟩)
  have hkeeps := ((keepsAllBut_popBus rest s).trans (keepsAllBut_hostRead (s.popBus rest) (regOf off))).mono
    (ys := [.hostStream, .readData, .draws, .running]) (by decide)
  rw [hostRead_of_running hpopped hdec] at hclock hkeeps
  refine ⟨_, _, hclock, rfl, ?status, ?events, fun hstatus hevents => ?other, hkeeps, rfl, _, rfl, rfl, rfl, rfl⟩
  case status =>
    rintro rfl
    exact busyStatus_spec hinv hp _ rfl
  case events =>
    rintro rfl
    exact busyEvents_spec hinv hp i rfl
  case other =>
    obtain ⟨hregStatus, hregEvents⟩ := regOf_ne_status_and_events hmod hstatus hevents
    rw [busyWord_of_ne hregStatus hregEvents, heldWord_popBus]
    have hlist := commandWrites_regOf_iff hcap i p.snap hmod
    refine ⟨fun hon => if_pos (hlist.mpr hon), fun hoff => ?_⟩
    have hheld := mt hlist.mp hoff
    refine ⟨if_neg hheld, _, step_of_idle_read (s := { s with pending := none }) rfl hmod hbus, ?_⟩
    rw [heldWord_of_pending s none hregStatus]
    exact congrArg some (if_neg hheld).symm

end Sys2Proof.Machine
end
